-- ==== Sys2Proof/Word.lean ====
section
/-! DEFINITION. The words of the machine: the three bit-vector types every other file is written with (R6, R7, R8). -/

namespace Sys2Proof

/-- A 32-bit word: a register, an operand, an address, an instruction, an ALU result (R8). -/
abbrev Word := BitVec 32

/-- A byte of either memory (R51). -/
abbrev Byte := BitVec 8

/-- A 5-bit register index, the fields `rd`, `rs1`, `rs2` (R20, R81). -/
abbrev RegIdx := BitVec 5

theorem regIdx_lt (r : RegIdx) : r.toNat < 32 := r.isLt

end Sys2Proof
end

