-- ==== Sys2Proof/Syntax.lean ====
section
/-! DEFINITION. The instructions (R2), one constructor per row of spec/opcode_table.json, and the names the decoder's record
is made of: opcode classes, ALU operations, mnemonics (R87, R95). -/

namespace Sys2Proof

/-- The seven opcode classes (R2, R87). The eighth tag, INVALID, is the decoder's error outcome (R95). -/
inductive OpClass where
  | rArith | iArith | load | store | branch | jal | halt
deriving DecidableEq, Repr

/-- The arithmetic operations an ID/EX latch can name (R31). -/
inductive AluOp where
  | add | sub | xor | or | and
deriving DecidableEq, Repr

/-- The fifteen mnemonics (R2, R95). -/
inductive Mnemonic where
  | ADD | SUB | XOR | OR | AND | ADDI | XORI | ORI | ANDI | LW | SW | BEQ | BNE | JAL | HALT
deriving DecidableEq, Repr

/-- The instructions, with the operands of R100 (register fields, then the immediate as the format assembles it, before sign
extension). A B or J immediate is the byte offset of R85, R86: its bit 0 is always 0, which `Instr.wf` checks (log 13).
`halt` keeps the ignored bits 31:7 of its word (R94), so that every word has at most one instruction (log 12). -/
inductive Instr where
  | add  (rd rs1 rs2 : RegIdx)
  | sub  (rd rs1 rs2 : RegIdx)
  | xor  (rd rs1 rs2 : RegIdx)
  | or   (rd rs1 rs2 : RegIdx)
  | and  (rd rs1 rs2 : RegIdx)
  | addi (rd rs1 : RegIdx) (imm : BitVec 12)
  | xori (rd rs1 : RegIdx) (imm : BitVec 12)
  | ori  (rd rs1 : RegIdx) (imm : BitVec 12)
  | andi (rd rs1 : RegIdx) (imm : BitVec 12)
  | lw   (rd rs1 : RegIdx) (imm : BitVec 12)
  | sw   (rs2 rs1 : RegIdx) (imm : BitVec 12)
  | beq  (rs1 rs2 : RegIdx) (off : BitVec 13)
  | bne  (rs1 rs2 : RegIdx) (off : BitVec 13)
  | jal  (rd : RegIdx) (off : BitVec 21)
  | halt (ignored : BitVec 25)
deriving DecidableEq, Repr

/-- The decoder's output record (R95): the class, the mnemonic, the operation, the six raw fields of the word less the opcode
(extracted from every word, used by its class or not, R81, R103) and the class's sign-extended immediate. -/
structure Decoded where
  cls : OpClass
  mnemonic : Mnemonic
  aluOp : AluOp
  rd : RegIdx
  rs1 : RegIdx
  rs2 : RegIdx
  funct3 : BitVec 3
  funct7 : BitVec 7
  imm : Word
deriving DecidableEq, Repr

/-- Why a decoder input is no instruction. -/
inductive DecodeError where
  /-- `InvalidOpcode` of R95, R97: an unlisted opcode or funct combination. -/
  | invalidOpcode (word : Word)
  /-- Fewer than the four bytes of an instruction (R80). -/
  | truncated
deriving DecidableEq, Repr

end Sys2Proof
end

