-- ==== Sys2Proof/Machine/Flags.lean ====
section
/-! DEFINITION. The machine has no flags and no condition codes (R25). What the spec calls flags are the control bits of a
latch, each a function of the opcode class (R102); they are defined here, once. -/

namespace Sys2Proof

/-- The class reads the register its `rs1` field names (R102). -/
def OpClass.readsRs1 : OpClass → Bool
  | .rArith => true
  | .iArith => true
  | .load => true
  | .store => true
  | .branch => true
  | .jal => false
  | .halt => false

/-- The class reads the register its `rs2` field names (R102). -/
def OpClass.readsRs2 : OpClass → Bool
  | .rArith => true
  | .iArith => false
  | .load => false
  | .store => true
  | .branch => true
  | .jal => false
  | .halt => false

/-- The write-enable flag (R31, R102). -/
def OpClass.writesReg : OpClass → Bool
  | .rArith => true
  | .iArith => true
  | .load => true
  | .store => false
  | .branch => false
  | .jal => true
  | .halt => false

/-- `is_load` (R31, R102). -/
def OpClass.isLoad : OpClass → Bool
  | .rArith => false
  | .iArith => false
  | .load => true
  | .store => false
  | .branch => false
  | .jal => false
  | .halt => false

/-- `is_store` (R31, R102). -/
def OpClass.isStore : OpClass → Bool
  | .rArith => false
  | .iArith => false
  | .load => false
  | .store => true
  | .branch => false
  | .jal => false
  | .halt => false

/-- `is_jump` (R31, R102). -/
def OpClass.isJump : OpClass → Bool
  | .rArith => false
  | .iArith => false
  | .load => false
  | .store => false
  | .branch => false
  | .jal => true
  | .halt => false

end Sys2Proof
end

