-- ==== Sys2Proof/Decode.lean ====
section
/-! DEFINITION. The instruction decoder and encoder (30_encoding.md): fields (R81), immediates (R83 to R86), the match rules
of each class (R87 to R94), `Decode` as a total function (R95), the decoder's record, the encoder, and the byte order of an
instruction word (R54, R80). -/

namespace Sys2Proof

/-! ### Fields of a word (R81) -/

/-- `w[6:0]`. -/
def fieldOpcode (w : Word) : BitVec 7 := w.extractLsb' 0 7
/-- `w[11:7]`. -/
def fieldRd (w : Word) : RegIdx := w.extractLsb' 7 5
/-- `w[14:12]`. -/
def fieldFunct3 (w : Word) : BitVec 3 := w.extractLsb' 12 3
/-- `w[19:15]`. -/
def fieldRs1 (w : Word) : RegIdx := w.extractLsb' 15 5
/-- `w[24:20]`. -/
def fieldRs2 (w : Word) : RegIdx := w.extractLsb' 20 5
/-- `w[31:25]`. -/
def fieldFunct7 (w : Word) : BitVec 7 := w.extractLsb' 25 7

/-! ### Immediates, before sign extension (R83 to R86) -/

/-- The I immediate, `w[31:20]` (R83). -/
def immI (w : Word) : BitVec 12 := w.extractLsb' 20 12
/-- The S immediate, `w[31:25]` above `w[11:7]` (R84). -/
def immS (w : Word) : BitVec 12 := w.extractLsb' 25 7 ++ w.extractLsb' 7 5
/-- The B immediate, `w[31]`, `w[7]`, `w[30:25]`, `w[11:8]` and a zero bit (R85). -/
def immB (w : Word) : BitVec 13 :=
  w.extractLsb' 31 1 ++ w.extractLsb' 7 1 ++ w.extractLsb' 25 6 ++ w.extractLsb' 8 4 ++ 0#1
/-- The J immediate, `w[31]`, `w[19:12]`, `w[20]`, `w[30:21]` and a zero bit (R86). -/
def immJ (w : Word) : BitVec 21 :=
  w.extractLsb' 31 1 ++ w.extractLsb' 12 8 ++ w.extractLsb' 20 1 ++ w.extractLsb' 21 10 ++ 0#1

/-- `sext_N` (R9): the 32-bit word with the same two's complement value. -/
def sext {n : Nat} (v : BitVec n) : Word := v.signExtend 32

/-! ### The seven opcodes (R87) -/

def opRArith : BitVec 7 := 0x33#7
def opIArith : BitVec 7 := 0x13#7
def opLoad : BitVec 7 := 0x03#7
def opStore : BitVec 7 := 0x23#7
def opBranch : BitVec 7 := 0x63#7
def opJal : BitVec 7 := 0x6F#7
def opHalt : BitVec 7 := 0x7F#7

/-- The seven-bit compare by which IF recognises a HALT (R94, R176, R230). -/
def isHaltWord (w : Word) : Bool := fieldOpcode w == opHalt

/-! ### The decoder (R95) -/

/-- R88: opcode 0x33, by `funct3` and `funct7`. -/
def decodeRArith (w : Word) : Except DecodeError Instr :=
  if fieldFunct3 w = 0x0#3 ∧ fieldFunct7 w = 0x00#7 then .ok (.add (fieldRd w) (fieldRs1 w) (fieldRs2 w))
  else if fieldFunct3 w = 0x0#3 ∧ fieldFunct7 w = 0x20#7 then .ok (.sub (fieldRd w) (fieldRs1 w) (fieldRs2 w))
  else if fieldFunct3 w = 0x4#3 ∧ fieldFunct7 w = 0x00#7 then .ok (.xor (fieldRd w) (fieldRs1 w) (fieldRs2 w))
  else if fieldFunct3 w = 0x6#3 ∧ fieldFunct7 w = 0x00#7 then .ok (.or (fieldRd w) (fieldRs1 w) (fieldRs2 w))
  else if fieldFunct3 w = 0x7#3 ∧ fieldFunct7 w = 0x00#7 then .ok (.and (fieldRd w) (fieldRs1 w) (fieldRs2 w))
  else .error (.invalidOpcode w)

/-- R89: opcode 0x13, by `funct3` alone. -/
def decodeIArith (w : Word) : Except DecodeError Instr :=
  if fieldFunct3 w = 0x0#3 then .ok (.addi (fieldRd w) (fieldRs1 w) (immI w))
  else if fieldFunct3 w = 0x4#3 then .ok (.xori (fieldRd w) (fieldRs1 w) (immI w))
  else if fieldFunct3 w = 0x6#3 then .ok (.ori (fieldRd w) (fieldRs1 w) (immI w))
  else if fieldFunct3 w = 0x7#3 then .ok (.andi (fieldRd w) (fieldRs1 w) (immI w))
  else .error (.invalidOpcode w)

/-- R90: opcode 0x03, LW only. -/
def decodeLoad (w : Word) : Except DecodeError Instr :=
  if fieldFunct3 w = 0x2#3 then .ok (.lw (fieldRd w) (fieldRs1 w) (immI w)) else .error (.invalidOpcode w)

/-- R91: opcode 0x23, SW only. -/
def decodeStore (w : Word) : Except DecodeError Instr :=
  if fieldFunct3 w = 0x2#3 then .ok (.sw (fieldRs2 w) (fieldRs1 w) (immS w)) else .error (.invalidOpcode w)

/-- R92: opcode 0x63, BEQ and BNE. -/
def decodeBranch (w : Word) : Except DecodeError Instr :=
  if fieldFunct3 w = 0x0#3 then .ok (.beq (fieldRs1 w) (fieldRs2 w) (immB w))
  else if fieldFunct3 w = 0x1#3 then .ok (.bne (fieldRs1 w) (fieldRs2 w) (immB w))
  else .error (.invalidOpcode w)

/-- `Decode` (R95), total on words; every word of no class is `InvalidOpcode` (R97). -/
def decodeWord (w : Word) : Except DecodeError Instr :=
  if fieldOpcode w = opRArith then decodeRArith w
  else if fieldOpcode w = opIArith then decodeIArith w
  else if fieldOpcode w = opLoad then decodeLoad w
  else if fieldOpcode w = opStore then decodeStore w
  else if fieldOpcode w = opBranch then decodeBranch w
  else if fieldOpcode w = opJal then .ok (.jal (fieldRd w) (immJ w))
  else if fieldOpcode w = opHalt then .ok (.halt (w.extractLsb' 7 25))
  else .error (.invalidOpcode w)

/-! ### Bytes (R52 to R54, R80): the first byte holds bits 31:24 -/

/-- The big-endian word of four consecutive bytes, the lowest address first. -/
def wordOfBytes (b0 b1 b2 b3 : Byte) : Word := b0 ++ b1 ++ b2 ++ b3

/-- Byte `k` of a word in big-endian order: byte 0 is bits 31:24, byte 3 bits 7:0. -/
def byteOfWord (w : Word) (k : Nat) : Byte := w.extractLsb' (8 * (3 - k)) 8

/-- The four bytes of a word as memory holds them. -/
def bytesOfWord (w : Word) : List Byte := [byteOfWord w 0, byteOfWord w 1, byteOfWord w 2, byteOfWord w 3]

/-- The decoder on bytes as instruction memory holds them: the instruction and the bytes after it. -/
def decodeBytes : List Byte → Except DecodeError (Instr × List Byte)
  | b0 :: b1 :: b2 :: b3 :: rest =>
    match decodeWord (wordOfBytes b0 b1 b2 b3) with
    | .ok i => .ok (i, rest)
    | .error e => .error e
  | _ => .error .truncated

/-- The word numbered as spec/opcode_table.json numbers a row's bits, from a number of `nbits` bits (0 above them). -/
def tableWord (nbits w : Nat) : Word := BitVec.ofNat 32 (w % 2 ^ nbits)

/-- The instruction the decoder reads from a table word laid out in instruction memory's byte order. -/
def decodeTableWord (nbits w : Nat) : Option Instr :=
  match decodeBytes (bytesOfWord (tableWord nbits w)) with
  | .ok (i, _) => some i
  | .error _ => none

/-! ### The encoder (R82) -/

/-- R format. -/
def encodeR (funct7 : BitVec 7) (rs2 rs1 : RegIdx) (funct3 : BitVec 3) (rd : RegIdx) (op : BitVec 7) : Word :=
  funct7 ++ rs2 ++ rs1 ++ funct3 ++ rd ++ op

/-- I format. -/
def encodeI (imm : BitVec 12) (rs1 : RegIdx) (funct3 : BitVec 3) (rd : RegIdx) (op : BitVec 7) : Word :=
  imm ++ rs1 ++ funct3 ++ rd ++ op

/-- S format. -/
def encodeS (imm : BitVec 12) (rs2 rs1 : RegIdx) (funct3 : BitVec 3) (op : BitVec 7) : Word :=
  imm.extractLsb' 5 7 ++ rs2 ++ rs1 ++ funct3 ++ imm.extractLsb' 0 5 ++ op

/-- B format. -/
def encodeB (off : BitVec 13) (rs2 rs1 : RegIdx) (funct3 : BitVec 3) (op : BitVec 7) : Word :=
  off.extractLsb' 12 1 ++ off.extractLsb' 5 6 ++ rs2 ++ rs1 ++ funct3 ++ off.extractLsb' 1 4 ++ off.extractLsb' 11 1 ++ op

/-- J format. -/
def encodeJ (off : BitVec 21) (rd : RegIdx) (op : BitVec 7) : Word :=
  off.extractLsb' 20 1 ++ off.extractLsb' 1 10 ++ off.extractLsb' 11 1 ++ off.extractLsb' 12 8 ++ rd ++ op

/-- H format. -/
def encodeH (ignored : BitVec 25) (op : BitVec 7) : Word := ignored ++ op

/-- The word of an instruction (R82, R88 to R94). -/
def encode : Instr → Word
  | .add rd rs1 rs2 => encodeR 0x00#7 rs2 rs1 0x0#3 rd opRArith
  | .sub rd rs1 rs2 => encodeR 0x20#7 rs2 rs1 0x0#3 rd opRArith
  | .xor rd rs1 rs2 => encodeR 0x00#7 rs2 rs1 0x4#3 rd opRArith
  | .or rd rs1 rs2 => encodeR 0x00#7 rs2 rs1 0x6#3 rd opRArith
  | .and rd rs1 rs2 => encodeR 0x00#7 rs2 rs1 0x7#3 rd opRArith
  | .addi rd rs1 imm => encodeI imm rs1 0x0#3 rd opIArith
  | .xori rd rs1 imm => encodeI imm rs1 0x4#3 rd opIArith
  | .ori rd rs1 imm => encodeI imm rs1 0x6#3 rd opIArith
  | .andi rd rs1 imm => encodeI imm rs1 0x7#3 rd opIArith
  | .lw rd rs1 imm => encodeI imm rs1 0x2#3 rd opLoad
  | .sw rs2 rs1 imm => encodeS imm rs2 rs1 0x2#3 opStore
  | .beq rs1 rs2 off => encodeB off rs2 rs1 0x0#3 opBranch
  | .bne rs1 rs2 off => encodeB off rs2 rs1 0x1#3 opBranch
  | .jal rd off => encodeJ off rd opJal
  | .halt ignored => encodeH ignored opHalt

/-! ### The record of an instruction (R95) -/

/-- A record with the six raw fields of a word (R81: extracted from every word, whatever its class). -/
def recordOf (w : Word) (cls : OpClass) (mnemonic : Mnemonic) (aluOp : AluOp) (imm : Word) : Decoded :=
  { cls, mnemonic, aluOp, rd := fieldRd w, rs1 := fieldRs1 w, rs2 := fieldRs2 w, funct3 := fieldFunct3 w,
    funct7 := fieldFunct7 w, imm }

/-- The decoder's record of an instruction (R95, R102). `alu_op` is ADD for LOAD and STORE, and for BRANCH and JAL where it is
a don't-care (R173). For HALT the spec defines none; ADD is taken (log 11), and no latch ever holds it (R152). -/
def Instr.decoded (i : Instr) : Decoded :=
  match i with
  | .add _ _ _ => recordOf (encode i) .rArith .ADD .add 0#32
  | .sub _ _ _ => recordOf (encode i) .rArith .SUB .sub 0#32
  | .xor _ _ _ => recordOf (encode i) .rArith .XOR .xor 0#32
  | .or _ _ _ => recordOf (encode i) .rArith .OR .or 0#32
  | .and _ _ _ => recordOf (encode i) .rArith .AND .and 0#32
  | .addi _ _ imm => recordOf (encode i) .iArith .ADDI .add (sext imm)
  | .xori _ _ imm => recordOf (encode i) .iArith .XORI .xor (sext imm)
  | .ori _ _ imm => recordOf (encode i) .iArith .ORI .or (sext imm)
  | .andi _ _ imm => recordOf (encode i) .iArith .ANDI .and (sext imm)
  | .lw _ _ imm => recordOf (encode i) .load .LW .add (sext imm)
  | .sw _ _ imm => recordOf (encode i) .store .SW .add (sext imm)
  | .beq _ _ off => recordOf (encode i) .branch .BEQ .add (sext off)
  | .bne _ _ off => recordOf (encode i) .branch .BNE .add (sext off)
  | .jal _ off => recordOf (encode i) .jal .JAL .add (sext off)
  | .halt _ => recordOf (encode i) .halt .HALT .add 0#32

/-- `Decode` as R95 writes it: from a word to its record, or InvalidOpcode. -/
def decodeRecord (w : Word) : Except DecodeError Decoded :=
  match decodeWord w with
  | .ok i => .ok i.decoded
  | .error e => .error e

end Sys2Proof
end

