-- ==== Sys2Proof/Config.lean ====
section
/-! DEFINITION. The implementation parameters of R6, with the value this hardware takes, and the values this model gives the
open ones at `State.reset`. No parameter is a free value: the open ones (memory sizes and contents) are data of State. -/

namespace Sys2Proof.Config

/-- MAX_CYCLES, the safety limit in ticks (R6, R237). -/
def maxCycles : Nat := 100000

/-- PC_RESET (R6, R23; the spec's decision D2, log 4). -/
def pcReset : Word := 0#32

/-- RF_RESET, the value of every register at reset (R6, R20; the spec's decision D3, log 3). -/
def rfReset : Word := 0#32

/-- The largest size of either memory in bytes (R6, D4). -/
def memSizeLimit : Nat := 2147483648

/-- IMEM_SIZE of `State.reset`. DESIGN CHOICE (log 1): R6 leaves it OPEN; the largest allowed size is taken. -/
def imemSize : Nat := memSizeLimit

/-- DMEM_SIZE of `State.reset`. DESIGN CHOICE (log 1): R6 leaves it OPEN; the largest allowed size is taken. -/
def dmemSize : Nat := memSizeLimit

/-- What a byte of memory that no cell lists reads as. DESIGN CHOICE (log 2): IMEM_INIT and DMEM_INIT are OPEN (R6). -/
def unlistedByte : Byte := 0#8

end Sys2Proof.Config
end

