-- ==== Sys2Proof/Machine/State.lean ====
section
/-! DEFINITION. The state of the machine as plain data (10_state.md): registers, pc, the two memories, the IF stop flag, the
four latches field by field, the counters, the run status; the reasons a step can stop; reset (R40). -/

namespace Sys2Proof.Machine

/-- One memory (R42, R51): its size in bytes and the bytes that differ from what an unlisted address reads as
(`Config.unlistedByte`), in the canonical form `Memory.wf`. -/
structure Memory where
  size : Nat
  cells : List Host.Cell
deriving DecidableEq, Repr

/-- The canonical form: addresses strictly rising, every listed byte inside the memory and different from the unlisted one,
and a size R6 allows. -/
abbrev Memory.wf (m : Memory) : Prop :=
  m.cells.Pairwise (fun c d => c.1 < d.1) ∧
  (∀ c ∈ m.cells, c.1 < m.size ∧ c.2 ≠ Config.unlistedByte) ∧
  m.size ≤ Config.memSizeLimit

/-- A memory of the given size with no byte listed. -/
def Memory.blank (size : Nat) : Memory := { size, cells := [] }

/-- The pipeline register IF/ID (R30). -/
structure IfId where
  nop : Bool
  pc : Word
  instr : Word
deriving DecidableEq, Repr

/-- The pipeline register ID/EX (R31). -/
structure IdEx where
  nop : Bool
  pc : Word
  cls : OpClass
  aluOp : AluOp
  rs1 : RegIdx
  rs2 : RegIdx
  rd : RegIdx
  rs1Val : Word
  rs2Val : Word
  imm : Word
  isLoad : Bool
  isStore : Bool
  writesReg : Bool
  isJump : Bool
deriving DecidableEq, Repr

/-- The pipeline register EX/MEM (R32). -/
structure ExMem where
  nop : Bool
  aluResult : Word
  storeData : Word
  rd : RegIdx
  isLoad : Bool
  isStore : Bool
  writesReg : Bool
deriving DecidableEq, Repr

/-- The pipeline register MEM/WB (R33). -/
structure MemWb where
  nop : Bool
  wrtData : Word
  rd : RegIdx
  writesReg : Bool
deriving DecidableEq, Repr

/-- BUBBLE in IF/ID (R29): `nop = 1`, payload zero. -/
def IfId.bubble : IfId := { nop := true, pc := 0#32, instr := 0#32 }

/-- BUBBLE in ID/EX (R29). DESIGN CHOICE (log 9): the zero of `cls` and `alu_op` is the first name of each, R_ARITH and ADD. -/
def IdEx.bubble : IdEx :=
  { nop := true, pc := 0#32, cls := .rArith, aluOp := .add, rs1 := 0#5, rs2 := 0#5, rd := 0#5, rs1Val := 0#32, rs2Val := 0#32,
    imm := 0#32,
    isLoad := false, isStore := false, writesReg := false, isJump := false }

/-- BUBBLE in EX/MEM (R29). -/
def ExMem.bubble : ExMem :=
  { nop := true, aluResult := 0#32, storeData := 0#32, rd := 0#5, isLoad := false, isStore := false, writesReg := false }

/-- BUBBLE in MEM/WB (R29). -/
def MemWb.bubble : MemWb := { nop := true, wrtData := 0#32, rd := 0#5, writesReg := false }

/-- The stage an error record names (R253). -/
inductive Stage where
  | id | mem
deriving DecidableEq, Repr

/-- The run-time errors (R250), each with the fields of its record (R253, R259). A tick that raises one sets `State.fault` to
it; `step` answers `.fault` with it at every state that holds it (R36, R238, R251). -/
inductive Fault where
  /-- Raised by ID in the tick numbered `tick` for the undecodable word `word` fetched from `address` (R252). Safe: the
  hardware ends the run too. -/
  | invalidOpcode (tick : Nat) (address word : Word)
  /-- Raised by MEM in the tick numbered `tick` for a LW or SW whose data address `address` is out of bounds (R254). Safe:
  the hardware ends the run too. -/
  | memoryOutOfBounds (tick : Nat) (address : Word)
  /-- Raised by the run control when `tick` ticks have been executed and the run has not ended (R237, R259). Safe: the
  hardware ends the run too. -/
  | safetyLimitReached (tick : Nat)
deriving DecidableEq, Repr

/-- The stage field of an error record: none for the safety limit (R253, R259). -/
def Fault.stage : Fault → Option Stage
  | .invalidOpcode _ _ _ => some .id
  | .memoryOutOfBounds _ _ => some .mem
  | .safetyLimitReached _ => none

/-- The setup errors (R250, R258): they belong to the host that loads the memories, before any tick. -/
inductive SetupError where
  /-- The input directory is absent. Raised by `hostLoad`. Safe: no run takes place. -/
  | ioDirectoryMissing
  /-- A memory file has a wrong format. Raised by `hostLoad`. Safe: no run takes place. -/
  | malformedMemoryFile
deriving DecidableEq, Repr

/-- Why the model gives no answer. -/
inductive Refusal where
  /-- An instruction that has no meaning yet; no arm of `exec` answers it. Safe: nothing is claimed of it. -/
  | notModelled (mnemonic : String)
  /-- Raised by `hostLoad` for a memory of more than 2^31 bytes (U5, D4). Safe: nothing is claimed of such a machine. -/
  | memorySizeOverLimit
deriving DecidableEq, Repr

/-- The machine (10_state.md). -/
structure State where
  /-- `x[0]` to `x[31]` (R20). -/
  x : Vector Word 32
  /-- The address of the next word IF fetches (R23). -/
  pc : Word
  /-- Instruction memory (R42, R50); no instruction writes it (R65). -/
  imem : Memory
  /-- Data memory (R42, R50). -/
  dmem : Memory
  /-- `IF.nop`, the IF stage's stop flag (R28). -/
  ifNop : Bool
  ifid : IfId
  idex : IdEx
  exmem : ExMem
  memwb : MemWb
  /-- Ticks committed (R34). -/
  cycle : Nat
  /-- Instructions that completed WB (R35). -/
  retired : Nat
  /-- The run has ended cleanly (R36, R236). -/
  halted : Bool
  /-- The error that ended the run, if one did (R36, R253). -/
  fault : Option Fault
deriving DecidableEq, Repr

/-- The engine in its reset state over the memories the host loaded (R40, R280). -/
def State.resetWith (imem dmem : Memory) : State :=
  { x := Vector.replicate 32 Config.rfReset, pc := Config.pcReset, imem, dmem, ifNop := false,
    ifid := IfId.bubble, idex := IdEx.bubble, exmem := ExMem.bubble, memwb := MemWb.bubble,
    cycle := 0, retired := 0, halted := false, fault := none }

/-- The machine right after reset (R40), over memories of the size of Config with no byte listed (log 1, 2). -/
def State.reset : State := State.resetWith (Memory.blank Config.imemSize) (Memory.blank Config.dmemSize)

/-- The architectural part of the state, on which the sequential step of R14 works. -/
structure ArchState where
  x : Vector Word 32
  pc : Word
  imem : Memory
  dmem : Memory
deriving DecidableEq, Repr

/-- The outcomes of the sequential step (R14): the state after one instruction, a clean end of the run (HALT, or the pc out of
instruction bounds), or one of the two fatal errors. -/
inductive ArchOutcome where
  | next (a : ArchState)
  | ended
  | invalidOpcode (address word : Word)
  | memoryOutOfBounds (address : Word)
deriving DecidableEq, Repr

/-- The architectural part of an engine state: its registers, pc and memories as committed. -/
def State.arch (s : State) : ArchState := { x := s.x, pc := s.pc, imem := s.imem, dmem := s.dmem }

end Sys2Proof.Machine
end

