-- ==== Sys2Proof/Machine/Ops.lean ====
section
/-! DEFINITION. The named operations over registers and memory (R10, R20 to R22, R50 to R57), the ALU (R116, R169), taking an
error (R180, R253), and placing an instruction where the machine decodes its next one. -/

namespace Sys2Proof.Machine

/-! ### Registers: the one place where register 0 is hardwired (R21) -/

/-- `x[r]` (R10): register 0 reads 0 whatever the cell holds. -/
def readReg (x : Vector Word 32) (r : RegIdx) : Word :=
  if r = 0#5 then 0#32 else x[r.toNat]'(regIdx_lt r)

/-- `x[r] <- v` (R10): a write to register 0 is discarded. -/
def writeReg (x : Vector Word 32) (r : RegIdx) (v : Word) : Vector Word 32 :=
  if r = 0#5 then x else x.set r.toNat v (regIdx_lt r)

/-! ### Bytes of a memory -/

/-- What the cells say of an address, the unlisted byte where they say nothing. -/
def lookupCell : List Host.Cell → Nat → Byte
  | [], _ => Config.unlistedByte
  | c :: rest, a => if c.1 = a then c.2 else lookupCell rest a

/-- The cells with the byte at an address set, in canonical form again: the unlisted byte is not listed. -/
def insertCell : List Host.Cell → Nat → Byte → List Host.Cell
  | [], a, b => if b = Config.unlistedByte then [] else [(a, b)]
  | c :: rest, a, b =>
    if a < c.1 then (if b = Config.unlistedByte then c :: rest else (a, b) :: c :: rest)
    else if a = c.1 then (if b = Config.unlistedByte then rest else (a, b) :: rest)
    else c :: insertCell rest a b

/-- The byte at an address (`D[i]`, `I[i]` of R52, R54). -/
def Memory.byteAt (m : Memory) (a : Nat) : Byte := lookupCell m.cells a

/-- The memory with the byte at an address set. -/
def Memory.setByte (m : Memory) (a : Nat) (b : Byte) : Memory := { m with cells := insertCell m.cells a b }

/-! ### Words of a memory: big-endian, bytewise at any address (R52 to R57) -/

/-- `InBoundsD`, `InBoundsI` (R55, R56): computed in unbounded integers, no wrap. -/
def Memory.inBounds (m : Memory) (a : Word) : Bool := decide (a.toNat + 3 < m.size)

/-- The four bytes at `a` .. `a + 3` as a word, most significant first. -/
def Memory.wordAt (m : Memory) (a : Nat) : Word :=
  wordOfBytes (m.byteAt a) (m.byteAt (a + 1)) (m.byteAt (a + 2)) (m.byteAt (a + 3))

/-- The memory with the four bytes at `a` .. `a + 3` set to a word, most significant first. -/
def Memory.setWordAt (m : Memory) (a : Nat) (v : Word) : Memory :=
  (((m.setByte a (byteOfWord v 0)).setByte (a + 1) (byteOfWord v 1)).setByte (a + 2) (byteOfWord v 2)).setByte
    (a + 3) (byteOfWord v 3)

/-- `MemRead(a, 4)` of data memory (R52) and `Fetch(a)` of instruction memory (R54); none when out of bounds. -/
def Memory.readWord (m : Memory) (a : Word) : Option Word :=
  if m.inBounds a then some (m.wordAt a.toNat) else none

/-- `MemWrite(a, 4, v)` (R53); none when out of bounds. -/
def Memory.writeWord (m : Memory) (a : Word) (v : Word) : Option Memory :=
  if m.inBounds a then some (m.setWordAt a.toNat v) else none

/-! ### Arithmetic -/

/-- `ALU(op, p, q)` (R169): addition and subtraction modulo 2^32 (R116), the logical operations bit by bit. -/
def alu : AluOp → Word → Word → Word
  | .add, p, q => p + q
  | .sub, p, q => p - q
  | .xor, p, q => p ^^^ q
  | .or, p, q => p ||| q
  | .and, p, q => p &&& q

/-- The address of the next sequential instruction, modulo 2^32 (R24, R116). -/
def nextPc (pc : Word) : Word := pc + 4#32

/-! ### Taking an error: the machine's only exception entry (R261) -/

/-- A tick that raises is not committed: `fault` takes the record, every other element keeps its value (R180, R253, R257). -/
def raiseFault (s : State) (f : Fault) : State := { s with fault := some f }

/-- The record of an InvalidOpcode raised in the tick that follows state `s` (R252, R253). -/
def invalidOpcodeFault (s : State) : Fault := .invalidOpcode (s.cycle + 1) s.ifid.pc s.ifid.instr

/-- The record of a MemoryOutOfBounds raised in the tick that follows state `s` (R253, R254). -/
def memoryOutOfBoundsFault (s : State) : Fault := .memoryOutOfBounds (s.cycle + 1) s.exmem.aluResult

/-- The run control's step at the safety limit: no tick, only the record (R237, R259). -/
def limitReached (s : State) : State := raiseFault s (.safetyLimitReached s.cycle)

/-! ### The architectural state (R14) -/

/-- `x[r]`. -/
def ArchState.reg (a : ArchState) (r : RegIdx) : Word := readReg a.x r

/-- `x[r] <- v`. -/
def ArchState.setReg (a : ArchState) (r : RegIdx) (v : Word) : ArchState := { a with x := writeReg a.x r v }

/-- `pc <- t`. -/
def ArchState.goto (a : ArchState) (t : Word) : ArchState := { a with pc := t }

/-- `pc <- pc + 4` (R24). -/
def ArchState.advance (a : ArchState) : ArchState := a.goto (nextPc a.pc)

/-! ### Placing an instruction -/

/-- Instruction memory grown, where it is shorter, to hold the word at `a`. -/
def Memory.holding (m : Memory) (a : Word) : Memory := { m with size := max m.size (a.toNat + 4) }

/-- The state in which the word `w`, loaded at `pc`, has just been fetched: it stands in instruction memory at `pc` and in
IF/ID, `pc` is past it, and the run control lets a tick happen (log 5). The tick that follows decodes and runs it. -/
def placeInstruction (s : State) (w : Word) : State :=
  { s with
    imem := (s.imem.holding s.pc).setWordAt s.pc.toNat w
    ifid := { nop := false, pc := s.pc, instr := w }
    pc := nextPc s.pc
    ifNop := false
    cycle := if s.cycle = Config.maxCycles then 0 else s.cycle
    halted := false
    fault := none }

end Sys2Proof.Machine
end

