-- ==== Sys2Proof/Machine/Operands.lean ====
section
/-! DEFINITION. Where an operand comes from (46_forwarding_hazards.md): the match predicate (R191), the EX forwarding network
(R192 to R195), the write-back bypass (R197), the ID forwarding network (R198 to R203), the load-use detector (R204, R205),
and the operands and result of the instruction in EX (R168, R169). All of them read the pre-tick snapshot only. -/

namespace Sys2Proof.Machine

/-- The two values that flow between stages inside a tick (R161): what EX and MEM compute in it. -/
structure Wires where
  exResult : Word
  memResult : Word
deriving DecidableEq, Repr

/-! ### The match predicate (R191) -/

/-- `Match(cur.ID/EX, r)`. -/
def IdEx.supplies (l : IdEx) (r : RegIdx) : Bool := !l.nop && l.writesReg && l.rd == r && r != 0#5

/-- `Match(cur.EX/MEM, r)`. -/
def ExMem.supplies (l : ExMem) (r : RegIdx) : Bool := !l.nop && l.writesReg && l.rd == r && r != 0#5

/-- `Match(cur.MEM/WB, r)`. -/
def MemWb.supplies (l : MemWb) (r : RegIdx) : Bool := !l.nop && l.writesReg && l.rd == r && r != 0#5

/-! ### The networks -/

/-- `FwdEX(r, latched)` (R195): EX/MEM unless it is an unfinished load (R192, R196), then MEM/WB (R193), then the latched value
(R194). -/
def fwdEx (s : State) (r : RegIdx) (latched : Word) : Word :=
  if s.exmem.supplies r && !s.exmem.isLoad then s.exmem.aluResult
  else if s.memwb.supplies r then s.memwb.wrtData
  else latched

/-- `RegRead(r)` (R197): the register read of ID with the write-back bypass. -/
def regRead (s : State) (r : RegIdx) : Word :=
  if s.memwb.supplies r then s.memwb.wrtData else readReg s.x r

/-- `FwdID(r)` (R203): EX-to-ID (R199), MEM-to-ID (R200), WB-to-ID (R201), register file (R202). -/
def fwdId (s : State) (w : Wires) (r : RegIdx) : Word :=
  if s.idex.supplies r && !s.idex.isLoad then w.exResult
  else if s.exmem.supplies r then w.memResult
  else if s.memwb.supplies r then s.memwb.wrtData
  else readReg s.x r

/-! ### Load-use detection (R204, R205) -/

/-- `LoadUse(d)`: the instruction in EX is a load of a register other than 0 that the instruction in ID really reads. -/
def loadUse (s : State) (d : Decoded) : Bool :=
  !s.idex.nop && s.idex.isLoad && s.idex.rd != 0#5 &&
    ((d.cls.readsRs1 && d.rs1 == s.idex.rd) || (d.cls.readsRs2 && d.rs2 == s.idex.rd))

/-! ### The instruction in EX (R168, R169) -/

/-- The operand `a` of R168. -/
def exOperandA (s : State) : Word :=
  if s.idex.cls.readsRs1 then fwdEx s s.idex.rs1 s.idex.rs1Val else 0#32

/-- The operand `b` of R168. -/
def exOperandB (s : State) : Word :=
  if s.idex.cls.readsRs2 then fwdEx s s.idex.rs2 s.idex.rs2Val else 0#32

/-- `ex_result` (R169), by the class in `cur.ID/EX`. A HALT never stands there (R152); its result is fixed to 0 like a
BRANCH's (log 10). -/
def exResult (s : State) : Word :=
  match s.idex.cls with
  | .rArith => alu s.idex.aluOp (exOperandA s) (exOperandB s)
  | .iArith => alu s.idex.aluOp (exOperandA s) s.idex.imm
  | .load => exOperandA s + s.idex.imm
  | .store => exOperandA s + s.idex.imm
  | .jal => nextPc s.idex.pc
  | .branch => 0#32
  | .halt => 0#32

/-- The word a STORE will write, the forwarded `rs2` value (R170, R211); 0 for every other class. -/
def exStoreData (s : State) : Word :=
  match s.idex.cls with
  | .store => exOperandB s
  | .rArith => 0#32
  | .iArith => 0#32
  | .load => 0#32
  | .branch => 0#32
  | .jal => 0#32
  | .halt => 0#32

/-! ### Architectural operands -/

/-- The effective address of LW and SW, `x[rs1] + imm` modulo 2^32 (R130). -/
def effectiveAddress (a : ArchState) (rs1 : RegIdx) (imm : BitVec 12) : Word := a.reg rs1 + sext imm

/-- The target of a branch or JAL, modulo 2^32 (R140): its own address plus the byte offset. -/
def transferTarget {n : Nat} (pc : Word) (off : BitVec n) : Word := pc + sext off

end Sys2Proof.Machine
end

