-- ==== Sys2Proof/Machine/Pipeline.lean ====
section
/-! DEFINITION. The five stages and the tick (45_pipeline_stages.md, 47_flush_halt_drain.md). Each stage is a function of the
pre-tick snapshot and of the wires of R161; `commit` replaces all state together (R178). `tick` is the whole tick, given what
ID drives in it; the instruction meanings of the family files supply that. -/

namespace Sys2Proof.Machine

/-! ### WB (R162 to R164) -/

/-- The register file after the tick (R163): the only register write there is. -/
def wbRegs (s : State) : Vector Word 32 :=
  if !s.memwb.nop && s.memwb.writesReg then writeReg s.x s.memwb.rd s.memwb.wrtData else s.x

/-- `retired` after the tick (R164): every non-bubble counts, whatever it writes. -/
def wbRetired (s : State) : Nat := if s.memwb.nop then s.retired else s.retired + 1

/-! ### MEM (R165 to R167) -/

/-- What MEM computes: the wire `mem_result` and data memory after the tick. -/
structure MemOut where
  result : Word
  dmem : Memory
deriving DecidableEq, Repr

/-- The access (R166); none when it raises MemoryOutOfBounds. A bubble accesses nothing (R179); its wire is 0, which nothing
reads (log 10). -/
def memStage (s : State) : Option MemOut :=
  if s.exmem.nop then some { result := 0#32, dmem := s.dmem }
  else if s.exmem.isLoad then
    match s.dmem.readWord s.exmem.aluResult with
    | some v => some { result := v, dmem := s.dmem }
    | none => none
  else if s.exmem.isStore then
    match s.dmem.writeWord s.exmem.aluResult s.exmem.storeData with
    | some m => some { result := s.exmem.aluResult, dmem := m }
    | none => none
  else some { result := s.exmem.aluResult, dmem := s.dmem }

/-- `next.MEM/WB` (R167). -/
def memLatch (s : State) (result : Word) : MemWb :=
  if s.exmem.nop then MemWb.bubble
  else { nop := false, wrtData := result, rd := s.exmem.rd, writesReg := s.exmem.writesReg }

/-! ### EX (R168 to R170) -/

/-- `next.EX/MEM` (R170). -/
def exLatch (s : State) : ExMem :=
  if s.idex.nop then ExMem.bubble
  else { nop := false, aluResult := exResult s, storeData := exStoreData s, rd := s.idex.rd, isLoad := s.idex.isLoad,
         isStore := s.idex.isStore, writesReg := s.idex.writesReg }

/-! ### ID (R171 to R174, R221 to R225) -/

/-- What ID drives in a tick: `next.ID/EX`, the wire `stall`, and `redirect` with its `target` where it is 1. -/
structure IdOut where
  latch : IdEx
  stall : Bool
  redirect : Option Word
deriving DecidableEq, Repr

/-- `next.ID/EX` for the instruction with record `d` (R172, R173); its flags are those of its class (R102). -/
def idLatch (s : State) (d : Decoded) : IdEx :=
  { nop := false, pc := s.ifid.pc, cls := d.cls, aluOp := d.aluOp, rs1 := d.rs1, rs2 := d.rs2, rd := d.rd,
    rs1Val := regRead s d.rs1, rs2Val := regRead s d.rs2, imm := d.imm,
    isLoad := d.cls.isLoad, isStore := d.cls.isStore, writesReg := d.cls.writesReg, isJump := d.cls.isJump }

/-- ID with nothing to decode (R174), and with a word of class HALT (R152): a bubble and no other effect. -/
def idNothing : IdOut := { latch := IdEx.bubble, stall := false, redirect := none }

/-- ID held by a load-use hazard (R174, R206, R225): a bubble, `stall = 1`, no redirect. -/
def idHeld : IdOut := { latch := IdEx.bubble, stall := true, redirect := none }

/-- ID with the instruction of record `d`: held when it uses the load in EX (R204, R206), else latched (R173), with the
redirect its class resolves to (R221, R223). -/
def idIssue (s : State) (d : Decoded) (redirect : Option Word) : IdOut :=
  if loadUse s d then idHeld else { latch := idLatch s d, stall := false, redirect }

/-! ### IF (R175 to R177, R226 to R232) -/

/-- What IF produces: `next.IF/ID`, `next.pc`, `next.IF.nop`. -/
structure IfOut where
  ifid : IfId
  pc : Word
  ifNop : Bool
deriving DecidableEq, Repr

/-- IF stops (or stays stopped): a bubble, the pc holds, `IF.nop = 1` (R230, R231, R232). -/
def ifStop (s : State) : IfOut := { ifid := IfId.bubble, pc := s.pc, ifNop := true }

/-- IF with neither a stall nor a redirect: cases 3 to 6 of R226, in that order. -/
def ifFetch (s : State) : IfOut :=
  if s.ifNop then ifStop s
  else
    match s.imem.readWord s.pc with
    | none => ifStop s
    | some w =>
      if isHaltWord w then ifStop s
      else { ifid := { nop := false, pc := s.pc, instr := w }, pc := nextPc s.pc, ifNop := false }

/-- The IF priority (R226): stall, redirect, then `ifFetch`. A redirect overrides a stop of the same tick (R227). -/
def ifStage (s : State) (o : IdOut) : IfOut :=
  if o.stall then { ifid := s.ifid, pc := s.pc, ifNop := s.ifNop }
  else
    match o.redirect with
    | some target => { ifid := IfId.bubble, pc := target, ifNop := false }
    | none => ifFetch s

/-! ### Commit (R178, R235, R236) -/

/-- The end-of-run test on the pre-tick snapshot (R235). -/
def runDone (s : State) : Bool := s.ifNop && s.ifid.nop && s.idex.nop && s.exmem.nop && s.memwb.nop

/-- The post-tick state: every element takes its next value together (R178). -/
def commit (s : State) (m : MemOut) (o : IdOut) : State :=
  { x := wbRegs s
    pc := (ifStage s o).pc
    imem := s.imem
    dmem := m.dmem
    ifNop := (ifStage s o).ifNop
    ifid := (ifStage s o).ifid
    idex := o.latch
    exmem := exLatch s
    memwb := memLatch s m.result
    cycle := s.cycle + 1
    retired := wbRetired s
    halted := runDone s
    fault := s.fault }

/-! ### The tick -/

/-- One tick in which ID drives `id` (a function of the wires). When MEM raises, nothing commits and `fault` takes the record
(R180). -/
def tick (s : State) (id : Wires → IdOut) : Host.Outcome State Fault Refusal :=
  match memStage s with
  | none => .next (raiseFault s (memoryOutOfBoundsFault s))
  | some m => .next (commit s m (id { exResult := exResult s, memResult := m.result }))

/-- The tick in which ID holds a bubble (R174, R179). -/
def tickBubble (s : State) : Host.Outcome State Fault Refusal := tick s (fun _ => idNothing)

/-- The tick in which the word in ID does not decode: MEM's error if MEM raises too, else InvalidOpcode (R180, R252, R255). -/
def tickInvalid (s : State) : Host.Outcome State Fault Refusal :=
  match memStage s with
  | none => .next (raiseFault s (memoryOutOfBoundsFault s))
  | some _ => .next (raiseFault s (invalidOpcodeFault s))

/-- The tick with an instruction that transfers no control in ID. -/
def tickIssue (s : State) (d : Decoded) : Host.Outcome State Fault Refusal := tick s (fun _ => idIssue s d none)

/-- The tick with a conditional branch in ID: the comparison on the ID-forwarded values decides the redirect (R221). -/
def tickBranch (s : State) (d : Decoded) (taken : Word → Word → Bool) : Host.Outcome State Fault Refusal :=
  tick s (fun w => idIssue s d (if taken (fwdId s w d.rs1) (fwdId s w d.rs2) then some (s.ifid.pc + d.imm) else none))

/-- The tick with a JAL in ID: it redirects unconditionally (R223). -/
def tickJump (s : State) (d : Decoded) : Host.Outcome State Fault Refusal :=
  tick s (fun _ => idIssue s d (some (s.ifid.pc + d.imm)))

end Sys2Proof.Machine
end

