-- ==== Sys2Proof/Machine/BranchJump.lean ====
section
/-! DEFINITION. BEQ, BNE, JAL (43_branch_jump.md): `arch<Name>` as R14, R140 to R143 give it, `exec<Name>` the tick with the
instruction in ID, where it is resolved and the fetch behind it flushed (R221 to R225). -/

namespace Sys2Proof.Machine

/-- Common to BEQ and BNE: the target is relative to the branch's own address (R140); nothing but the pc changes. -/
def archBranch (rs1 rs2 : RegIdx) (off : BitVec 13) (taken : Word → Word → Bool) (a : ArchState) : ArchOutcome :=
  .next (if taken (a.reg rs1) (a.reg rs2) then a.goto (transferTarget a.pc off) else a.advance)

/-- BEQ (R141). -/
def archBeq (rs1 rs2 : RegIdx) (off : BitVec 13) (a : ArchState) : ArchOutcome :=
  archBranch rs1 rs2 off (fun p q => p == q) a

/-- The tick with BEQ in ID (R141, R221). -/
def execBeq (rs1 rs2 : RegIdx) (off : BitVec 13) (s : State) : Host.Outcome State Fault Refusal :=
  tickBranch s (Instr.beq rs1 rs2 off).decoded (fun p q => p == q)

/-- BNE (R142). -/
def archBne (rs1 rs2 : RegIdx) (off : BitVec 13) (a : ArchState) : ArchOutcome :=
  archBranch rs1 rs2 off (fun p q => p != q) a

/-- The tick with BNE in ID (R142, R221). -/
def execBne (rs1 rs2 : RegIdx) (off : BitVec 13) (s : State) : Host.Outcome State Fault Refusal :=
  tickBranch s (Instr.bne rs1 rs2 off).decoded (fun p q => p != q)

/-- JAL (R143): the return address `pc + 4` goes to `x[rd]`, the pc to the target; both from the JAL's own address. -/
def archJal (rd : RegIdx) (off : BitVec 21) (a : ArchState) : ArchOutcome :=
  .next ((a.setReg rd (nextPc a.pc)).goto (transferTarget a.pc off))

/-- The tick with JAL in ID (R143, R223). -/
def execJal (rd : RegIdx) (off : BitVec 21) (s : State) : Host.Outcome State Fault Refusal :=
  tickJump s (Instr.jal rd off).decoded

end Sys2Proof.Machine
end

