-- ==== Sys2Proof/Machine/Halt.lean ====
section
/-! DEFINITION. HALT (44_halt.md). The engine recognises it in IF, by its opcode, and it never enters a latch (R152, R230,
R234): that is `ifFetch`. What it would do in ID is a bubble and nothing else (R152): that is `execHalt`. -/

namespace Sys2Proof.Machine

/-- HALT (R150): the run ends cleanly; no register, no memory byte and not the pc changes. Bits 31:7 are ignored (R94). -/
def archHalt (_ignored : BitVec 25) (_a : ArchState) : ArchOutcome := .ended

/-- The tick with a word of class HALT in ID (R152). -/
def execHalt (_ignored : BitVec 25) (s : State) : Host.Outcome State Fault Refusal := tick s (fun _ => idNothing)

end Sys2Proof.Machine
end

