-- ==== Sys2Proof/Machine/IArith.lean ====
section
/-! DEFINITION. Register-immediate arithmetic (41_i_arith.md): `arch<Name>` as R14, R120 give it, `exec<Name>` the tick with the
instruction in ID. The immediate is sign-extended for the logical operations too (R120). -/

namespace Sys2Proof.Machine

/-- Common to the class (R120). -/
def archIArith (rd rs1 : RegIdx) (imm : BitVec 12) (op : Word → Word → Word) (a : ArchState) : ArchOutcome :=
  .next (a.setReg rd (op (a.reg rs1) (sext imm))).advance

/-- ADDI (R121): `x[rd] <- x[rs1] + imm`; `pc <- pc + 4`. -/
def archAddi (rd rs1 : RegIdx) (imm : BitVec 12) (a : ArchState) : ArchOutcome := archIArith rd rs1 imm (fun p q => p + q) a

/-- The tick with ADDI in ID (R120, R121). -/
def execAddi (rd rs1 : RegIdx) (imm : BitVec 12) (s : State) : Host.Outcome State Fault Refusal :=
  tickIssue s (Instr.addi rd rs1 imm).decoded

/-- XORI (R122): `x[rd] <- x[rs1] XOR imm`; `pc <- pc + 4`. -/
def archXori (rd rs1 : RegIdx) (imm : BitVec 12) (a : ArchState) : ArchOutcome := archIArith rd rs1 imm (fun p q => p ^^^ q) a

/-- The tick with XORI in ID (R120, R122). -/
def execXori (rd rs1 : RegIdx) (imm : BitVec 12) (s : State) : Host.Outcome State Fault Refusal :=
  tickIssue s (Instr.xori rd rs1 imm).decoded

/-- ORI (R123): `x[rd] <- x[rs1] OR imm`; `pc <- pc + 4`. -/
def archOri (rd rs1 : RegIdx) (imm : BitVec 12) (a : ArchState) : ArchOutcome := archIArith rd rs1 imm (fun p q => p ||| q) a

/-- The tick with ORI in ID (R120, R123). -/
def execOri (rd rs1 : RegIdx) (imm : BitVec 12) (s : State) : Host.Outcome State Fault Refusal :=
  tickIssue s (Instr.ori rd rs1 imm).decoded

/-- ANDI (R124): `x[rd] <- x[rs1] AND imm`; `pc <- pc + 4`. -/
def archAndi (rd rs1 : RegIdx) (imm : BitVec 12) (a : ArchState) : ArchOutcome := archIArith rd rs1 imm (fun p q => p &&& q) a

/-- The tick with ANDI in ID (R120, R124). -/
def execAndi (rd rs1 : RegIdx) (imm : BitVec 12) (s : State) : Host.Outcome State Fault Refusal :=
  tickIssue s (Instr.andi rd rs1 imm).decoded

end Sys2Proof.Machine
end

