-- ==== Sys2Proof/Machine/LoadStore.lean ====
section
/-! DEFINITION. LW and SW (42_load_store.md): `arch<Name>` as R14, R130 to R132 give it, `exec<Name>` the tick with the
instruction in ID; its data access is `memStage`, two ticks later. -/

namespace Sys2Proof.Machine

/-- LW (R131): the big-endian word at `x[rs1] + imm` goes to `x[rd]`; the access is made even when `rd` is 0. -/
def archLw (rd rs1 : RegIdx) (imm : BitVec 12) (a : ArchState) : ArchOutcome :=
  match a.dmem.readWord (effectiveAddress a rs1 imm) with
  | some v => .next (a.setReg rd v).advance
  | none => .memoryOutOfBounds (effectiveAddress a rs1 imm)

/-- The tick with LW in ID (R131). -/
def execLw (rd rs1 : RegIdx) (imm : BitVec 12) (s : State) : Host.Outcome State Fault Refusal :=
  tickIssue s (Instr.lw rd rs1 imm).decoded

/-- SW (R132): `x[rs2]` goes big-endian to the four bytes at `x[rs1] + imm`; no register is written. -/
def archSw (rs2 rs1 : RegIdx) (imm : BitVec 12) (a : ArchState) : ArchOutcome :=
  match a.dmem.writeWord (effectiveAddress a rs1 imm) (a.reg rs2) with
  | some m => .next { a with dmem := m }.advance
  | none => .memoryOutOfBounds (effectiveAddress a rs1 imm)

/-- The tick with SW in ID (R132). -/
def execSw (rs2 rs1 : RegIdx) (imm : BitVec 12) (s : State) : Host.Outcome State Fault Refusal :=
  tickIssue s (Instr.sw rs2 rs1 imm).decoded

end Sys2Proof.Machine
end

