-- ==== Sys2Proof/Machine/RArith.lean ====
section
/-! DEFINITION. Register-register arithmetic (40_r_arith.md). For each instruction: `arch<Name>`, the architectural effect its
rule gives it in the form of R14, and `exec<Name>`, the tick in which it is in ID (R110, R171 to R173): it is decoded, reads its
registers, is held one tick if it uses the load in EX, and else enters ID/EX, from where `exResult`, `memLatch` and `wbRegs`
carry its result to the register file three ticks on. -/

namespace Sys2Proof.Machine

/-- Common to the class (R110): both sources are read before the destination is written; a write to register 0 is discarded. -/
def archRArith (rd rs1 rs2 : RegIdx) (op : Word → Word → Word) (a : ArchState) : ArchOutcome :=
  .next (a.setReg rd (op (a.reg rs1) (a.reg rs2))).advance

/-- ADD (R111): `x[rd] <- x[rs1] + x[rs2]`; `pc <- pc + 4`. -/
def archAdd (rd rs1 rs2 : RegIdx) (a : ArchState) : ArchOutcome := archRArith rd rs1 rs2 (fun p q => p + q) a

/-- The tick with ADD in ID (R110, R111). -/
def execAdd (rd rs1 rs2 : RegIdx) (s : State) : Host.Outcome State Fault Refusal :=
  tickIssue s (Instr.add rd rs1 rs2).decoded

/-- SUB (R112): `x[rd] <- x[rs1] - x[rs2]`, the minuend being `rs1`; `pc <- pc + 4`. -/
def archSub (rd rs1 rs2 : RegIdx) (a : ArchState) : ArchOutcome := archRArith rd rs1 rs2 (fun p q => p - q) a

/-- The tick with SUB in ID (R110, R112). -/
def execSub (rd rs1 rs2 : RegIdx) (s : State) : Host.Outcome State Fault Refusal :=
  tickIssue s (Instr.sub rd rs1 rs2).decoded

/-- XOR (R113): `x[rd] <- x[rs1] XOR x[rs2]`; `pc <- pc + 4`. -/
def archXor (rd rs1 rs2 : RegIdx) (a : ArchState) : ArchOutcome := archRArith rd rs1 rs2 (fun p q => p ^^^ q) a

/-- The tick with XOR in ID (R110, R113). -/
def execXor (rd rs1 rs2 : RegIdx) (s : State) : Host.Outcome State Fault Refusal :=
  tickIssue s (Instr.xor rd rs1 rs2).decoded

/-- OR (R114): `x[rd] <- x[rs1] OR x[rs2]`; `pc <- pc + 4`. -/
def archOr (rd rs1 rs2 : RegIdx) (a : ArchState) : ArchOutcome := archRArith rd rs1 rs2 (fun p q => p ||| q) a

/-- The tick with OR in ID (R110, R114). -/
def execOr (rd rs1 rs2 : RegIdx) (s : State) : Host.Outcome State Fault Refusal :=
  tickIssue s (Instr.or rd rs1 rs2).decoded

/-- AND (R115): `x[rd] <- x[rs1] AND x[rs2]`; `pc <- pc + 4`. -/
def archAnd (rd rs1 rs2 : RegIdx) (a : ArchState) : ArchOutcome := archRArith rd rs1 rs2 (fun p q => p &&& q) a

/-- The tick with AND in ID (R110, R115). -/
def execAnd (rd rs1 rs2 : RegIdx) (s : State) : Host.Outcome State Fault Refusal :=
  tickIssue s (Instr.and rd rs1 rs2).decoded

end Sys2Proof.Machine
end

