-- ==== Sys2Proof/Machine/RunControl.lean ====
section
/-! DEFINITION. The run control (R36, R237, R238): one turn of the loop `Run` of 45_pipeline_stages.md. -/

namespace Sys2Proof.Machine

/-- The tick by what is in ID: a bubble (R174), an instruction, whose meaning `exec` gives (R171), or an undecodable word
(R252). -/
def tickById (s : State) : Host.Outcome State Fault Refusal :=
  if s.ifid.nop then tickBubble s
  else
    match decodeWord s.ifid.instr with
    | .ok i => exec i s
    | .error _ => tickInvalid s

/-- One turn of `Run`. A state with an error is terminal and answers it (R251); a state with `halted` keeps its value (R238); at
the safety limit only the record is set (R237); else one tick. -/
def turn (s : State) : Host.Outcome State Fault Refusal :=
  match s.fault with
  | some f => .fault f
  | none =>
    if s.halted then .next s
    else if s.cycle = Config.maxCycles then .next (limitReached s)
    else tickById s

end Sys2Proof.Machine
end

