-- ==== Sys2Proof/Machine/Step.lean ====
section
/-! DEFINITION. One step of the machine, and the placing of a table word where the next step runs it. -/

namespace Sys2Proof.Machine

/-- One step is one turn of the run loop, which is one tick unless the run has ended or is at the safety limit (R36, R178, R237,
R238, log 6). -/
def step (s : State) : Host.Outcome State Fault Refusal := turn s

/-- The state in which the table's word has just been fetched, so that the next step decodes and runs it (log 5). -/
def State.withFetchWord (s : State) (nbits w : Nat) : State := placeInstruction s (tableWord nbits w)

end Sys2Proof.Machine
end

