-- ==== Sys2Proof/Machine/Arch.lean ====
section
/-! DEFINITION. The sequential machine (R14): the architectural step, runs of it, and the pipeline drained (R233), which is how
an engine state is compared with a sequential one (R15). -/

namespace Sys2Proof.Machine

/-- The instruction rules of files 40 to 44, by mnemonic. -/
def archExec (i : Instr) (a : ArchState) : ArchOutcome :=
  match i with
  | .add rd rs1 rs2 => archAdd rd rs1 rs2 a
  | .sub rd rs1 rs2 => archSub rd rs1 rs2 a
  | .xor rd rs1 rs2 => archXor rd rs1 rs2 a
  | .or rd rs1 rs2 => archOr rd rs1 rs2 a
  | .and rd rs1 rs2 => archAnd rd rs1 rs2 a
  | .addi rd rs1 imm => archAddi rd rs1 imm a
  | .xori rd rs1 imm => archXori rd rs1 imm a
  | .ori rd rs1 imm => archOri rd rs1 imm a
  | .andi rd rs1 imm => archAndi rd rs1 imm a
  | .lw rd rs1 imm => archLw rd rs1 imm a
  | .sw rs2 rs1 imm => archSw rs2 rs1 imm a
  | .beq rs1 rs2 off => archBeq rs1 rs2 off a
  | .bne rs1 rs2 off => archBne rs1 rs2 off a
  | .jal rd off => archJal rd off a
  | .halt ignored => archHalt ignored a

/-- `ArchStep` (R14): a pc out of instruction bounds ends the run cleanly (the spec's decision D33, log 26); a HALT word ends
it cleanly; a word that does not decode is an error; every other word performs its instruction rule. -/
def archStep (a : ArchState) : ArchOutcome :=
  match a.imem.readWord a.pc with
  | none => .ended
  | some w =>
    match decodeWord w with
    | .ok i => archExec i a
    | .error _ => .invalidOpcode a.pc w

/-- `n` architectural steps, each of which goes on; none if one of them ends the run or raises an error. -/
def archRun : Nat → ArchState → Option ArchState
  | 0, a => some a
  | n + 1, a =>
    match archStep a with
    | .next a' => archRun n a'
    | .ended => none
    | .invalidOpcode _ _ => none
    | .memoryOutOfBounds _ => none

/-- A sequential run that performs exactly `n` instructions and then ends cleanly, in `a` (R14, R15). -/
def archEndsAt (start : ArchState) (n : Nat) (a : ArchState) : Prop := archRun n start = some a ∧ archStep a = .ended

/-! ### The pipeline drained -/

/-- The engine state with the instruction in ID, if any, and the fetch behind it taken back: ID/EX, EX/MEM and MEM/WB stay in
flight, IF is stopped (R233). -/
def withFetchStopped (s : State) : State := { s with ifid := IfId.bubble, ifNop := true }

/-- The state after a tick in which ID holds a bubble; none when the tick raises. -/
def drainTick (s : State) : Option State :=
  match memStage s with
  | none => none
  | some m => some (commit s m idNothing)

/-- The address of the oldest instruction that has not left ID: the word in IF/ID, or the next to be fetched. -/
def resumePc (s : State) : Word := if s.ifid.nop then s.pc else s.ifid.pc

/-- The architectural state the engine stands for: the instructions in ID/EX, EX/MEM and MEM/WB completed by three ticks of
drain (R233), and the pc at the oldest instruction still in front of them. None if one of them raises MemoryOutOfBounds. -/
def drained (s : State) : Option ArchState :=
  match drainTick (withFetchStopped s) with
  | none => none
  | some s1 =>
    match drainTick s1 with
    | none => none
    | some s2 =>
      match drainTick s2 with
      | none => none
      | some s3 => some { x := s3.x, pc := resumePc s, imem := s3.imem, dmem := s3.dmem }

/-- The sequential step on a state that may already be lost to an error: the state after it, if it goes on. -/
def archNext (o : Option ArchState) : Option ArchState :=
  match o with
  | none => none
  | some a =>
    match archStep a with
    | .next a' => some a'
    | .ended => none
    | .invalidOpcode _ _ => none
    | .memoryOutOfBounds _ => none

end Sys2Proof.Machine
end

