-- ==== Sys2Proof/Machine/HostLoad.lean ====
section
/-! DEFINITION. The host's side of a run, as far as the spec gives it: the file format of the memories (R67, R68), the setup
errors (R250, R258), and the construction of the engine in its reset state (R280, R283). -/

namespace Sys2Proof.Machine

/-- A line of a memory file: its characters. -/
abbrev FileLine := List Char

/-- The bits of a line, the first character the most significant; none if a character is not a binary digit. PRESUMED as R67
presumes it (log 25): which end of the string is the high bit is general knowledge. -/
def lineValue : FileLine → Nat → Option Nat
  | [], acc => some acc
  | '0' :: rest, acc => lineValue rest (2 * acc)
  | '1' :: rest, acc => lineValue rest (2 * acc + 1)
  | _ :: _, _ => none

/-- One byte from a line of exactly eight binary digits (R67). -/
def byteOfLine (l : FileLine) : Option Byte :=
  if l.length = 8 then (lineValue l 0).map (BitVec.ofNat 8) else none

/-- All bytes of a file, line `k` being byte `k` (R67); none if a line is malformed. -/
def bytesOfLines : List FileLine → Option (List Byte)
  | [] => some []
  | l :: rest =>
    match byteOfLine l, bytesOfLines rest with
    | some b, some bs => some (b :: bs)
    | _, _ => none

/-- The cells of a byte array whose first byte is at address `a`. -/
def cellsFrom : Nat → List Byte → List Host.Cell
  | _, [] => []
  | a, b :: bs => if b = Config.unlistedByte then cellsFrom (a + 1) bs else (a, b) :: cellsFrom (a + 1) bs

/-- A memory whose contents are a byte array (R51): its size is the array's length. -/
def Memory.ofBytes (bs : List Byte) : Memory := { size := bs.length, cells := cellsFrom 0 bs }

/-- The instruction memory that holds exactly the given words, most significant byte first (R54, R80). -/
def Memory.ofWords (ws : List Word) : Memory := Memory.ofBytes (ws.flatMap bytesOfWord)

/-- The construction of the engine over two byte arrays (R280); a size over 2^31 is refused (U5). -/
def loadEngine (imem dmem : List Byte) : Host.Outcome State SetupError Refusal :=
  if imem.length ≤ Config.memSizeLimit ∧ dmem.length ≤ Config.memSizeLimit then
    .next (State.resetWith (Memory.ofBytes imem) (Memory.ofBytes dmem))
  else .refused .memorySizeOverLimit

/-- The host's setup (R258, R283): `none` is an absent input directory, else the lines of `imem.txt` and `dmem.txt`. -/
def hostLoad (dir : Option (List FileLine × List FileLine)) : Host.Outcome State SetupError Refusal :=
  match dir with
  | none => .fault .ioDirectoryMissing
  | some (imemFile, dmemFile) =>
    match bytesOfLines imemFile, bytesOfLines dmemFile with
    | some imem, some dmem => loadEngine imem dmem
    | _, _ => .fault .malformedMemoryFile

/-- The line of a byte (R67, R68): eight binary digits, the most significant first. -/
def lineOfByte (b : Byte) : FileLine :=
  (List.range 8).map (fun k => if b.getLsbD (7 - k) then '1' else '0')

/-- A memory in the file's form, as the host rewrites data memory at the end of a run (R68). -/
def memoryLines (m : Memory) : List FileLine := (List.range m.size).map (fun a => lineOfByte (m.byteAt a))

end Sys2Proof.Machine
end

