-- ==== Sys2Proof/WellFormed.lean ====
section
/-! DEFINITION. Which instruction terms stand for an instruction word: the byte offsets of the B and J formats are even
(R85, R86). Every other term is the instruction of some word. -/

namespace Sys2Proof

/-- A B immediate is a multiple of two (R85). -/
def evenB (off : BitVec 13) : Bool := !off.getLsbD 0

/-- A J immediate is a multiple of two (R86). -/
def evenJ (off : BitVec 21) : Bool := !off.getLsbD 0

/-- The instruction has an encoding (R82 to R94). -/
def Instr.wf : Instr → Bool
  | .add _ _ _ => true
  | .sub _ _ _ => true
  | .xor _ _ _ => true
  | .or _ _ _ => true
  | .and _ _ _ => true
  | .addi _ _ _ => true
  | .xori _ _ _ => true
  | .ori _ _ _ => true
  | .andi _ _ _ => true
  | .lw _ _ _ => true
  | .sw _ _ _ => true
  | .beq _ _ off => evenB off
  | .bne _ _ off => evenB off
  | .jal _ off => evenJ off
  | .halt _ => true

end Sys2Proof
end

