-- ==== Sys2Proof/Safety.lean ====
section
/-! DEFINITION. The terms the claims about the machine are made in: when a tick takes place, the invariant of the pipeline
(R29, R31, R38, R239), where fetching stops, an instruction alone in the pipe, runs, and the tally of stalls and redirects
that the cycle formula counts (R290). -/

namespace Sys2Proof.Machine

/-- The run control lets a tick happen (R36, R237, R238). -/
abbrev Running (s : State) : Prop := s.fault = none ∧ s.halted = false ∧ s.cycle ≠ Config.maxCycles

/-- MEM raises in the tick that follows: a LW or SW stands in EX/MEM with an address out of bounds (R55, R254). -/
abbrev MemRaises (s : State) : Prop :=
  s.exmem.nop = false ∧ (s.exmem.isLoad = true ∨ s.exmem.isStore = true) ∧ ¬ s.exmem.aluResult.toNat + 3 < s.dmem.size

/-- ID raises in the tick that follows, unless MEM does: the word in IF/ID does not decode (R252). -/
abbrev IdRaises (s : State) : Prop :=
  s.ifid.nop = false ∧ decodeWord s.ifid.instr = .error (.invalidOpcode s.ifid.instr)

/-- The step that follows is a tick that commits (R178). -/
abbrev Commits (s : State) : Prop := Running s ∧ ¬ MemRaises s ∧ ¬ IdRaises s

/-- The load-use condition (R204), for the instruction with record `d` in ID. -/
abbrev LoadUseHazard (s : State) (d : Decoded) : Prop :=
  s.idex.nop = false ∧ s.idex.isLoad = true ∧ s.idex.rd ≠ 0#5 ∧
  (d.cls.readsRs1 = true ∧ d.rs1 = s.idex.rd ∨ d.cls.readsRs2 = true ∧ d.rs2 = s.idex.rd)

/-- IF stops when it reaches this address: it is out of instruction bounds (R231) or holds a HALT (R230). -/
def fetchStopsAt (m : Memory) (a : Word) : Bool :=
  match m.readWord a with
  | none => true
  | some w => isHaltWord w

/-! ### The invariant, part by part -/

/-- Register-file cell 0 holds 0 (R21, R38 item 1). -/
abbrev ZeroCell (s : State) : Prop := s.x[0] = 0#32

/-- Both memories are in canonical form. -/
abbrev MemoriesWf (s : State) : Prop := s.imem.wf ∧ s.dmem.wf

/-- When IF has stopped, ID holds a bubble (R38 item 2). -/
abbrev StoppedIsEmpty (s : State) : Prop := s.ifNop = true → s.ifid.nop = true

/-- A stop that survived its tick was at a HALT or out of bounds, and the pc stays there (R230 to R232). -/
abbrev StopHasReason (s : State) : Prop := s.ifNop = true → fetchStopsAt s.imem s.pc = true

/-- The payload of a bubble is zero (R29). -/
abbrev BubblesBlank (s : State) : Prop :=
  (s.ifid.nop = true → s.ifid = IfId.bubble) ∧ (s.idex.nop = true → s.idex = IdEx.bubble) ∧
  (s.exmem.nop = true → s.exmem = ExMem.bubble) ∧ (s.memwb.nop = true → s.memwb = MemWb.bubble)

/-- The word in ID was fetched from its address, is no HALT, and the pc is past it (R177, R234). -/
abbrev FetchedWord (s : State) : Prop :=
  s.ifid.nop = false →
    s.imem.readWord s.ifid.pc = some s.ifid.instr ∧ isHaltWord s.ifid.instr = false ∧ s.pc = nextPc s.ifid.pc

/-- The flags in ID/EX are those of its class, which is not HALT (R31, R38 item 3). -/
abbrev IdExFlags (s : State) : Prop :=
  s.idex.nop = false →
    s.idex.cls ≠ .halt ∧ s.idex.isLoad = s.idex.cls.isLoad ∧ s.idex.isStore = s.idex.cls.isStore ∧
    s.idex.writesReg = s.idex.cls.writesReg ∧ s.idex.isJump = s.idex.cls.isJump

/-- The flags in EX/MEM fit together (R38 items 3 and 4). -/
abbrev ExMemFlags (s : State) : Prop :=
  s.exmem.nop = false →
    (s.exmem.isLoad = true → s.exmem.isStore = false ∧ s.exmem.writesReg = true) ∧
    (s.exmem.isStore = true → s.exmem.isLoad = false ∧ s.exmem.writesReg = false)

/-- What ID latched is what the register file holds now (R172, R197: the bypass makes it so). -/
abbrev LatchedOperands (s : State) : Prop :=
  s.idex.nop = false → s.idex.rs1Val = readReg s.x s.idex.rs1 ∧ s.idex.rs2Val = readReg s.x s.idex.rs2

/-- The instruction in EX reads no register that a load in MEM is about to write (R196: the stall has seen to it). -/
abbrev NoUnfinishedLoad (s : State) : Prop :=
  s.idex.nop = false → s.exmem.nop = false → s.exmem.isLoad = true → s.exmem.rd ≠ 0#5 →
    (s.idex.cls.readsRs1 = true → s.idex.rs1 ≠ s.exmem.rd) ∧ (s.idex.cls.readsRs2 = true → s.idex.rs2 ≠ s.exmem.rd)

/-- At most one retirement a tick, at most MAX_CYCLES ticks (R38 item 6, R237). -/
abbrev CountersBounded (s : State) : Prop := s.retired ≤ s.cycle ∧ s.cycle ≤ Config.maxCycles

/-- A run that has ended cleanly has an empty pipe and a stopped IF (R235, R236). -/
abbrev HaltedIsEmpty (s : State) : Prop := s.halted = true → runDone s = true

/-- The invariant of the pipeline: it holds after reset and every step keeps it (R38). -/
structure PipeInv (s : State) : Prop where
  zeroCell : ZeroCell s
  memoriesWf : MemoriesWf s
  stoppedIsEmpty : StoppedIsEmpty s
  stopHasReason : StopHasReason s
  bubblesBlank : BubblesBlank s
  fetchedWord : FetchedWord s
  idExFlags : IdExFlags s
  exMemFlags : ExMemFlags s
  latchedOperands : LatchedOperands s
  noUnfinishedLoad : NoUnfinishedLoad s
  countersBounded : CountersBounded s
  haltedIsEmpty : HaltedIsEmpty s

/-! ### Situations the claims speak of -/

/-- In this tick ID sends its instruction on to ID/EX: there is one, it decodes, and no load-use hazard holds it. -/
def issues (s : State) : Bool :=
  !s.ifid.nop &&
    match decodeWord s.ifid.instr with
    | .ok i => !loadUse s i.decoded
    | .error _ => false

/-- The instruction in ID is alone in the pipe and the run control allows the four ticks it needs. -/
abbrev AloneInId (s : State) : Prop :=
  s.fault = none ∧ s.halted = false ∧ s.cycle + 4 ≤ Config.maxCycles ∧ s.ifid.nop = false ∧ s.ifNop = false ∧
  s.idex.nop = true ∧ s.exmem.nop = true ∧ s.memwb.nop = true

/-- The architectural state that the instruction in ID starts from when it is alone in the pipe. -/
def archOfAlone (s : State) : ArchState := { x := s.x, pc := s.ifid.pc, imem := s.imem, dmem := s.dmem }

/-- An empty pipe that goes on fetching. -/
abbrev EmptyAndFetching (s : State) : Prop :=
  s.ifNop = false ∧ s.ifid.nop = true ∧ s.idex.nop = true ∧ s.exmem.nop = true ∧ s.memwb.nop = true

/-- The state four ticks after one in which a lone instruction was in ID and behind which fetching stopped: the given registers,
data memory and pc, one more instruction retired, an empty pipe, and everything else as it was. -/
def flown (s : State) (x : Vector Word 32) (dmem : Memory) (pc : Word) : State :=
  { s with
    x, dmem, pc
    ifNop := true
    ifid := IfId.bubble
    idex := IdEx.bubble
    exmem := ExMem.bubble
    memwb := MemWb.bubble
    cycle := s.cycle + 4
    retired := s.retired + 1 }

/-- The state with every bubble's payload cleared: what of a latch with `nop = 1` any rule may read (R29). -/
def clearBubbles (s : State) : State :=
  { s with
    ifid := if s.ifid.nop then IfId.bubble else s.ifid
    idex := if s.idex.nop then IdEx.bubble else s.idex
    exmem := if s.exmem.nop then ExMem.bubble else s.exmem
    memwb := if s.memwb.nop then MemWb.bubble else s.memwb }

/-- The same on an outcome of a step. -/
def clearBubblesOf : Host.Outcome State Fault Refusal → Host.Outcome State Fault Refusal
  | .next s => .next (clearBubbles s)
  | .fault f => .fault f
  | .refused r => .refused r

/-- `k` steps of the machine. -/
def runSteps (k : Nat) (s : State) : Host.Outcome State Fault Refusal := Sys2Proof.core.run k s

/-- The byte at `j` after the word `v` is written at `a`: the word's own byte where `j` is one of its four addresses, most
significant first, else the old one (R53). -/
def byteAfterWrite (m : Memory) (a v : Word) (j : Nat) : Byte :=
  if a.toNat ≤ j ∧ j < a.toNat + 4 then byteOfWord v (j - a.toNat) else m.byteAt j

/-! ### The tally of a run (R290) -/

/-- The counts of the cycle formula: `S`, the load-use stalls; the taken branches and JALs; and whether the last instruction
that left ID was one (its own redirect is not counted in `T`). -/
structure Tally where
  stalls : Nat
  redirects : Nat
  lastRedirected : Bool
deriving DecidableEq, Repr

/-- A step from `s` to `t` was a stall: ID held an instruction and sent a bubble on. -/
def wasStall (s t : State) : Bool := !s.ifid.nop && t.idex.nop

/-- A step to `t` was a redirect: IF put a bubble in IF/ID and goes on fetching. -/
def wasRedirect (t : State) : Bool := t.ifid.nop && !t.ifNop

/-- The tally after a step from `s` to `t`. -/
def Tally.after (c : Tally) (s t : State) : Tally :=
  { stalls := if wasStall s t then c.stalls + 1 else c.stalls
    redirects := if wasRedirect t then c.redirects + 1 else c.redirects
    lastRedirected := if !s.ifid.nop && !t.idex.nop then wasRedirect t else c.lastRedirected }

/-- `k` steps with their tally; none when one of them is no next state. -/
def tallyRun : Nat → State → Tally → Option (State × Tally)
  | 0, s, c => some (s, c)
  | k + 1, s, c =>
    match step s with
    | .next t => tallyRun k t (c.after s t)
    | .fault _ => none
    | .refused _ => none

/-- The tally at reset. -/
def Tally.zero : Tally := { stalls := 0, redirects := 0, lastRedirected := false }

/-- `T` of R290: the taken branches and JALs but for the last instruction's own. -/
def Tally.counted (c : Tally) : Nat := if c.lastRedirected then c.redirects - 1 else c.redirects

/-! ### The opcode table -/

/-- The match and mask of each row of spec/opcode_table.json (R88 to R94). -/
def tableRow : Mnemonic → Word × Word
  | .ADD => (0x00000033#32, 0xFE00707F#32)
  | .SUB => (0x40000033#32, 0xFE00707F#32)
  | .XOR => (0x00004033#32, 0xFE00707F#32)
  | .OR => (0x00006033#32, 0xFE00707F#32)
  | .AND => (0x00007033#32, 0xFE00707F#32)
  | .ADDI => (0x00000013#32, 0x0000707F#32)
  | .XORI => (0x00004013#32, 0x0000707F#32)
  | .ORI => (0x00006013#32, 0x0000707F#32)
  | .ANDI => (0x00007013#32, 0x0000707F#32)
  | .LW => (0x00002003#32, 0x0000707F#32)
  | .SW => (0x00002023#32, 0x0000707F#32)
  | .BEQ => (0x00000063#32, 0x0000707F#32)
  | .BNE => (0x00001063#32, 0x0000707F#32)
  | .JAL => (0x0000006F#32, 0x0000007F#32)
  | .HALT => (0x0000007F#32, 0x0000007F#32)

/-- A word is the row's instruction iff `w AND mask = match` (R82). -/
def matchesRow (w : Word) (m : Mnemonic) : Prop := w &&& (tableRow m).2 = (tableRow m).1

end Sys2Proof.Machine
end

