-- ==== Sys2Proof/Certificates/Slice0/Obligations.lean ====
section
/-! DEFINITION. The statements for the provers. Where a statement rests on a choice that the spec marks as its own decision, or on
a choice of this model, its docstring names the decision or the log entry, and its basis is 'derived'. -/

open Sys2Proof Sys2Proof.Machine

/-! ### Encoding -/

/-- Every well-formed instruction, with every operand at every value its encoding admits, is read back from its word, from the
word's four bytes in memory order, and from the word as the opcode table numbers it (R80 to R95). -/
def Obligations.EncodedInstructionDecodesToItself : Prop :=
  ∀ i : Instr, i.wf = true →
    decodeWord (encode i) = .ok i ∧ decodeBytes (bytesOfWord (encode i)) = .ok (i, []) ∧
    decodeTableWord 32 (encode i).toNat = some i

/-- A word that decodes is the encoding of the instruction it decodes to, and that instruction is well formed: no two words
share an instruction and no bit is lost (R82, R95; the ignored bits of HALT are kept, log 12). -/
def Obligations.DecodedInstructionEncodesToItsWord : Prop :=
  ∀ (w : Word) (i : Instr), decodeWord w = .ok i → i.wf = true ∧ encode i = w

/-- A word is the instruction of a row of the opcode table iff `w AND mask = match` (R82, R88 to R94). The masks rest on field
positions and the matches on funct values that the spec supplies from general knowledge of RV32I (G1 to G4; log 15, PRESUMED), the
refusal of the unlisted values on its decision D10, HALT's ignored bits on its decision D12 (log 12). -/
def Obligations.OpcodeTableRowsAreTheDecoder : Prop :=
  ∀ (w : Word) (m : Mnemonic), matchesRow w m ↔ ∃ d, decodeRecord w = .ok d ∧ d.mnemonic = m

/-- The words `Decode` refuses: an opcode not among the seven, or a funct combination not listed for its opcode (R87 to R92,
R97; the unlisted funct values rest on the spec's decision D10, the field positions and the funct values it supplies on G1 to G4,
log 15). Every other word decodes. -/
def Obligations.IllegalWordsAreExactlyTheUnlisted : Prop :=
  ∀ w : Word,
    (decodeWord w = .error (.invalidOpcode w) ↔
      (fieldOpcode w ∉ [0x33#7, 0x13#7, 0x03#7, 0x23#7, 0x63#7, 0x6F#7, 0x7F#7]) ∨
      (fieldOpcode w = 0x33#7 ∧ (fieldFunct3 w, fieldFunct7 w) ∉
        [(0x0#3, 0x00#7), (0x0#3, 0x20#7), (0x4#3, 0x00#7), (0x6#3, 0x00#7), (0x7#3, 0x00#7)]) ∨
      (fieldOpcode w = 0x13#7 ∧ fieldFunct3 w ∉ [0x0#3, 0x4#3, 0x6#3, 0x7#3]) ∨
      (fieldOpcode w = 0x03#7 ∧ fieldFunct3 w ≠ 0x2#3) ∨
      (fieldOpcode w = 0x23#7 ∧ fieldFunct3 w ≠ 0x2#3) ∨
      (fieldOpcode w = 0x63#7 ∧ fieldFunct3 w ∉ [0x0#3, 0x1#3])) ∧
    ((∃ i, decodeWord w = .ok i) ∨ decodeWord w = .error (.invalidOpcode w))

/-- The four immediates: which bits of the word they are made of, sign-extended, and their ranges (R83 to R86). -/
def Obligations.ImmediatesOfEachFormat : Prop :=
  ∀ (w : Word) (d : Decoded), decodeRecord w = .ok d →
    (d.cls = .iArith ∨ d.cls = .load →
      d.imm = (w.extractLsb' 20 12).signExtend 32 ∧ -2048 ≤ d.imm.toInt ∧ d.imm.toInt ≤ 2047) ∧
    (d.cls = .store →
      d.imm = (w.extractLsb' 25 7 ++ w.extractLsb' 7 5).signExtend 32 ∧ -2048 ≤ d.imm.toInt ∧ d.imm.toInt ≤ 2047) ∧
    (d.cls = .branch →
      d.imm = (w.extractLsb' 31 1 ++ w.extractLsb' 7 1 ++ w.extractLsb' 25 6 ++ w.extractLsb' 8 4 ++ 0#1).signExtend 32 ∧
      -4096 ≤ d.imm.toInt ∧ d.imm.toInt ≤ 4094 ∧ d.imm.toInt % 2 = 0) ∧
    (d.cls = .jal →
      d.imm = (w.extractLsb' 31 1 ++ w.extractLsb' 12 8 ++ w.extractLsb' 20 1 ++ w.extractLsb' 21 10 ++ 0#1).signExtend 32 ∧
      -1048576 ≤ d.imm.toInt ∧ d.imm.toInt ≤ 1048574 ∧ d.imm.toInt % 2 = 0)

/-- The record holds the five raw fields of the word beside its opcode whatever its class, the operation of its mnemonic, and no immediate for
R_ARITH and HALT (R81, R95, R102, R103; field positions: log 15, PRESUMED). That `alu_op` is ADD for BRANCH and JAL, a don't-care
of which the source says nothing, is R173 by the spec's decision D34 (log 10); that it is ADD for HALT is this model's DESIGN CHOICE
(log 11). -/
def Obligations.RecordHoldsTheWordsFields : Prop :=
  ∀ (w : Word) (d : Decoded), decodeRecord w = .ok d →
    d.rd = w.extractLsb' 7 5 ∧ d.funct3 = w.extractLsb' 12 3 ∧ d.rs1 = w.extractLsb' 15 5 ∧ d.rs2 = w.extractLsb' 20 5 ∧
    d.funct7 = w.extractLsb' 25 7 ∧
    (d.cls = .rArith ∨ d.cls = .halt → d.imm = 0#32) ∧
    (d.aluOp = .sub ↔ d.mnemonic = .SUB) ∧
    (d.aluOp = .xor ↔ d.mnemonic = .XOR ∨ d.mnemonic = .XORI) ∧
    (d.aluOp = .or ↔ d.mnemonic = .OR ∨ d.mnemonic = .ORI) ∧
    (d.aluOp = .and ↔ d.mnemonic = .AND ∨ d.mnemonic = .ANDI)

/-- Words the spec writes out in its examples (R111 to R143, R94), each with the instruction the spec says it is. The source gives
no word: the spec computes its examples from R81 to R86, so they inherit the field positions and funct values that it supplies
from general knowledge (G9, G1 to G4; log 15, PRESUMED). -/
def Obligations.SampleWordsDecode : Prop :=
  decodeWord 0x002081B3#32 = .ok (.add 3#5 1#5 2#5) ∧
  decodeWord 0x407302B3#32 = .ok (.sub 5#5 6#5 7#5) ∧
  decodeWord 0x00500093#32 = .ok (.addi 1#5 0#5 5#12) ∧
  decodeWord 0x80046393#32 = .ok (.ori 7#5 8#5 (BitVec.ofInt 12 (-2048))) ∧
  decodeBytes [0x00#8, 0x00#8, 0x20#8, 0x83#8] = .ok (.lw 1#5 0#5 0#12, []) ∧
  decodeWord 0x00202023#32 = .ok (.sw 2#5 0#5 0#12) ∧
  decodeWord 0x00000463#32 = .ok (.beq 0#5 0#5 8#13) ∧
  decodeWord 0xFE009CE3#32 = .ok (.bne 1#5 0#5 (BitVec.ofInt 13 (-8))) ∧
  decodeWord 0x00C000EF#32 = .ok (.jal 1#5 12#21) ∧
  decodeWord 0x0000007F#32 = .ok (.halt 0#25) ∧
  decodeWord 0x00000000#32 = .error (.invalidOpcode 0#32)

/-! ### The run loop and the step -/

/-- When the run control lets a tick happen and the word in ID decodes to `i`, the step is the meaning of `i`, and `i` is well
formed. What the step adds (the other four stages of the tick) is inside that meaning (log 8). -/
def Obligations.StepRunsDecodedInstruction : Prop :=
  ∀ (s : State) (i : Instr), Running s → s.ifid.nop = false → decodeWord s.ifid.instr = .ok i →
    step s = exec i s ∧ i.wf = true

/-- The bytes at the pc, fetched in one tick, are the instruction the next tick runs: when nothing stalls, redirects or stops
IF and the word at the pc decodes to `i`, which is no HALT, the step latches the word with its address and moves the pc past it,
and the step after it is the meaning of `i` (R176, R177, R171). -/
def Obligations.BytesAtThePcRunInTheNextStep : Prop :=
  ∀ (s : State) (w : Word) (i : Instr), Commits s → s.ifNop = false →
    (s.ifid.nop = true ∨
      ∃ d, decodeRecord s.ifid.instr = .ok d ∧ ¬ LoadUseHazard s d ∧ d.cls ≠ .branch ∧ d.cls ≠ .jal) →
    s.imem.readWord s.pc = some w → decodeWord w = .ok i → isHaltWord w = false →
    ∃ t, step s = .next t ∧ t.ifid = { nop := false, pc := s.pc, instr := w } ∧ t.pc = s.pc + 4#32 ∧ t.ifNop = false ∧
      (t.cycle ≠ Config.maxCycles → step t = exec i t)

/-- Placing a table word makes the very next step run it, from any state with memories in canonical form, and leaves registers
and data memory alone; instruction memory holds the word at the pc (the model's loading convention, log 5). -/
def Obligations.PlacedWordRunsInTheNextStep : Prop :=
  ∀ (s : State) (w : Word) (i : Instr), MemoriesWf s → decodeWord w = .ok i →
    step (s.withFetchWord 32 w.toNat) = exec i (s.withFetchWord 32 w.toNat) ∧
    (s.withFetchWord 32 w.toNat).imem.readWord s.pc = some w ∧
    (s.withFetchWord 32 w.toNat).ifid = { nop := false, pc := s.pc, instr := w } ∧
    (s.withFetchWord 32 w.toNat).x = s.x ∧ (s.withFetchWord 32 w.toNat).dmem = s.dmem

/-- What every step answers, and the closed list of errors: a tick that raises takes the record and changes nothing else; MEM's
error is the one reported when ID raises too; the safety limit is tested before the tick; nothing else ends in an error (R180,
R237, R250 to R257, R259). The record's fields, the order of the two errors and the limit's exact test are the spec's decisions
D24, D25, D35; the form of an error as a next state is this model's (log 7). -/
def Obligations.ErrorsAreExactlyTheClosedList : Prop :=
  ∀ s : State, s.fault = none →
    (s.halted = false → s.cycle = Config.maxCycles → step s = .next { s with fault := some (.safetyLimitReached 100000) }) ∧
    (Running s → MemRaises s →
      step s = .next { s with fault := some (.memoryOutOfBounds (s.cycle + 1) s.exmem.aluResult) }) ∧
    (Running s → ¬ MemRaises s → IdRaises s →
      step s = .next { s with fault := some (.invalidOpcode (s.cycle + 1) s.ifid.pc s.ifid.instr) }) ∧
    (Commits s → ∃ t, step s = .next t ∧ t.fault = none ∧ t.cycle = s.cycle + 1)

/-- After the end no tick happens, however often the host steps: a clean end keeps the whole state; an error is terminal and
every later step answers it (R236, R238, R251; how a terminal error is answered is this model's, log 6). -/
def Obligations.EndedRunStaysEnded : Prop :=
  ∀ (s : State) (k : Nat),
    (s.fault = none → s.halted = true → runSteps k s = .next s) ∧
    (∀ f, s.fault = some f → runSteps (k + 1) s = .fault f)

/-- Every instruction's meaning answers a next state in every state, and it is the committed tick exactly when MEM does not
raise; no step is ever refused, and a step faults only in a state that already holds the error (R161, R180, R250, R251). That an
error is answered as a next state holding its record is this model's DESIGN CHOICE (log 7), and so is that the step after it, and
no other, answers it as a fault (log 6); the record itself is the spec's decision D35. -/
def Obligations.EveryMeaningAnswersANextState : Prop :=
  (∀ (i : Instr) (s : State), ∃ t, exec i s = .next t ∧
    (MemRaises s → t = { s with fault := some (.memoryOutOfBounds (s.cycle + 1) s.exmem.aluResult) }) ∧
    (¬ MemRaises s → t.cycle = s.cycle + 1 ∧ t.fault = s.fault)) ∧
  (∀ (s : State) (r : Refusal), step s ≠ .refused r) ∧
  (∀ (s : State) (f : Fault), step s = .fault f ↔ s.fault = some f)

/-! ### The back half of every committed tick -/

/-- WB writes the destination named in MEM/WB when the latch is no bubble, its write-enable flag is set and the destination is
not 0; every other register keeps its value (R163). -/
def Obligations.WriteBackWritesTheDestination : Prop :=
  ∀ s : State, Commits s → ∃ t, step s = .next t ∧ ∀ r : RegIdx,
    readReg t.x r =
      if s.memwb.nop = false ∧ s.memwb.writesReg = true ∧ s.memwb.rd ≠ 0#5 ∧ r = s.memwb.rd then s.memwb.wrtData
      else readReg s.x r

/-- The counters: `cycle` counts the tick; `retired` counts a MEM/WB that is no bubble, whatever it writes (R34, R35, R164,
R178; that every non-bubble counts is the spec's decision D23). -/
def Obligations.CountersOfACommittedTick : Prop :=
  ∀ s : State, Commits s → ∃ t, step s = .next t ∧ t.cycle = s.cycle + 1 ∧
    t.retired = (if s.memwb.nop = true then s.retired else s.retired + 1)

/-- MEM: a load takes the big-endian word of the four bytes at its address to MEM/WB, a store changes exactly the four bytes at
its address (most significant first) and passes the address, anything else passes `ALUresult`; a bubble gives a bubble; no other
byte of data memory changes (R52, R53, R165 to R167, R179; a store's `Wrt_data` is the spec's decision D34). -/
def Obligations.MemoryStageOfACommittedTick : Prop :=
  ∀ s : State, Commits s → s.dmem.wf → ∃ t, step s = .next t ∧ t.dmem.size = s.dmem.size ∧
    (s.exmem.nop = true → t.memwb = MemWb.bubble ∧ t.dmem = s.dmem) ∧
    (s.exmem.nop = false →
      t.memwb.nop = false ∧ t.memwb.rd = s.exmem.rd ∧ t.memwb.writesReg = s.exmem.writesReg) ∧
    (s.exmem.nop = false → s.exmem.isLoad = true →
      t.dmem = s.dmem ∧
      t.memwb.wrtData = s.dmem.byteAt s.exmem.aluResult.toNat ++ s.dmem.byteAt (s.exmem.aluResult.toNat + 1) ++
        s.dmem.byteAt (s.exmem.aluResult.toNat + 2) ++ s.dmem.byteAt (s.exmem.aluResult.toNat + 3)) ∧
    (s.exmem.nop = false → s.exmem.isLoad = false → s.exmem.isStore = true →
      t.memwb.wrtData = s.exmem.aluResult ∧
      t.dmem.byteAt s.exmem.aluResult.toNat = s.exmem.storeData.extractLsb' 24 8 ∧
      t.dmem.byteAt (s.exmem.aluResult.toNat + 1) = s.exmem.storeData.extractLsb' 16 8 ∧
      t.dmem.byteAt (s.exmem.aluResult.toNat + 2) = s.exmem.storeData.extractLsb' 8 8 ∧
      t.dmem.byteAt (s.exmem.aluResult.toNat + 3) = s.exmem.storeData.extractLsb' 0 8 ∧
      ∀ a, a < s.exmem.aluResult.toNat ∨ s.exmem.aluResult.toNat + 4 ≤ a → t.dmem.byteAt a = s.dmem.byteAt a) ∧
    (s.exmem.nop = false → s.exmem.isLoad = false → s.exmem.isStore = false →
      t.memwb.wrtData = s.exmem.aluResult ∧ t.dmem = s.dmem)

/-- EX: the result of the instruction in ID/EX by its class, its forwarded store data, and the fields carried on; a bubble gives
a bubble (R168 to R170, R179, R211; BRANCH's 0 and the 0 store data are the spec's decision D34). -/
def Obligations.ExecuteStageOfACommittedTick : Prop :=
  ∀ s : State, Commits s → ∃ t, step s = .next t ∧
    (s.idex.nop = true → t.exmem = ExMem.bubble) ∧
    (s.idex.nop = false →
      t.exmem.nop = false ∧ t.exmem.rd = s.idex.rd ∧ t.exmem.isLoad = s.idex.isLoad ∧ t.exmem.isStore = s.idex.isStore ∧
      t.exmem.writesReg = s.idex.writesReg ∧
      t.exmem.storeData = (if s.idex.cls = .store then fwdEx s s.idex.rs2 s.idex.rs2Val else 0#32) ∧
      (s.idex.cls = .rArith → t.exmem.aluResult =
        alu s.idex.aluOp (fwdEx s s.idex.rs1 s.idex.rs1Val) (fwdEx s s.idex.rs2 s.idex.rs2Val)) ∧
      (s.idex.cls = .iArith → t.exmem.aluResult = alu s.idex.aluOp (fwdEx s s.idex.rs1 s.idex.rs1Val) s.idex.imm) ∧
      (s.idex.cls = .load ∨ s.idex.cls = .store →
        t.exmem.aluResult = fwdEx s s.idex.rs1 s.idex.rs1Val + s.idex.imm) ∧
      (s.idex.cls = .jal → t.exmem.aluResult = s.idex.pc + 4#32) ∧
      (s.idex.cls = .branch → t.exmem.aluResult = 0#32))

/-- No instruction can write instruction memory: no meaning, no step and no run changes it (R65, R285). -/
def Obligations.InstructionMemoryNeverChanges : Prop :=
  (∀ (i : Instr) (s t : State), exec i s = .next t → t.imem = s.imem) ∧
  (∀ (k : Nat) (s t : State), runSteps k s = .next t → t.imem = s.imem)

/-- The frame of every instruction's ID tick, all fifteen: the only register that can change is the destination of the
instruction then in WB, the only bytes of data memory that can change are the four of the store then in MEM, at the address MEM
uses; register cell 0, instruction memory, the memory sizes and the run status's error change in no committed tick (R163, R166,
R178, R181). -/
def Obligations.FrameOfEveryIdTick : Prop :=
  ∀ (i : Instr) (s t : State), s.dmem.wf → exec i s = .next t →
    (∀ r : RegIdx, ¬ (s.memwb.nop = false ∧ s.memwb.writesReg = true ∧ r = s.memwb.rd) → readReg t.x r = readReg s.x r) ∧
    t.x[0] = s.x[0] ∧
    (∀ a : Nat, ¬ (s.exmem.nop = false ∧ s.exmem.isLoad = false ∧ s.exmem.isStore = true ∧
        s.exmem.aluResult.toNat ≤ a ∧ a < s.exmem.aluResult.toNat + 4) → t.dmem.byteAt a = s.dmem.byteAt a) ∧
    t.dmem.size = s.dmem.size ∧ t.imem = s.imem ∧ (¬ MemRaises s → t.fault = s.fault)

/-! ### Forwarding -/

/-- The EX network's priority: EX/MEM unless it is an unfinished load, then MEM/WB, then the latched value; register 0 always
takes the latched value (R191 to R196; the exclusion of register 0 is the spec's decision D18). -/
def Obligations.ExForwardingPriority : Prop :=
  ∀ (s : State) (r : RegIdx) (v : Word),
    (r ≠ 0#5 → s.exmem.nop = false → s.exmem.writesReg = true → s.exmem.rd = r → s.exmem.isLoad = false →
      fwdEx s r v = s.exmem.aluResult) ∧
    (r ≠ 0#5 → (s.exmem.nop = true ∨ s.exmem.writesReg = false ∨ s.exmem.rd ≠ r ∨ s.exmem.isLoad = true) →
      s.memwb.nop = false → s.memwb.writesReg = true → s.memwb.rd = r → fwdEx s r v = s.memwb.wrtData) ∧
    ((s.exmem.nop = true ∨ s.exmem.writesReg = false ∨ s.exmem.rd ≠ r ∨ s.exmem.isLoad = true) →
      (s.memwb.nop = true ∨ s.memwb.writesReg = false ∨ s.memwb.rd ≠ r) → fwdEx s r v = v) ∧
    fwdEx s 0#5 v = v

/-- The register read that ID latches is the register file as it stands after this tick's write-back: the bypass loses no value
(R172, R197; the bypass is the spec's decision D17). -/
def Obligations.LatchedReadSeesTheWriteBack : Prop :=
  ∀ (s : State) (d : Decoded), Commits s → s.ifid.nop = false → decodeRecord s.ifid.instr = .ok d → d.cls ≠ .halt →
    ¬ LoadUseHazard s d →
    ∃ t, step s = .next t ∧ t.idex.rs1Val = readReg t.x d.rs1 ∧ t.idex.rs2Val = readReg t.x d.rs2

/-- What the ID network gives a branch is the sequential value: in a state of the invariant, for every register that is not the
destination of a load still in EX, it is what the register holds once the instructions ahead have completed (R198 to R203, R210;
tiers (a) and (b) are the spec's decisions D20, D21). -/
def Obligations.BranchOperandsAreSequentialValues : Prop :=
  ∀ (s : State) (m : MemOut) (a : ArchState) (r : RegIdx), PipeInv s → memStage s = some m → drained s = some a →
    ¬ (s.idex.nop = false ∧ s.idex.isLoad = true ∧ s.idex.rd = r ∧ r ≠ 0#5) →
    fwdId s { exResult := exResult s, memResult := m.result } r = a.reg r

/-! ### ID: issue, stall, branch, jump, HALT -/

/-- The latch ID produces when the word decodes and nothing stalls it: all fourteen fields, for every class that can stand
there (R173, with R102 and R172; that `alu_op` of BRANCH and JAL is ADD is the spec's decision D34, log 10). -/
def Obligations.IssuedInstructionEntersEx : Prop :=
  ∀ (s : State) (d : Decoded), Commits s → s.ifid.nop = false → decodeRecord s.ifid.instr = .ok d → d.cls ≠ .halt →
    ¬ LoadUseHazard s d →
    ∃ t, step s = .next t ∧
      t.idex = { nop := false, pc := s.ifid.pc, cls := d.cls, aluOp := d.aluOp, rs1 := d.rs1, rs2 := d.rs2, rd := d.rd,
                 rs1Val := regRead s d.rs1, rs2Val := regRead s d.rs2, imm := d.imm,
                 isLoad := decide (d.cls = .load), isStore := decide (d.cls = .store),
                 writesReg := decide (d.cls = .rArith ∨ d.cls = .iArith ∨ d.cls = .load ∨ d.cls = .jal),
                 isJump := decide (d.cls = .jal) } ∧
      (d.cls = .branch ∨ d.cls = .jal → t.idex.aluOp = .add)

/-- A load-use hazard holds the instruction: pc, IF/ID and the stop flag keep their values, a bubble enters ID/EX, the load
moves on to MEM and what is in MEM moves on to WB, and the held instruction redirects nothing, branch or not (R204, R206, R225;
the branch's delay is the spec's decision D22). -/
def Obligations.LoadUseHazardHoldsTheInstruction : Prop :=
  ∀ (s : State) (d : Decoded), Commits s → s.ifid.nop = false → decodeRecord s.ifid.instr = .ok d → LoadUseHazard s d →
    ∃ t, step s = .next t ∧ t.pc = s.pc ∧ t.ifid = s.ifid ∧ t.ifNop = s.ifNop ∧ t.idex = IdEx.bubble ∧
      t.exmem.nop = false ∧ t.exmem.isLoad = true ∧ t.exmem.rd = s.idex.rd ∧ t.memwb.nop = s.exmem.nop

/-- One stall and never more: the tick after a stall sends the held instruction on (R207). -/
def Obligations.HeldInstructionIssuesInTheNextTick : Prop :=
  ∀ (s : State) (d : Decoded), Commits s → s.ifid.nop = false → decodeRecord s.ifid.instr = .ok d → LoadUseHazard s d →
    ∃ t, step s = .next t ∧ ¬ LoadUseHazard t d ∧
      (Commits t → ∃ u, step t = .next u ∧ u.idex.nop = false ∧ u.idex.pc = s.ifid.pc ∧ u.idex.cls = d.cls)

/-- What follows a load-use stall: the held reader gets the loaded word, an ordinary one by MEM/WB when it is in EX, a branch by
MEM's result when it is resolved: the wire of the MEM stage is the loaded word, and the ID network hands it on (R193, R200, R203,
R208; that the wire of a load is the loaded word is the spec's decision D20). -/
def Obligations.HeldReaderGetsTheLoadedWord : Prop :=
  ∀ (s t u : State) (d : Decoded) (v : Word), Commits s → s.ifid.nop = false → decodeRecord s.ifid.instr = .ok d →
    LoadUseHazard s d → s.idex.writesReg = true → step s = .next t →
    t.dmem.readWord t.exmem.aluResult = some v → Commits t → step t = .next u →
    (d.cls.readsRs1 = true → d.rs1 = s.idex.rd → exOperandA u = v) ∧
    (d.cls.readsRs2 = true → d.rs2 = s.idex.rd → exOperandB u = v) ∧
    ∃ m, memStage t = some m ∧ m.result = v ∧
      fwdId t { exResult := exResult t, memResult := m.result } s.idex.rd = v

/-- Branch resolution in ID. BEQ is taken iff the two ID-forwarded values are equal, BNE iff they are unequal; if taken, the
next IF/ID is a bubble and the pc goes to the branch's own address plus the immediate; if not, IF does what it does anyway. The
branch goes on to EX and writes no register (R221, R222, R228). That IF goes on after a taken branch whatever stood at the pc is
R226 and R227 with the spec's decision D15 (log 20); the compared values are the ID network of R203 with its decisions D20 and D21
(log 19). -/
def Obligations.BranchResolvesInId : Prop :=
  ∀ (rs1 rs2 : RegIdx) (off : BitVec 13) (s : State) (m : MemOut), memStage s = some m →
    (¬ LoadUseHazard s (Instr.beq rs1 rs2 off).decoded → ∃ t, exec (.beq rs1 rs2 off) s = .next t ∧
      t.idex.nop = false ∧ t.idex.cls = .branch ∧ t.idex.writesReg = false ∧
      (if fwdId s { exResult := exResult s, memResult := m.result } rs1 =
          fwdId s { exResult := exResult s, memResult := m.result } rs2
       then t.ifid = IfId.bubble ∧ t.pc = s.ifid.pc + off.signExtend 32 ∧ t.ifNop = false
       else t.ifid = (ifFetch s).ifid ∧ t.pc = (ifFetch s).pc ∧ t.ifNop = (ifFetch s).ifNop)) ∧
    (¬ LoadUseHazard s (Instr.bne rs1 rs2 off).decoded → ∃ t, exec (.bne rs1 rs2 off) s = .next t ∧
      t.idex.nop = false ∧ t.idex.cls = .branch ∧ t.idex.writesReg = false ∧
      (if fwdId s { exResult := exResult s, memResult := m.result } rs1 ≠
          fwdId s { exResult := exResult s, memResult := m.result } rs2
       then t.ifid = IfId.bubble ∧ t.pc = s.ifid.pc + off.signExtend 32 ∧ t.ifNop = false
       else t.ifid = (ifFetch s).ifid ∧ t.pc = (ifFetch s).pc ∧ t.ifNop = (ifFetch s).ifNop))

/-- JAL redirects unconditionally: in every tick that commits, whatever is in EX, the pc goes to its own address plus the
immediate and the fetch behind it is dropped; it reads no register, so it never stalls (R223). -/
def Obligations.JalRedirectsUnconditionally : Prop :=
  ∀ (rd : RegIdx) (off : BitVec 21) (s : State), ¬ MemRaises s →
    ∃ t, exec (.jal rd off) s = .next t ∧ t.pc = s.ifid.pc + off.signExtend 32 ∧ t.ifid = IfId.bubble ∧
      t.idex.nop = false ∧ t.idex.cls = .jal ∧ t.idex.rd = rd

/-- A redirect overrides a stop in the same tick: after a taken branch or a JAL fetching goes on at the target, whatever stood at
the pc, and the redirecting tick does not depend on instruction memory at all (R227, R239; the spec's decision D15). -/
def Obligations.WrongPathFetchHasNoEffect : Prop :=
  (∀ (rd : RegIdx) (off : BitVec 21) (s t : State) (im : Memory), exec (.jal rd off) s = .next t → ¬ MemRaises s →
    t.ifNop = false ∧ exec (.jal rd off) { s with imem := im } = .next { t with imem := im }) ∧
  (∀ (i : Instr) (s t : State) (im : Memory), exec i s = .next t → t.ifid.nop = true → t.ifNop = false →
    exec i { s with imem := im } = .next { t with imem := im })

/-- A word of class HALT handed to ID produces a bubble and no other effect; the rest of the tick happens, and IF does what it
does behind a bubble (R152; the spec's decision D31). -/
def Obligations.HaltInIdIsABubble : Prop :=
  ∀ (ignored : BitVec 25) (s : State) (m : MemOut), memStage s = some m →
    exec (.halt ignored) s = .next (commit s m { latch := IdEx.bubble, stall := false, redirect := none })

/-! ### IF and the end of the run -/

/-- The IF priority: stall, redirect, already stopped, pc out of bounds, HALT seen, normal fetch, in that order, for whatever ID
drives (R226). The source gives the cases and not their order: the order is the spec's, by its decisions D15 and D22 (log 20); the
clean stop out of bounds is its decision D16 (log 17), the bubble for a HALT and the held pc its decisions D13 and D28 (log 21). -/
def Obligations.FetchPriority : Prop :=
  ∀ (s : State) (m : MemOut) (o : IdOut),
    (o.stall = true →
      (commit s m o).ifid = s.ifid ∧ (commit s m o).pc = s.pc ∧ (commit s m o).ifNop = s.ifNop) ∧
    (∀ target, o.stall = false → o.redirect = some target →
      (commit s m o).ifid = IfId.bubble ∧ (commit s m o).pc = target ∧ (commit s m o).ifNop = false) ∧
    (o.stall = false → o.redirect = none →
      (s.ifNop = true ∨ ¬ s.pc.toNat + 3 < s.imem.size ∨ fieldOpcode (s.imem.wordAt s.pc.toNat) = 0x7F#7) →
      (commit s m o).ifid = IfId.bubble ∧ (commit s m o).pc = s.pc ∧ (commit s m o).ifNop = true) ∧
    (o.stall = false → o.redirect = none → s.ifNop = false → s.pc.toNat + 3 < s.imem.size →
      fieldOpcode (s.imem.wordAt s.pc.toNat) ≠ 0x7F#7 →
      (commit s m o).ifid = { nop := false, pc := s.pc, instr := s.imem.wordAt s.pc.toNat } ∧
      (commit s m o).pc = s.pc + 4#32 ∧ (commit s m o).ifNop = false)

/-- The run ends cleanly in the tick that starts with all four latches bubbles and IF stopped, and in no other; that tick is
counted (R235, R236; testing the snapshot before the tick is the spec's decision D14). -/
def Obligations.RunEndsWhenThePipeIsEmptyAndStopped : Prop :=
  ∀ s : State, Commits s → ∃ t, step s = .next t ∧ t.cycle = s.cycle + 1 ∧
    (t.halted = true ↔
      s.ifNop = true ∧ s.ifid.nop = true ∧ s.idex.nop = true ∧ s.exmem.nop = true ∧ s.memwb.nop = true)

/-- A HALT at the pc, or a pc outside instruction memory, behind an empty pipe ends the run in two ticks: no register, no byte,
not the pc and not `retired` changes (R150, R230, R231, R236; the spec's decisions D14, D16, D28). -/
def Obligations.HaltOrEndOfMemoryEndsTheRun : Prop :=
  ∀ s : State, s.fault = none → s.halted = false → s.cycle + 2 ≤ Config.maxCycles → EmptyAndFetching s → BubblesBlank s →
    fetchStopsAt s.imem s.pc = true →
    runSteps 2 s = .next { s with ifNop := true, halted := true, cycle := s.cycle + 2 }

/-- The drain: once IF has stopped and ID is empty, the instructions in flight complete and the run ends within four ticks, if
none of them has an address out of bounds (R232, R233, R235, R289; the held pc and the counted last tick are the spec's decisions
D28 and D14, log 21). -/
def Obligations.DrainCompletesAndEndsTheRun : Prop :=
  ∀ (s : State) (a : ArchState), s.fault = none → s.halted = false → s.cycle + 4 ≤ Config.maxCycles → s.ifNop = true →
    s.ifid.nop = true → drained s = some a →
    ∃ t, runSteps 4 s = .next t ∧ t.halted = true ∧ t.x = a.x ∧ t.dmem = a.dmem ∧ t.imem = s.imem ∧ t.pc = s.pc ∧
      t.retired = s.retired + ((if s.idex.nop = true then 0 else 1) + (if s.exmem.nop = true then 0 else 1) +
        (if s.memwb.nop = true then 0 else 1))

/-! ### What each instruction computes: a lone instruction from ID to write-back -/

/-- ADD, SUB, XOR, OR, AND (R110 to R116): with the instruction alone in the pipe and fetching stopped behind it, its ID tick and
three more leave the stated register holding the stated word (nothing, for register 0), and everything else but the emptied
latches and the counters as it was. SUB's operand order is the spec's G5 (log 15), wrapping its
decision D9 (log 16). In this and the statements below that end in `flown`, that the pc stays where fetching stopped is its decisions
D16 and D28 (logs 17, 21). -/
def Obligations.RegisterArithmeticCompletes : Prop :=
  ∀ (rd rs1 rs2 : RegIdx) (s : State), AloneInId s → fetchStopsAt s.imem s.pc = true →
    (∃ t, exec (.add rd rs1 rs2) s = .next t ∧
      runSteps 3 t = .next (flown s (writeReg s.x rd (readReg s.x rs1 + readReg s.x rs2)) s.dmem s.pc)) ∧
    (∃ t, exec (.sub rd rs1 rs2) s = .next t ∧
      runSteps 3 t = .next (flown s (writeReg s.x rd (readReg s.x rs1 - readReg s.x rs2)) s.dmem s.pc)) ∧
    (∃ t, exec (.xor rd rs1 rs2) s = .next t ∧
      runSteps 3 t = .next (flown s (writeReg s.x rd (readReg s.x rs1 ^^^ readReg s.x rs2)) s.dmem s.pc)) ∧
    (∃ t, exec (.or rd rs1 rs2) s = .next t ∧
      runSteps 3 t = .next (flown s (writeReg s.x rd (readReg s.x rs1 ||| readReg s.x rs2)) s.dmem s.pc)) ∧
    (∃ t, exec (.and rd rs1 rs2) s = .next t ∧
      runSteps 3 t = .next (flown s (writeReg s.x rd (readReg s.x rs1 &&& readReg s.x rs2)) s.dmem s.pc))

/-- ADDI, XORI, ORI, ANDI (R120 to R124), in the same form: the immediate is sign-extended for all four. -/
def Obligations.ImmediateArithmeticCompletes : Prop :=
  ∀ (rd rs1 : RegIdx) (imm : BitVec 12) (s : State), AloneInId s → fetchStopsAt s.imem s.pc = true →
    (∃ t, exec (.addi rd rs1 imm) s = .next t ∧
      runSteps 3 t = .next (flown s (writeReg s.x rd (readReg s.x rs1 + imm.signExtend 32)) s.dmem s.pc)) ∧
    (∃ t, exec (.xori rd rs1 imm) s = .next t ∧
      runSteps 3 t = .next (flown s (writeReg s.x rd (readReg s.x rs1 ^^^ imm.signExtend 32)) s.dmem s.pc)) ∧
    (∃ t, exec (.ori rd rs1 imm) s = .next t ∧
      runSteps 3 t = .next (flown s (writeReg s.x rd (readReg s.x rs1 ||| imm.signExtend 32)) s.dmem s.pc)) ∧
    (∃ t, exec (.andi rd rs1 imm) s = .next t ∧
      runSteps 3 t = .next (flown s (writeReg s.x rd (readReg s.x rs1 &&& imm.signExtend 32)) s.dmem s.pc))

/-- LW (R130, R131): the big-endian word at `x[rs1] + imm`, in bounds, aligned or not, goes to the destination (nowhere, for
register 0). -/
def Obligations.LoadCompletes : Prop :=
  ∀ (rd rs1 : RegIdx) (imm : BitVec 12) (s : State), AloneInId s → fetchStopsAt s.imem s.pc = true →
    (readReg s.x rs1 + imm.signExtend 32).toNat + 3 < s.dmem.size →
    ∃ t, exec (.lw rd rs1 imm) s = .next t ∧
      runSteps 3 t = .next (flown s (writeReg s.x rd
        (s.dmem.byteAt (readReg s.x rs1 + imm.signExtend 32).toNat ++
         s.dmem.byteAt ((readReg s.x rs1 + imm.signExtend 32).toNat + 1) ++
         s.dmem.byteAt ((readReg s.x rs1 + imm.signExtend 32).toNat + 2) ++
         s.dmem.byteAt ((readReg s.x rs1 + imm.signExtend 32).toNat + 3))) s.dmem s.pc)

/-- SW (R130, R132): the four bytes at `x[rs1] + imm` take `x[rs2]`, most significant byte first; no other byte and no register
changes. -/
def Obligations.StoreCompletes : Prop :=
  ∀ (rs2 rs1 : RegIdx) (imm : BitVec 12) (s : State), AloneInId s → fetchStopsAt s.imem s.pc = true → s.dmem.wf →
    (readReg s.x rs1 + imm.signExtend 32).toNat + 3 < s.dmem.size →
    ∃ t m, exec (.sw rs2 rs1 imm) s = .next t ∧ runSteps 3 t = .next (flown s s.x m s.pc) ∧ m.size = s.dmem.size ∧
      m.byteAt (readReg s.x rs1 + imm.signExtend 32).toNat = (readReg s.x rs2).extractLsb' 24 8 ∧
      m.byteAt ((readReg s.x rs1 + imm.signExtend 32).toNat + 1) = (readReg s.x rs2).extractLsb' 16 8 ∧
      m.byteAt ((readReg s.x rs1 + imm.signExtend 32).toNat + 2) = (readReg s.x rs2).extractLsb' 8 8 ∧
      m.byteAt ((readReg s.x rs1 + imm.signExtend 32).toNat + 3) = (readReg s.x rs2).extractLsb' 0 8 ∧
      ∀ a, a < (readReg s.x rs1 + imm.signExtend 32).toNat ∨ (readReg s.x rs1 + imm.signExtend 32).toNat + 4 ≤ a →
        m.byteAt a = s.dmem.byteAt a

/-- LW and SW with an address out of bounds: the third tick raises MemoryOutOfBounds with that address, also for a load of
register 0, and no register and no byte changes (R55, R131, R132, R253, R254, R257). The test without wrap, that nothing of the tick
commits, and the record's fields are the spec's decisions D8, D24, D35; that the error is taken as a next state holding its record
is this model's DESIGN CHOICE (log 7), and so is that the step after answers it as a fault (log 6). -/
def Obligations.OutOfBoundsAccessRaises : Prop :=
  ∀ (r rs1 : RegIdx) (imm : BitVec 12) (s : State), AloneInId s → fetchStopsAt s.imem s.pc = true →
    ¬ (readReg s.x rs1 + imm.signExtend 32).toNat + 3 < s.dmem.size →
    (∃ t u, exec (.lw r rs1 imm) s = .next t ∧ runSteps 2 t = .next u ∧ u.x = s.x ∧ u.dmem = s.dmem ∧
      u.fault = some (.memoryOutOfBounds (s.cycle + 3) (readReg s.x rs1 + imm.signExtend 32)) ∧
      step u = .fault (.memoryOutOfBounds (s.cycle + 3) (readReg s.x rs1 + imm.signExtend 32))) ∧
    (∃ t u, exec (.sw r rs1 imm) s = .next t ∧ runSteps 2 t = .next u ∧ u.x = s.x ∧ u.dmem = s.dmem ∧
      u.fault = some (.memoryOutOfBounds (s.cycle + 3) (readReg s.x rs1 + imm.signExtend 32)) ∧
      step u = .fault (.memoryOutOfBounds (s.cycle + 3) (readReg s.x rs1 + imm.signExtend 32)))

/-- BEQ and BNE (R140 to R142): taken, the pc ends at the branch's own address plus the immediate; not taken, where fetching
stopped behind it; no register and no byte changes. -/
def Obligations.BranchCompletes : Prop :=
  ∀ (rs1 rs2 : RegIdx) (off : BitVec 13) (s : State), AloneInId s →
    (readReg s.x rs1 = readReg s.x rs2 → fetchStopsAt s.imem (s.ifid.pc + off.signExtend 32) = true →
      ∃ t, exec (.beq rs1 rs2 off) s = .next t ∧
        runSteps 3 t = .next (flown s s.x s.dmem (s.ifid.pc + off.signExtend 32))) ∧
    (readReg s.x rs1 ≠ readReg s.x rs2 → fetchStopsAt s.imem s.pc = true →
      ∃ t, exec (.beq rs1 rs2 off) s = .next t ∧ runSteps 3 t = .next (flown s s.x s.dmem s.pc)) ∧
    (readReg s.x rs1 ≠ readReg s.x rs2 → fetchStopsAt s.imem (s.ifid.pc + off.signExtend 32) = true →
      ∃ t, exec (.bne rs1 rs2 off) s = .next t ∧
        runSteps 3 t = .next (flown s s.x s.dmem (s.ifid.pc + off.signExtend 32))) ∧
    (readReg s.x rs1 = readReg s.x rs2 → fetchStopsAt s.imem s.pc = true →
      ∃ t, exec (.bne rs1 rs2 off) s = .next t ∧ runSteps 3 t = .next (flown s s.x s.dmem s.pc))

/-- JAL (R140, R143): the destination (nothing, for register 0) takes the JAL's own address plus 4, the pc its own address plus
the immediate. -/
def Obligations.JumpCompletes : Prop :=
  ∀ (rd : RegIdx) (off : BitVec 21) (s : State), AloneInId s → fetchStopsAt s.imem (s.ifid.pc + off.signExtend 32) = true →
    ∃ t, exec (.jal rd off) s = .next t ∧
      runSteps 3 t = .next (flown s (writeReg s.x rd (s.ifid.pc + 4#32)) s.dmem (s.ifid.pc + off.signExtend 32))

/-- The pipeline gives a lone instruction the effect its sequential rule gives it, whichever instruction it is (R14). -/
def Obligations.LoneInstructionPerformsItsRule : Prop :=
  ∀ (i : Instr) (s : State) (a : ArchState), AloneInId s → s.pc = s.ifid.pc + 4#32 → archExec i (archOfAlone s) = .next a →
    fetchStopsAt s.imem s.pc = true → fetchStopsAt s.imem a.pc = true →
    ∃ t, exec i s = .next t ∧ runSteps 3 t = .next (flown s a.x a.dmem a.pc)

/-! ### Memory -/

/-- After a word write the four bytes from its address are those of the word, most significant first, every other byte of the
memory is as it was, and the size is kept. So a word read at the same address gives the word written, one at a disjoint address
what it gave before, and one at any address gives, for each of its four bytes, the written byte where the two overlap and the old
byte where they do not, and is in bounds exactly where it was (R52, R53, R57, R58, R62; at any alignment: the spec's decision D6,
log 14). -/
def Obligations.WordReadAfterWordWrite : Prop :=
  ∀ (m m' : Memory) (a v : Word), m.wf → m.writeWord a v = some m' →
    m'.wf ∧ m'.size = m.size ∧
    (∀ k < 4, m'.byteAt (a.toNat + k) = byteOfWord v k) ∧
    (∀ j : Nat, j < a.toNat ∨ a.toNat + 4 ≤ j → m'.byteAt j = m.byteAt j) ∧
    m'.readWord a = some v ∧
    (∀ b : Word, b.toNat + 3 < a.toNat ∨ a.toNat + 3 < b.toNat → m'.readWord b = m.readWord b) ∧
    (∀ b : Word, m'.readWord b =
      if b.toNat + 3 < m.size then
        some (byteAfterWrite m a v b.toNat ++ byteAfterWrite m a v (b.toNat + 1) ++
          byteAfterWrite m a v (b.toNat + 2) ++ byteAfterWrite m a v (b.toNat + 3))
      else none)

/-- The bounds test is on the unsigned address, without wrap, for reads and writes alike, and nothing else is tested: an access
at any alignment inside is performed (R55 to R57, R69; the spec's decisions D6, D8). -/
def Obligations.BoundsAreUnsignedAndUnaligned : Prop :=
  ∀ (m : Memory) (a v : Word),
    ((m.readWord a).isSome = true ↔ a.toNat + 3 < m.size) ∧ ((m.writeWord a v).isSome = true ↔ a.toNat + 3 < m.size) ∧
    (m.wf → a.msb = true → m.readWord a = none)

/-- A load behind a store of the same address gets the stored word, with no forwarding of memory (R62, R70). -/
def Obligations.LoadSeesTheStoreAhead : Prop :=
  ∀ s t u : State, Commits s → s.dmem.wf →
    s.exmem.nop = false → s.exmem.isLoad = false → s.exmem.isStore = true →
    s.idex.nop = false → s.idex.cls = .load → s.idex.isLoad = true → exResult s = s.exmem.aluResult →
    step s = .next t → Commits t → step t = .next u → u.memwb.wrtData = s.exmem.storeData

/-- What the host loads is what the memory holds, byte by byte, in canonical form, and the rewritten file gives the same bytes
back (R51, R67, R68; which end of a line is the high bit is the spec's G6, log 25). -/
def Obligations.LoadedMemoryHoldsTheFile : Prop :=
  ∀ bs : List Byte, bs.length ≤ Config.memSizeLimit →
    (Memory.ofBytes bs).wf ∧ (Memory.ofBytes bs).size = bs.length ∧
    (∀ (k : Nat) (h : k < bs.length), (Memory.ofBytes bs).byteAt k = bs[k]) ∧
    bytesOfLines (memoryLines (Memory.ofBytes bs)) = some bs

/-- The host's setup: an absent directory and a malformed line end in their errors, and two files of well-formed lines, of any
number of lines up to 2^31 each, give the engine in its reset state over them (R67, R250, R258, R280, R283). R258 names a wrong line
count as an error and the source gives no count (N8): that no count is wrong is this model's DESIGN CHOICE (log 25). The order of
the bits in a line is the spec's G6 (log 25, PRESUMED); that setup errors are the host's is its decision D36. -/
def Obligations.HostSetup : Prop :=
  hostLoad none = .fault .ioDirectoryMissing ∧
  (∀ (f g : List FileLine), ((∃ l ∈ f, l.length ≠ 8 ∨ ∃ c ∈ l, c ≠ '0' ∧ c ≠ '1') ∨
      (∃ l ∈ g, l.length ≠ 8 ∨ ∃ c ∈ l, c ≠ '0' ∧ c ≠ '1')) → hostLoad (some (f, g)) = .fault .malformedMemoryFile) ∧
  (∀ (im dm : List Byte), im.length ≤ Config.memSizeLimit → dm.length ≤ Config.memSizeLimit →
    hostLoad (some (im.map lineOfByte, dm.map lineOfByte)) =
      .next (State.resetWith (Memory.ofBytes im) (Memory.ofBytes dm)))

/-! ### Reset, invariants, whole-machine rules -/

/-- The reset state (R40, R280): latches empty with zero payload, IF fetching, pc and registers and counters 0, no end and no
error, the memories as given. Register 0, the memories and the empty latches are the source's; the others are the spec's decisions:
registers 1 to 31 D3, pc D2, IF fetching D13, the zero payload of a bubble D27, the counters D26, no end and no error D1 (log 29).
That the zero of the two fields of ID/EX that are names, `cls` and `alu_op`, is R_ARITH and ADD is this model's DESIGN CHOICE
(log 9). -/
def Obligations.ResetValues : Prop :=
  ∀ im dm : Memory,
    (∀ r : RegIdx, readReg (State.resetWith im dm).x r = 0#32) ∧
    State.resetWith im dm =
      { x := Vector.replicate 32 0#32, pc := 0#32, imem := im, dmem := dm, ifNop := false,
        ifid := { nop := true, pc := 0#32, instr := 0#32 },
        idex := { nop := true, pc := 0#32, cls := .rArith, aluOp := .add, rs1 := 0#5, rs2 := 0#5, rd := 0#5,
                  rs1Val := 0#32, rs2Val := 0#32, imm := 0#32, isLoad := false, isStore := false, writesReg := false,
                  isJump := false },
        exmem := { nop := true, aluResult := 0#32, storeData := 0#32, rd := 0#5, isLoad := false, isStore := false,
                   writesReg := false },
        memwb := { nop := true, wrtData := 0#32, rd := 0#5, writesReg := false },
        cycle := 0, retired := 0, halted := false, fault := none }

/-- The invariant holds at reset, over any two memories in canonical form and over the model's own (R38; log 1, 2). -/
def Obligations.InvariantHoldsAtReset : Prop :=
  (∀ im dm : Memory, im.wf → dm.wf → PipeInv (State.resetWith im dm)) ∧ PipeInv State.reset

/-- Every step keeps the invariant: register cell 0 is 0, both memories stay canonical, a stopped IF has an empty IF/ID and a
reason, bubbles stay blank, the word in ID is the one at its address, the latch flags are those of their class, what ID latched
is what the registers hold, no reader stands behind an unfinished load, the counters keep their bounds, a clean end has an empty
pipe (R21, R29, R38, R177, R196, R230 to R237). -/
def Obligations.EveryStepKeepsTheInvariant : Prop :=
  ∀ s t : State, PipeInv s → step s = .next t → PipeInv t

/-- For all ticks and all programs register cell 0 reads 0: from every state whose cell 0 is 0, through every step, every
instruction and every run; and no forwarding tier and no bypass supplies anything but 0 for it where the latched value is 0
(R295, R21; the last rests on the conjunct `r != 0` of R191, the spec's decision D18, log 19). -/
def Obligations.RegisterZeroAlwaysReadsZero : Prop :=
  (∀ (i : Instr) (s t : State), s.x[0] = 0#32 → exec i s = .next t → t.x[0] = 0#32) ∧
  (∀ (k : Nat) (s t : State), s.x[0] = 0#32 → runSteps k s = .next t → t.x[0] = 0#32) ∧
  (∀ (im dm : Memory) (k : Nat) (t : State), runSteps k (State.resetWith im dm) = .next t → t.x[0] = 0#32) ∧
  (∀ (s : State) (w : Wires), fwdEx s 0#5 0#32 = 0#32 ∧ fwdId s w 0#5 = 0#32 ∧ regRead s 0#5 = 0#32)

/-- Targets that are multiples of 4 keep the pc one: if the word in ID, where it is a branch or a JAL, has an immediate that is
a multiple of 4, a step from a pc that is a multiple of 4 leads to one (R24, R146). -/
def Obligations.AlignedTransfersKeepThePcAligned : Prop :=
  ∀ s t : State, s.pc.toNat % 4 = 0 →
    (s.ifid.nop = false → s.ifid.pc.toNat % 4 = 0 ∧
      ∀ d, decodeRecord s.ifid.instr = .ok d → d.cls = .branch ∨ d.cls = .jal → d.imm.toNat % 4 = 0) →
    step s = .next t → t.pc.toNat % 4 = 0 ∧ (t.ifid.nop = false → t.ifid.pc.toNat % 4 = 0)

/-- No rule reads the payload of a bubble: two states that differ only there take the same step up to such payloads (R29,
R179). -/
def Obligations.BubblePayloadIsNeverRead : Prop :=
  ∀ s : State, clearBubblesOf (step s) = clearBubblesOf (step (clearBubbles s))

/-! ### The pipeline and the sequential machine -/

/-- Each tick is one sequential step or none: in a state of the invariant, a step that raises nothing takes the drained state
through one `ArchStep` when ID sends its instruction on, and leaves it as it is in a stall, a flush, a stop or the drain (R14,
R15, R233, R284). -/
def Obligations.EachTickIsOneSequentialStepOrNone : Prop :=
  ∀ s t : State, PipeInv s → Commits s → step s = .next t →
    drained t = if issues s then archNext (drained s) else drained s

/-- Architectural equivalence, from the pipeline's side: a run from reset that ends cleanly ends with the registers, the data
memory and the pc of the sequential run over the same memories, which ends cleanly after as many instructions as were retired
(R15; R16 and the spec's decisions D16, D28, D33 for the pc). -/
def Obligations.CleanEndIsTheSequentialEnd : Prop :=
  ∀ (im dm : Memory) (k : Nat) (t : State), im.wf → dm.wf → runSteps k (State.resetWith im dm) = .next t → t.halted = true →
    archEndsAt (State.resetWith im dm).arch t.retired t.arch

/-- Architectural equivalence, from the sequential side: a sequential run that ends cleanly after `n` instructions, with room
for the pipeline's `3 n + 6` ticks under the limit, is reached by the pipeline: it ends cleanly with the same registers, data
memory and pc, having retired `n` (R15 for the registers and the data memory, R16 for `retired`, R237, R290 for the bound). The
final pc R16 does not compare: that it agrees rests on the spec's decisions D16, D28 and D33 (logs 17, 21, 26). -/
def Obligations.SequentialEndIsReached : Prop :=
  ∀ (im dm : Memory) (n : Nat) (a : ArchState), im.wf → dm.wf → archEndsAt (State.resetWith im dm).arch n a →
    3 * n + 6 ≤ Config.maxCycles →
    ∃ k t, runSteps k (State.resetWith im dm) = .next t ∧ t.halted = true ∧ t.arch = a ∧ t.retired = n ∧ t.cycle ≤ 3 * n + 6

/-- The cycle count of a run that ends cleanly: 2 if nothing retired, else `N + 5 + S + T` (R290, with R286 to R289; a model
counts the redirect of the last instruction apart, R293). The spec derives the formula with the counted last tick of its decision
D14 (log 21); R290 does not say how `S` and `T` are to be observed: they are read here off the two states of each step, by the
tally that is this model's DESIGN CHOICE (log 28). -/
def Obligations.CleanEndCycleFormula : Prop :=
  ∀ (im dm : Memory) (k : Nat) (t : State) (c : Tally), im.wf → dm.wf →
    tallyRun k (State.resetWith im dm) Tally.zero = some (t, c) → t.halted = true →
    t.cycle = if t.retired = 0 then 2 else t.retired + 5 + c.stalls + c.counted

/-- The lower bounds: a clean end after `N` instructions, `N` at least 1, has taken at least `N + 5` ticks, so at least `N + 4`,
and `retired` is at most `cycle` after every tick (R291, R294; the counted last tick is the spec's decision D14, log 21). -/
def Obligations.CycleLowerBounds : Prop :=
  ∀ (im dm : Memory) (k : Nat) (t : State), im.wf → dm.wf → runSteps k (State.resetWith im dm) = .next t →
    t.retired ≤ t.cycle ∧ (t.halted = true → 1 ≤ t.retired → t.retired + 5 ≤ t.cycle)
end

