-- ==== Sys2Proof/Laws/Decode.lean ====
section
/-! SUPPORT. The encoder's words bit by bit, the fields and immediates read back from them,
    words rebuilt from their fields,
and the decoder's record of each instruction. -/

namespace Sys2Proof

/-! ### The words, bit by bit -/

theorem encodeR_bit (f7 : BitVec 7) (rs2 rs1 : RegIdx) (f3 : BitVec 3) (rd : RegIdx) (op : BitVec 7) (k : Nat) :
    (encodeR f7 rs2 rs1 f3 rd op).getLsbD k =
      if k < 7 then op.getLsbD (k) else
      if k - 7 < 5 then rd.getLsbD (k - 7) else
      if k - 7 - 5 < 3 then f3.getLsbD (k - 7 - 5) else
      if k - 7 - 5 - 3 < 5 then rs1.getLsbD (k - 7 - 5 - 3) else
      if k - 7 - 5 - 3 - 5 < 5 then rs2.getLsbD (k - 7 - 5 - 3 - 5) else
      f7.getLsbD (k - 7 - 5 - 3 - 5 - 5) := by
  unfold encodeR
  rw [BitVec.getLsbD_append, BitVec.getLsbD_append, BitVec.getLsbD_append, BitVec.getLsbD_append, BitVec.getLsbD_append]

theorem encodeI_bit (imm : BitVec 12) (rs1 : RegIdx) (f3 : BitVec 3) (rd : RegIdx) (op : BitVec 7) (k : Nat) :
    (encodeI imm rs1 f3 rd op).getLsbD k =
      if k < 7 then op.getLsbD (k) else
      if k - 7 < 5 then rd.getLsbD (k - 7) else
      if k - 7 - 5 < 3 then f3.getLsbD (k - 7 - 5) else
      if k - 7 - 5 - 3 < 5 then rs1.getLsbD (k - 7 - 5 - 3) else
      imm.getLsbD (k - 7 - 5 - 3 - 5) := by
  unfold encodeI
  rw [BitVec.getLsbD_append, BitVec.getLsbD_append, BitVec.getLsbD_append, BitVec.getLsbD_append]

theorem encodeS_bit (imm : BitVec 12) (rs2 rs1 : RegIdx) (f3 : BitVec 3) (op : BitVec 7) (k : Nat) :
    (encodeS imm rs2 rs1 f3 op).getLsbD k =
      if k < 7 then op.getLsbD (k) else
      if k - 7 < 5 then (imm.extractLsb' 0 5).getLsbD (k - 7) else
      if k - 7 - 5 < 3 then f3.getLsbD (k - 7 - 5) else
      if k - 7 - 5 - 3 < 5 then rs1.getLsbD (k - 7 - 5 - 3) else
      if k - 7 - 5 - 3 - 5 < 5 then rs2.getLsbD (k - 7 - 5 - 3 - 5) else
      (imm.extractLsb' 5 7).getLsbD (k - 7 - 5 - 3 - 5 - 5) := by
  unfold encodeS
  rw [BitVec.getLsbD_append, BitVec.getLsbD_append, BitVec.getLsbD_append, BitVec.getLsbD_append, BitVec.getLsbD_append]

theorem encodeB_bit (off : BitVec 13) (rs2 rs1 : RegIdx) (f3 : BitVec 3) (op : BitVec 7) (k : Nat) :
    (encodeB off rs2 rs1 f3 op).getLsbD k =
      if k < 7 then op.getLsbD (k) else
      if k - 7 < 1 then (off.extractLsb' 11 1).getLsbD (k - 7) else
      if k - 7 - 1 < 4 then (off.extractLsb' 1 4).getLsbD (k - 7 - 1) else
      if k - 7 - 1 - 4 < 3 then f3.getLsbD (k - 7 - 1 - 4) else
      if k - 7 - 1 - 4 - 3 < 5 then rs1.getLsbD (k - 7 - 1 - 4 - 3) else
      if k - 7 - 1 - 4 - 3 - 5 < 5 then rs2.getLsbD (k - 7 - 1 - 4 - 3 - 5) else
      if k - 7 - 1 - 4 - 3 - 5 - 5 < 6 then (off.extractLsb' 5 6).getLsbD (k - 7 - 1 - 4 - 3 - 5 - 5) else
      (off.extractLsb' 12 1).getLsbD (k - 7 - 1 - 4 - 3 - 5 - 5 - 6) := by
  unfold encodeB
  rw [BitVec.getLsbD_append, BitVec.getLsbD_append, BitVec.getLsbD_append, BitVec.getLsbD_append,
    BitVec.getLsbD_append, BitVec.getLsbD_append, BitVec.getLsbD_append]

theorem encodeJ_bit (off : BitVec 21) (rd : RegIdx) (op : BitVec 7) (k : Nat) :
    (encodeJ off rd op).getLsbD k =
      if k < 7 then op.getLsbD (k) else
      if k - 7 < 5 then rd.getLsbD (k - 7) else
      if k - 7 - 5 < 8 then (off.extractLsb' 12 8).getLsbD (k - 7 - 5) else
      if k - 7 - 5 - 8 < 1 then (off.extractLsb' 11 1).getLsbD (k - 7 - 5 - 8) else
      if k - 7 - 5 - 8 - 1 < 10 then (off.extractLsb' 1 10).getLsbD (k - 7 - 5 - 8 - 1) else
      (off.extractLsb' 20 1).getLsbD (k - 7 - 5 - 8 - 1 - 10) := by
  unfold encodeJ
  rw [BitVec.getLsbD_append, BitVec.getLsbD_append, BitVec.getLsbD_append, BitVec.getLsbD_append, BitVec.getLsbD_append]

theorem encodeH_bit (ignored : BitVec 25) (op : BitVec 7) (k : Nat) :
    (encodeH ignored op).getLsbD k =
      if k < 7 then op.getLsbD (k) else
      ignored.getLsbD (k - 7) := by
  unfold encodeH
  rw [BitVec.getLsbD_append]

/-! ### The fields read back -/

@[simp] theorem fieldOpcode_encodeR (f7 : BitVec 7) (rs2 rs1 : RegIdx) (f3 : BitVec 3) (rd : RegIdx) (op : BitVec 7) :
    fieldOpcode (encodeR f7 rs2 rs1 f3 rd op) = op := by
  apply BitVec.eq_of_getLsbD_eq
  intro i hi
  unfold fieldOpcode
  rw [BitVec.getLsbD_extractLsb', encodeR_bit]
  interval_cases i <;> simp [-BitVec.getLsbD_eq_getElem]

@[simp] theorem fieldRd_encodeR (f7 : BitVec 7) (rs2 rs1 : RegIdx) (f3 : BitVec 3) (rd : RegIdx) (op : BitVec 7) :
    fieldRd (encodeR f7 rs2 rs1 f3 rd op) = rd := by
  apply BitVec.eq_of_getLsbD_eq
  intro i hi
  unfold fieldRd
  rw [BitVec.getLsbD_extractLsb', encodeR_bit]
  interval_cases i <;> simp [-BitVec.getLsbD_eq_getElem]

@[simp] theorem fieldFunct3_encodeR (f7 : BitVec 7) (rs2 rs1 : RegIdx) (f3 : BitVec 3) (rd : RegIdx) (op : BitVec 7) :
    fieldFunct3 (encodeR f7 rs2 rs1 f3 rd op) = f3 := by
  apply BitVec.eq_of_getLsbD_eq
  intro i hi
  unfold fieldFunct3
  rw [BitVec.getLsbD_extractLsb', encodeR_bit]
  interval_cases i <;> simp [-BitVec.getLsbD_eq_getElem]

@[simp] theorem fieldRs1_encodeR (f7 : BitVec 7) (rs2 rs1 : RegIdx) (f3 : BitVec 3) (rd : RegIdx) (op : BitVec 7) :
    fieldRs1 (encodeR f7 rs2 rs1 f3 rd op) = rs1 := by
  apply BitVec.eq_of_getLsbD_eq
  intro i hi
  unfold fieldRs1
  rw [BitVec.getLsbD_extractLsb', encodeR_bit]
  interval_cases i <;> simp [-BitVec.getLsbD_eq_getElem]

@[simp] theorem fieldRs2_encodeR (f7 : BitVec 7) (rs2 rs1 : RegIdx) (f3 : BitVec 3) (rd : RegIdx) (op : BitVec 7) :
    fieldRs2 (encodeR f7 rs2 rs1 f3 rd op) = rs2 := by
  apply BitVec.eq_of_getLsbD_eq
  intro i hi
  unfold fieldRs2
  rw [BitVec.getLsbD_extractLsb', encodeR_bit]
  interval_cases i <;> simp [-BitVec.getLsbD_eq_getElem]

@[simp] theorem fieldFunct7_encodeR (f7 : BitVec 7) (rs2 rs1 : RegIdx) (f3 : BitVec 3) (rd : RegIdx) (op : BitVec 7) :
    fieldFunct7 (encodeR f7 rs2 rs1 f3 rd op) = f7 := by
  apply BitVec.eq_of_getLsbD_eq
  intro i hi
  unfold fieldFunct7
  rw [BitVec.getLsbD_extractLsb', encodeR_bit]
  interval_cases i <;> simp [-BitVec.getLsbD_eq_getElem]

@[simp] theorem fieldOpcode_encodeI (imm : BitVec 12) (rs1 : RegIdx) (f3 : BitVec 3) (rd : RegIdx) (op : BitVec 7) :
    fieldOpcode (encodeI imm rs1 f3 rd op) = op := by
  apply BitVec.eq_of_getLsbD_eq
  intro i hi
  unfold fieldOpcode
  rw [BitVec.getLsbD_extractLsb', encodeI_bit]
  interval_cases i <;> simp [-BitVec.getLsbD_eq_getElem]

@[simp] theorem fieldRd_encodeI (imm : BitVec 12) (rs1 : RegIdx) (f3 : BitVec 3) (rd : RegIdx) (op : BitVec 7) :
    fieldRd (encodeI imm rs1 f3 rd op) = rd := by
  apply BitVec.eq_of_getLsbD_eq
  intro i hi
  unfold fieldRd
  rw [BitVec.getLsbD_extractLsb', encodeI_bit]
  interval_cases i <;> simp [-BitVec.getLsbD_eq_getElem]

@[simp] theorem fieldFunct3_encodeI (imm : BitVec 12) (rs1 : RegIdx) (f3 : BitVec 3) (rd : RegIdx) (op : BitVec 7) :
    fieldFunct3 (encodeI imm rs1 f3 rd op) = f3 := by
  apply BitVec.eq_of_getLsbD_eq
  intro i hi
  unfold fieldFunct3
  rw [BitVec.getLsbD_extractLsb', encodeI_bit]
  interval_cases i <;> simp [-BitVec.getLsbD_eq_getElem]

@[simp] theorem fieldRs1_encodeI (imm : BitVec 12) (rs1 : RegIdx) (f3 : BitVec 3) (rd : RegIdx) (op : BitVec 7) :
    fieldRs1 (encodeI imm rs1 f3 rd op) = rs1 := by
  apply BitVec.eq_of_getLsbD_eq
  intro i hi
  unfold fieldRs1
  rw [BitVec.getLsbD_extractLsb', encodeI_bit]
  interval_cases i <;> simp [-BitVec.getLsbD_eq_getElem]

@[simp] theorem fieldOpcode_encodeS (imm : BitVec 12) (rs2 rs1 : RegIdx) (f3 : BitVec 3) (op : BitVec 7) :
    fieldOpcode (encodeS imm rs2 rs1 f3 op) = op := by
  apply BitVec.eq_of_getLsbD_eq
  intro i hi
  unfold fieldOpcode
  rw [BitVec.getLsbD_extractLsb', encodeS_bit]
  interval_cases i <;> simp [-BitVec.getLsbD_eq_getElem]

@[simp] theorem fieldRd_encodeS (imm : BitVec 12) (rs2 rs1 : RegIdx) (f3 : BitVec 3) (op : BitVec 7) :
    fieldRd (encodeS imm rs2 rs1 f3 op) = (imm.extractLsb' 0 5) := by
  apply BitVec.eq_of_getLsbD_eq
  intro i hi
  unfold fieldRd
  rw [BitVec.getLsbD_extractLsb', encodeS_bit]
  interval_cases i <;> simp [-BitVec.getLsbD_eq_getElem]

@[simp] theorem fieldFunct3_encodeS (imm : BitVec 12) (rs2 rs1 : RegIdx) (f3 : BitVec 3) (op : BitVec 7) :
    fieldFunct3 (encodeS imm rs2 rs1 f3 op) = f3 := by
  apply BitVec.eq_of_getLsbD_eq
  intro i hi
  unfold fieldFunct3
  rw [BitVec.getLsbD_extractLsb', encodeS_bit]
  interval_cases i <;> simp [-BitVec.getLsbD_eq_getElem]

@[simp] theorem fieldRs1_encodeS (imm : BitVec 12) (rs2 rs1 : RegIdx) (f3 : BitVec 3) (op : BitVec 7) :
    fieldRs1 (encodeS imm rs2 rs1 f3 op) = rs1 := by
  apply BitVec.eq_of_getLsbD_eq
  intro i hi
  unfold fieldRs1
  rw [BitVec.getLsbD_extractLsb', encodeS_bit]
  interval_cases i <;> simp [-BitVec.getLsbD_eq_getElem]

@[simp] theorem fieldRs2_encodeS (imm : BitVec 12) (rs2 rs1 : RegIdx) (f3 : BitVec 3) (op : BitVec 7) :
    fieldRs2 (encodeS imm rs2 rs1 f3 op) = rs2 := by
  apply BitVec.eq_of_getLsbD_eq
  intro i hi
  unfold fieldRs2
  rw [BitVec.getLsbD_extractLsb', encodeS_bit]
  interval_cases i <;> simp [-BitVec.getLsbD_eq_getElem]

@[simp] theorem fieldFunct7_encodeS (imm : BitVec 12) (rs2 rs1 : RegIdx) (f3 : BitVec 3) (op : BitVec 7) :
    fieldFunct7 (encodeS imm rs2 rs1 f3 op) = (imm.extractLsb' 5 7) := by
  apply BitVec.eq_of_getLsbD_eq
  intro i hi
  unfold fieldFunct7
  rw [BitVec.getLsbD_extractLsb', encodeS_bit]
  interval_cases i <;> simp [-BitVec.getLsbD_eq_getElem]

@[simp] theorem fieldOpcode_encodeB (off : BitVec 13) (rs2 rs1 : RegIdx) (f3 : BitVec 3) (op : BitVec 7) :
    fieldOpcode (encodeB off rs2 rs1 f3 op) = op := by
  apply BitVec.eq_of_getLsbD_eq
  intro i hi
  unfold fieldOpcode
  rw [BitVec.getLsbD_extractLsb', encodeB_bit]
  interval_cases i <;> simp [-BitVec.getLsbD_eq_getElem]

@[simp] theorem fieldFunct3_encodeB (off : BitVec 13) (rs2 rs1 : RegIdx) (f3 : BitVec 3) (op : BitVec 7) :
    fieldFunct3 (encodeB off rs2 rs1 f3 op) = f3 := by
  apply BitVec.eq_of_getLsbD_eq
  intro i hi
  unfold fieldFunct3
  rw [BitVec.getLsbD_extractLsb', encodeB_bit]
  interval_cases i <;> simp [-BitVec.getLsbD_eq_getElem]

@[simp] theorem fieldRs1_encodeB (off : BitVec 13) (rs2 rs1 : RegIdx) (f3 : BitVec 3) (op : BitVec 7) :
    fieldRs1 (encodeB off rs2 rs1 f3 op) = rs1 := by
  apply BitVec.eq_of_getLsbD_eq
  intro i hi
  unfold fieldRs1
  rw [BitVec.getLsbD_extractLsb', encodeB_bit]
  interval_cases i <;> simp [-BitVec.getLsbD_eq_getElem]

@[simp] theorem fieldRs2_encodeB (off : BitVec 13) (rs2 rs1 : RegIdx) (f3 : BitVec 3) (op : BitVec 7) :
    fieldRs2 (encodeB off rs2 rs1 f3 op) = rs2 := by
  apply BitVec.eq_of_getLsbD_eq
  intro i hi
  unfold fieldRs2
  rw [BitVec.getLsbD_extractLsb', encodeB_bit]
  interval_cases i <;> simp [-BitVec.getLsbD_eq_getElem]

@[simp] theorem fieldOpcode_encodeJ (off : BitVec 21) (rd : RegIdx) (op : BitVec 7) :
    fieldOpcode (encodeJ off rd op) = op := by
  apply BitVec.eq_of_getLsbD_eq
  intro i hi
  unfold fieldOpcode
  rw [BitVec.getLsbD_extractLsb', encodeJ_bit]
  interval_cases i <;> simp [-BitVec.getLsbD_eq_getElem]

@[simp] theorem fieldRd_encodeJ (off : BitVec 21) (rd : RegIdx) (op : BitVec 7) :
    fieldRd (encodeJ off rd op) = rd := by
  apply BitVec.eq_of_getLsbD_eq
  intro i hi
  unfold fieldRd
  rw [BitVec.getLsbD_extractLsb', encodeJ_bit]
  interval_cases i <;> simp [-BitVec.getLsbD_eq_getElem]

@[simp] theorem fieldOpcode_encodeH (ignored : BitVec 25) (op : BitVec 7) :
    fieldOpcode (encodeH ignored op) = op := by
  apply BitVec.eq_of_getLsbD_eq
  intro i hi
  unfold fieldOpcode
  rw [BitVec.getLsbD_extractLsb', encodeH_bit]
  interval_cases i <;> simp [-BitVec.getLsbD_eq_getElem]

/-! ### The immediates read back -/

theorem immI_bit (w : Word) (k : Nat) (h : k < 12) : (immI w).getLsbD k = w.getLsbD (20 + k) := by
  simp [immI, h, -BitVec.getLsbD_eq_getElem]

theorem immS_bit (w : Word) (k : Nat) (h : k < 12) :
    (immS w).getLsbD k = if k < 5 then w.getLsbD (7 + k) else w.getLsbD (25 + (k - 5)) := by
  unfold immS
  rw [BitVec.getLsbD_append]
  simp only [BitVec.getLsbD_extractLsb']
  grind

theorem immB_bit (w : Word) (k : Nat) (h : k < 13) :
    (immB w).getLsbD k = if k < 1 then false else if k < 5 then w.getLsbD (7 + k) else if k < 11 then w.getLsbD (20 + k)
      else if k < 12 then w.getLsbD 7 else w.getLsbD 31 := by
  unfold immB
  rw [BitVec.getLsbD_append, BitVec.getLsbD_append, BitVec.getLsbD_append, BitVec.getLsbD_append]
  simp only [BitVec.getLsbD_extractLsb']
  interval_cases k <;> simp [-BitVec.getLsbD_eq_getElem]

theorem immJ_bit (w : Word) (k : Nat) (h : k < 21) :
    (immJ w).getLsbD k = if k < 1 then false else if k < 11 then w.getLsbD (20 + k) else if k < 12 then w.getLsbD 20
      else if k < 20 then w.getLsbD k else w.getLsbD 31 := by
  unfold immJ
  rw [BitVec.getLsbD_append, BitVec.getLsbD_append, BitVec.getLsbD_append, BitVec.getLsbD_append]
  simp only [BitVec.getLsbD_extractLsb']
  interval_cases k <;> simp [-BitVec.getLsbD_eq_getElem]

@[simp] theorem immI_encodeI (imm : BitVec 12) (rs1 : RegIdx) (f3 : BitVec 3) (rd : RegIdx) (op : BitVec 7) :
    immI (encodeI imm rs1 f3 rd op) = imm := by
  apply BitVec.eq_of_getLsbD_eq
  intro i hi
  rw [immI_bit _ _ hi]
  interval_cases i <;> simp [encodeI_bit, -BitVec.getLsbD_eq_getElem]

@[simp] theorem immS_encodeS (imm : BitVec 12) (rs2 rs1 : RegIdx) (f3 : BitVec 3) (op : BitVec 7) :
    immS (encodeS imm rs2 rs1 f3 op) = imm := by
  apply BitVec.eq_of_getLsbD_eq
  intro i hi
  rw [immS_bit _ _ hi]
  interval_cases i <;> simp [encodeS_bit, -BitVec.getLsbD_eq_getElem]

theorem immB_encodeB (off : BitVec 13) (rs2 rs1 : RegIdx) (f3 : BitVec 3) (op : BitVec 7) (h : evenB off = true) :
    immB (encodeB off rs2 rs1 f3 op) = off := by
  have h0 : off.getLsbD 0 = false := by simpa [evenB] using h
  apply BitVec.eq_of_getLsbD_eq
  intro i hi
  rw [immB_bit _ _ hi]
  interval_cases i <;> simp [encodeB_bit, h0, -BitVec.getLsbD_eq_getElem]

theorem immJ_encodeJ (off : BitVec 21) (rd : RegIdx) (op : BitVec 7) (h : evenJ off = true) :
    immJ (encodeJ off rd op) = off := by
  have h0 : off.getLsbD 0 = false := by simpa [evenJ] using h
  apply BitVec.eq_of_getLsbD_eq
  intro i hi
  rw [immJ_bit _ _ hi]
  interval_cases i <;> simp [encodeJ_bit, h0, -BitVec.getLsbD_eq_getElem]

@[simp] theorem ignored_encodeH (ignored : BitVec 25) (op : BitVec 7) :
    (encodeH ignored op).extractLsb' 7 25 = ignored := by
  apply BitVec.eq_of_getLsbD_eq
  intro i hi
  rw [BitVec.getLsbD_extractLsb', encodeH_bit]
  interval_cases i <;> simp [-BitVec.getLsbD_eq_getElem]

/-! ### Words rebuilt from their fields -/

theorem encodeR_fields (w : Word) : encodeR (fieldFunct7 w) (fieldRs2 w) (fieldRs1 w) (fieldFunct3 w) (fieldRd w)
    (fieldOpcode w) = w := by
  apply BitVec.eq_of_getLsbD_eq
  intro i hi
  rw [encodeR_bit]
  interval_cases i <;>
    simp [fieldOpcode, fieldRd, fieldFunct3, fieldRs1, fieldRs2, fieldFunct7, -BitVec.getLsbD_eq_getElem]

theorem encodeI_fields (w : Word) : encodeI (immI w) (fieldRs1 w) (fieldFunct3 w) (fieldRd w) (fieldOpcode w) = w := by
  apply BitVec.eq_of_getLsbD_eq
  intro i hi
  rw [encodeI_bit]
  interval_cases i <;>
    simp [fieldOpcode, fieldRd, fieldFunct3, fieldRs1, immI_bit, -BitVec.getLsbD_eq_getElem]

theorem encodeS_fields (w : Word) : encodeS (immS w) (fieldRs2 w) (fieldRs1 w) (fieldFunct3 w) (fieldOpcode w) = w := by
  apply BitVec.eq_of_getLsbD_eq
  intro i hi
  rw [encodeS_bit]
  interval_cases i <;>
    simp [fieldOpcode, fieldFunct3, fieldRs1, fieldRs2, immS_bit, -BitVec.getLsbD_eq_getElem]

theorem encodeB_fields (w : Word) : encodeB (immB w) (fieldRs2 w) (fieldRs1 w) (fieldFunct3 w) (fieldOpcode w) = w := by
  apply BitVec.eq_of_getLsbD_eq
  intro i hi
  rw [encodeB_bit]
  interval_cases i <;>
    simp [fieldOpcode, fieldFunct3, fieldRs1, fieldRs2, immB_bit, -BitVec.getLsbD_eq_getElem]

theorem encodeJ_fields (w : Word) : encodeJ (immJ w) (fieldRd w) (fieldOpcode w) = w := by
  apply BitVec.eq_of_getLsbD_eq
  intro i hi
  rw [encodeJ_bit]
  interval_cases i <;>
    simp [fieldOpcode, fieldRd, immJ_bit, -BitVec.getLsbD_eq_getElem]

theorem encodeH_fields (w : Word) : encodeH (w.extractLsb' 7 25) (fieldOpcode w) = w := by
  apply BitVec.eq_of_getLsbD_eq
  intro i hi
  rw [encodeH_bit]
  interval_cases i <;>
    simp [fieldOpcode, -BitVec.getLsbD_eq_getElem]

/-! ### Bytes -/

/-- A word is the word of its four bytes in memory order. -/
@[simp] theorem wordOfBytes_byteOfWord (w : Word) :
    wordOfBytes (byteOfWord w 0) (byteOfWord w 1) (byteOfWord w 2) (byteOfWord w 3) = w := by
  apply BitVec.eq_of_getLsbD_eq
  intro i hi
  unfold wordOfBytes
  rw [BitVec.getLsbD_append, BitVec.getLsbD_append, BitVec.getLsbD_append]
  interval_cases i <;> simp [byteOfWord, -BitVec.getLsbD_eq_getElem]

/-- The four bytes of the word of four bytes are those bytes. -/
theorem byteOfWord_wordOfBytes (b0 b1 b2 b3 : Byte) :
    byteOfWord (wordOfBytes b0 b1 b2 b3) 0 = b0 ∧ byteOfWord (wordOfBytes b0 b1 b2 b3) 1 = b1 ∧
    byteOfWord (wordOfBytes b0 b1 b2 b3) 2 = b2 ∧ byteOfWord (wordOfBytes b0 b1 b2 b3) 3 = b3 := by
  refine ⟨?_, ?_, ?_, ?_⟩ <;> apply BitVec.eq_of_getLsbD_eq <;> intro i hi <;> unfold byteOfWord wordOfBytes <;>
    rw [BitVec.getLsbD_extractLsb', BitVec.getLsbD_append, BitVec.getLsbD_append, BitVec.getLsbD_append] <;>
    interval_cases i <;> simp [-BitVec.getLsbD_eq_getElem]

/-- The table numbering of a 32-bit word is the word. -/
@[simp] theorem tableWord_toNat (w : Word) : tableWord 32 w.toNat = w := by
  apply BitVec.eq_of_toNat_eq
  have := w.isLt
  simp only [tableWord, BitVec.toNat_ofNat]
  omega

/-- Every word decodes or is an invalid opcode, with that word (R95). -/
theorem decodeWord_total (w : Word) : (∃ i, decodeWord w = .ok i) ∨ decodeWord w = .error (.invalidOpcode w) := by
  unfold decodeWord decodeRArith decodeIArith decodeLoad decodeStore decodeBranch
  split_ifs <;> simp

/-- The record of a word that decodes is the record of its instruction. -/
theorem decodeRecord_eq_ok {w : Word} {d : Decoded} :
    decodeRecord w = .ok d ↔ ∃ i, decodeWord w = .ok i ∧ i.decoded = d := by
  unfold decodeRecord
  cases decodeWord w <;> simp

/-! ### The record of each instruction -/

@[simp] theorem decoded_add_cls (rd rs1 rs2 : RegIdx) : (Instr.add rd rs1 rs2).decoded.cls = .rArith := rfl
@[simp] theorem decoded_add_aluOp (rd rs1 rs2 : RegIdx) : (Instr.add rd rs1 rs2).decoded.aluOp = .add := rfl
@[simp] theorem decoded_add_imm (rd rs1 rs2 : RegIdx) : (Instr.add rd rs1 rs2).decoded.imm = 0#32 := rfl
@[simp] theorem decoded_add_rd (rd rs1 rs2 : RegIdx) : (Instr.add rd rs1 rs2).decoded.rd = rd := fieldRd_encodeR ..
@[simp] theorem decoded_add_rs1 (rd rs1 rs2 : RegIdx) : (Instr.add rd rs1 rs2).decoded.rs1 = rs1 := fieldRs1_encodeR ..
@[simp] theorem decoded_add_rs2 (rd rs1 rs2 : RegIdx) : (Instr.add rd rs1 rs2).decoded.rs2 = rs2 := fieldRs2_encodeR ..

@[simp] theorem decoded_sub_cls (rd rs1 rs2 : RegIdx) : (Instr.sub rd rs1 rs2).decoded.cls = .rArith := rfl
@[simp] theorem decoded_sub_aluOp (rd rs1 rs2 : RegIdx) : (Instr.sub rd rs1 rs2).decoded.aluOp = .sub := rfl
@[simp] theorem decoded_sub_imm (rd rs1 rs2 : RegIdx) : (Instr.sub rd rs1 rs2).decoded.imm = 0#32 := rfl
@[simp] theorem decoded_sub_rd (rd rs1 rs2 : RegIdx) : (Instr.sub rd rs1 rs2).decoded.rd = rd := fieldRd_encodeR ..
@[simp] theorem decoded_sub_rs1 (rd rs1 rs2 : RegIdx) : (Instr.sub rd rs1 rs2).decoded.rs1 = rs1 := fieldRs1_encodeR ..
@[simp] theorem decoded_sub_rs2 (rd rs1 rs2 : RegIdx) : (Instr.sub rd rs1 rs2).decoded.rs2 = rs2 := fieldRs2_encodeR ..

@[simp] theorem decoded_xor_cls (rd rs1 rs2 : RegIdx) : (Instr.xor rd rs1 rs2).decoded.cls = .rArith := rfl
@[simp] theorem decoded_xor_aluOp (rd rs1 rs2 : RegIdx) : (Instr.xor rd rs1 rs2).decoded.aluOp = .xor := rfl
@[simp] theorem decoded_xor_imm (rd rs1 rs2 : RegIdx) : (Instr.xor rd rs1 rs2).decoded.imm = 0#32 := rfl
@[simp] theorem decoded_xor_rd (rd rs1 rs2 : RegIdx) : (Instr.xor rd rs1 rs2).decoded.rd = rd := fieldRd_encodeR ..
@[simp] theorem decoded_xor_rs1 (rd rs1 rs2 : RegIdx) : (Instr.xor rd rs1 rs2).decoded.rs1 = rs1 := fieldRs1_encodeR ..
@[simp] theorem decoded_xor_rs2 (rd rs1 rs2 : RegIdx) : (Instr.xor rd rs1 rs2).decoded.rs2 = rs2 := fieldRs2_encodeR ..

@[simp] theorem decoded_or_cls (rd rs1 rs2 : RegIdx) : (Instr.or rd rs1 rs2).decoded.cls = .rArith := rfl
@[simp] theorem decoded_or_aluOp (rd rs1 rs2 : RegIdx) : (Instr.or rd rs1 rs2).decoded.aluOp = .or := rfl
@[simp] theorem decoded_or_imm (rd rs1 rs2 : RegIdx) : (Instr.or rd rs1 rs2).decoded.imm = 0#32 := rfl
@[simp] theorem decoded_or_rd (rd rs1 rs2 : RegIdx) : (Instr.or rd rs1 rs2).decoded.rd = rd := fieldRd_encodeR ..
@[simp] theorem decoded_or_rs1 (rd rs1 rs2 : RegIdx) : (Instr.or rd rs1 rs2).decoded.rs1 = rs1 := fieldRs1_encodeR ..
@[simp] theorem decoded_or_rs2 (rd rs1 rs2 : RegIdx) : (Instr.or rd rs1 rs2).decoded.rs2 = rs2 := fieldRs2_encodeR ..

@[simp] theorem decoded_and_cls (rd rs1 rs2 : RegIdx) : (Instr.and rd rs1 rs2).decoded.cls = .rArith := rfl
@[simp] theorem decoded_and_aluOp (rd rs1 rs2 : RegIdx) : (Instr.and rd rs1 rs2).decoded.aluOp = .and := rfl
@[simp] theorem decoded_and_imm (rd rs1 rs2 : RegIdx) : (Instr.and rd rs1 rs2).decoded.imm = 0#32 := rfl
@[simp] theorem decoded_and_rd (rd rs1 rs2 : RegIdx) : (Instr.and rd rs1 rs2).decoded.rd = rd := fieldRd_encodeR ..
@[simp] theorem decoded_and_rs1 (rd rs1 rs2 : RegIdx) : (Instr.and rd rs1 rs2).decoded.rs1 = rs1 := fieldRs1_encodeR ..
@[simp] theorem decoded_and_rs2 (rd rs1 rs2 : RegIdx) : (Instr.and rd rs1 rs2).decoded.rs2 = rs2 := fieldRs2_encodeR ..

@[simp] theorem decoded_addi_cls (rd rs1 : RegIdx) (imm : BitVec 12) :
    (Instr.addi rd rs1 imm).decoded.cls = .iArith := rfl
@[simp] theorem decoded_addi_aluOp (rd rs1 : RegIdx) (imm : BitVec 12) :
    (Instr.addi rd rs1 imm).decoded.aluOp = .add := rfl
@[simp] theorem decoded_addi_imm (rd rs1 : RegIdx) (imm : BitVec 12) :
    (Instr.addi rd rs1 imm).decoded.imm = sext imm := rfl
@[simp] theorem decoded_addi_rd (rd rs1 : RegIdx) (imm : BitVec 12) : (Instr.addi rd rs1 imm).decoded.rd = rd :=
    fieldRd_encodeI ..
@[simp] theorem decoded_addi_rs1 (rd rs1 : RegIdx) (imm : BitVec 12) : (Instr.addi rd rs1 imm).decoded.rs1 = rs1 :=
    fieldRs1_encodeI ..

@[simp] theorem decoded_xori_cls (rd rs1 : RegIdx) (imm : BitVec 12) :
    (Instr.xori rd rs1 imm).decoded.cls = .iArith := rfl
@[simp] theorem decoded_xori_aluOp (rd rs1 : RegIdx) (imm : BitVec 12) :
    (Instr.xori rd rs1 imm).decoded.aluOp = .xor := rfl
@[simp] theorem decoded_xori_imm (rd rs1 : RegIdx) (imm : BitVec 12) :
    (Instr.xori rd rs1 imm).decoded.imm = sext imm := rfl
@[simp] theorem decoded_xori_rd (rd rs1 : RegIdx) (imm : BitVec 12) : (Instr.xori rd rs1 imm).decoded.rd = rd :=
    fieldRd_encodeI ..
@[simp] theorem decoded_xori_rs1 (rd rs1 : RegIdx) (imm : BitVec 12) : (Instr.xori rd rs1 imm).decoded.rs1 = rs1 :=
    fieldRs1_encodeI ..

@[simp] theorem decoded_ori_cls (rd rs1 : RegIdx) (imm : BitVec 12) : (Instr.ori rd rs1 imm).decoded.cls = .iArith := rfl
@[simp] theorem decoded_ori_aluOp (rd rs1 : RegIdx) (imm : BitVec 12) : (Instr.ori rd rs1 imm).decoded.aluOp = .or := rfl
@[simp] theorem decoded_ori_imm (rd rs1 : RegIdx) (imm : BitVec 12) : (Instr.ori rd rs1 imm).decoded.imm = sext imm := rfl
@[simp] theorem decoded_ori_rd (rd rs1 : RegIdx) (imm : BitVec 12) : (Instr.ori rd rs1 imm).decoded.rd = rd :=
    fieldRd_encodeI ..
@[simp] theorem decoded_ori_rs1 (rd rs1 : RegIdx) (imm : BitVec 12) : (Instr.ori rd rs1 imm).decoded.rs1 = rs1 :=
    fieldRs1_encodeI ..

@[simp] theorem decoded_andi_cls (rd rs1 : RegIdx) (imm : BitVec 12) :
    (Instr.andi rd rs1 imm).decoded.cls = .iArith := rfl
@[simp] theorem decoded_andi_aluOp (rd rs1 : RegIdx) (imm : BitVec 12) :
    (Instr.andi rd rs1 imm).decoded.aluOp = .and := rfl
@[simp] theorem decoded_andi_imm (rd rs1 : RegIdx) (imm : BitVec 12) :
    (Instr.andi rd rs1 imm).decoded.imm = sext imm := rfl
@[simp] theorem decoded_andi_rd (rd rs1 : RegIdx) (imm : BitVec 12) : (Instr.andi rd rs1 imm).decoded.rd = rd :=
    fieldRd_encodeI ..
@[simp] theorem decoded_andi_rs1 (rd rs1 : RegIdx) (imm : BitVec 12) : (Instr.andi rd rs1 imm).decoded.rs1 = rs1 :=
    fieldRs1_encodeI ..

@[simp] theorem decoded_lw_cls (rd rs1 : RegIdx) (imm : BitVec 12) : (Instr.lw rd rs1 imm).decoded.cls = .load := rfl
@[simp] theorem decoded_lw_aluOp (rd rs1 : RegIdx) (imm : BitVec 12) : (Instr.lw rd rs1 imm).decoded.aluOp = .add := rfl
@[simp] theorem decoded_lw_imm (rd rs1 : RegIdx) (imm : BitVec 12) : (Instr.lw rd rs1 imm).decoded.imm = sext imm := rfl
@[simp] theorem decoded_lw_rd (rd rs1 : RegIdx) (imm : BitVec 12) : (Instr.lw rd rs1 imm).decoded.rd = rd :=
    fieldRd_encodeI ..
@[simp] theorem decoded_lw_rs1 (rd rs1 : RegIdx) (imm : BitVec 12) : (Instr.lw rd rs1 imm).decoded.rs1 = rs1 :=
    fieldRs1_encodeI ..

@[simp] theorem decoded_sw_cls (rs2 rs1 : RegIdx) (imm : BitVec 12) : (Instr.sw rs2 rs1 imm).decoded.cls = .store := rfl
@[simp] theorem decoded_sw_aluOp (rs2 rs1 : RegIdx) (imm : BitVec 12) : (Instr.sw rs2 rs1 imm).decoded.aluOp = .add := rfl
@[simp] theorem decoded_sw_imm (rs2 rs1 : RegIdx) (imm : BitVec 12) : (Instr.sw rs2 rs1 imm).decoded.imm = sext imm := rfl
@[simp] theorem decoded_sw_rs2 (rs2 rs1 : RegIdx) (imm : BitVec 12) : (Instr.sw rs2 rs1 imm).decoded.rs2 = rs2 :=
    fieldRs2_encodeS ..
@[simp] theorem decoded_sw_rs1 (rs2 rs1 : RegIdx) (imm : BitVec 12) : (Instr.sw rs2 rs1 imm).decoded.rs1 = rs1 :=
    fieldRs1_encodeS ..

@[simp] theorem decoded_beq_cls (rs1 rs2 : RegIdx) (off : BitVec 13) :
    (Instr.beq rs1 rs2 off).decoded.cls = .branch := rfl
@[simp] theorem decoded_beq_aluOp (rs1 rs2 : RegIdx) (off : BitVec 13) :
    (Instr.beq rs1 rs2 off).decoded.aluOp = .add := rfl
@[simp] theorem decoded_beq_imm (rs1 rs2 : RegIdx) (off : BitVec 13) :
    (Instr.beq rs1 rs2 off).decoded.imm = sext off := rfl
@[simp] theorem decoded_beq_rs1 (rs1 rs2 : RegIdx) (off : BitVec 13) : (Instr.beq rs1 rs2 off).decoded.rs1 = rs1 :=
    fieldRs1_encodeB ..
@[simp] theorem decoded_beq_rs2 (rs1 rs2 : RegIdx) (off : BitVec 13) : (Instr.beq rs1 rs2 off).decoded.rs2 = rs2 :=
    fieldRs2_encodeB ..

@[simp] theorem decoded_bne_cls (rs1 rs2 : RegIdx) (off : BitVec 13) :
    (Instr.bne rs1 rs2 off).decoded.cls = .branch := rfl
@[simp] theorem decoded_bne_aluOp (rs1 rs2 : RegIdx) (off : BitVec 13) :
    (Instr.bne rs1 rs2 off).decoded.aluOp = .add := rfl
@[simp] theorem decoded_bne_imm (rs1 rs2 : RegIdx) (off : BitVec 13) :
    (Instr.bne rs1 rs2 off).decoded.imm = sext off := rfl
@[simp] theorem decoded_bne_rs1 (rs1 rs2 : RegIdx) (off : BitVec 13) : (Instr.bne rs1 rs2 off).decoded.rs1 = rs1 :=
    fieldRs1_encodeB ..
@[simp] theorem decoded_bne_rs2 (rs1 rs2 : RegIdx) (off : BitVec 13) : (Instr.bne rs1 rs2 off).decoded.rs2 = rs2 :=
    fieldRs2_encodeB ..

@[simp] theorem decoded_jal_cls (rd : RegIdx) (off : BitVec 21) : (Instr.jal rd off).decoded.cls = .jal := rfl
@[simp] theorem decoded_jal_aluOp (rd : RegIdx) (off : BitVec 21) : (Instr.jal rd off).decoded.aluOp = .add := rfl
@[simp] theorem decoded_jal_imm (rd : RegIdx) (off : BitVec 21) : (Instr.jal rd off).decoded.imm = sext off := rfl
@[simp] theorem decoded_jal_rd (rd : RegIdx) (off : BitVec 21) : (Instr.jal rd off).decoded.rd = rd := fieldRd_encodeJ ..

@[simp] theorem decoded_halt_cls (ignored : BitVec 25) : (Instr.halt ignored).decoded.cls = .halt := rfl
@[simp] theorem decoded_halt_aluOp (ignored : BitVec 25) : (Instr.halt ignored).decoded.aluOp = .add := rfl
@[simp] theorem decoded_halt_imm (ignored : BitVec 25) : (Instr.halt ignored).decoded.imm = 0#32 := rfl

end Sys2Proof
end

