-- ==== Sys2Proof/Laws/State.lean ====
section
/-! SUPPORT. One lemma per field for each named update of a state: what it holds after taking an error, after a commit, after
stopping fetch, at reset; and per field of an architectural update. -/

namespace Sys2Proof.Machine

section
variable (s : State) (m : MemOut) (o : IdOut) (f : Fault) (imem dmem : Memory) (a : ArchState) (r : RegIdx) (v t : Word)

@[simp] theorem raiseFault_x : (raiseFault s f).x = s.x := rfl
@[simp] theorem raiseFault_pc : (raiseFault s f).pc = s.pc := rfl
@[simp] theorem raiseFault_imem : (raiseFault s f).imem = s.imem := rfl
@[simp] theorem raiseFault_dmem : (raiseFault s f).dmem = s.dmem := rfl
@[simp] theorem raiseFault_ifNop : (raiseFault s f).ifNop = s.ifNop := rfl
@[simp] theorem raiseFault_ifid : (raiseFault s f).ifid = s.ifid := rfl
@[simp] theorem raiseFault_idex : (raiseFault s f).idex = s.idex := rfl
@[simp] theorem raiseFault_exmem : (raiseFault s f).exmem = s.exmem := rfl
@[simp] theorem raiseFault_memwb : (raiseFault s f).memwb = s.memwb := rfl
@[simp] theorem raiseFault_cycle : (raiseFault s f).cycle = s.cycle := rfl
@[simp] theorem raiseFault_retired : (raiseFault s f).retired = s.retired := rfl
@[simp] theorem raiseFault_halted : (raiseFault s f).halted = s.halted := rfl
@[simp] theorem raiseFault_fault : (raiseFault s f).fault = some f := rfl

@[simp] theorem commit_x : (commit s m o).x = wbRegs s := rfl
@[simp] theorem commit_pc : (commit s m o).pc = (ifStage s o).pc := rfl
@[simp] theorem commit_imem : (commit s m o).imem = s.imem := rfl
@[simp] theorem commit_dmem : (commit s m o).dmem = m.dmem := rfl
@[simp] theorem commit_ifNop : (commit s m o).ifNop = (ifStage s o).ifNop := rfl
@[simp] theorem commit_ifid : (commit s m o).ifid = (ifStage s o).ifid := rfl
@[simp] theorem commit_idex : (commit s m o).idex = o.latch := rfl
@[simp] theorem commit_exmem : (commit s m o).exmem = exLatch s := rfl
@[simp] theorem commit_memwb : (commit s m o).memwb = memLatch s m.result := rfl
@[simp] theorem commit_cycle : (commit s m o).cycle = s.cycle + 1 := rfl
@[simp] theorem commit_retired : (commit s m o).retired = wbRetired s := rfl
@[simp] theorem commit_halted : (commit s m o).halted = runDone s := rfl
@[simp] theorem commit_fault : (commit s m o).fault = s.fault := rfl

@[simp] theorem withFetchStopped_x : (withFetchStopped s).x = s.x := rfl
@[simp] theorem withFetchStopped_pc : (withFetchStopped s).pc = s.pc := rfl
@[simp] theorem withFetchStopped_imem : (withFetchStopped s).imem = s.imem := rfl
@[simp] theorem withFetchStopped_dmem : (withFetchStopped s).dmem = s.dmem := rfl
@[simp] theorem withFetchStopped_ifNop : (withFetchStopped s).ifNop = true := rfl
@[simp] theorem withFetchStopped_ifid : (withFetchStopped s).ifid = IfId.bubble := rfl
@[simp] theorem withFetchStopped_idex : (withFetchStopped s).idex = s.idex := rfl
@[simp] theorem withFetchStopped_exmem : (withFetchStopped s).exmem = s.exmem := rfl
@[simp] theorem withFetchStopped_memwb : (withFetchStopped s).memwb = s.memwb := rfl
@[simp] theorem withFetchStopped_cycle : (withFetchStopped s).cycle = s.cycle := rfl
@[simp] theorem withFetchStopped_retired : (withFetchStopped s).retired = s.retired := rfl
@[simp] theorem withFetchStopped_halted : (withFetchStopped s).halted = s.halted := rfl
@[simp] theorem withFetchStopped_fault : (withFetchStopped s).fault = s.fault := rfl

@[simp] theorem resetWith_x : (State.resetWith imem dmem).x = Vector.replicate 32 Config.rfReset := rfl
@[simp] theorem resetWith_pc : (State.resetWith imem dmem).pc = Config.pcReset := rfl
@[simp] theorem resetWith_imem : (State.resetWith imem dmem).imem = imem := rfl
@[simp] theorem resetWith_dmem : (State.resetWith imem dmem).dmem = dmem := rfl
@[simp] theorem resetWith_ifNop : (State.resetWith imem dmem).ifNop = false := rfl
@[simp] theorem resetWith_ifid : (State.resetWith imem dmem).ifid = IfId.bubble := rfl
@[simp] theorem resetWith_idex : (State.resetWith imem dmem).idex = IdEx.bubble := rfl
@[simp] theorem resetWith_exmem : (State.resetWith imem dmem).exmem = ExMem.bubble := rfl
@[simp] theorem resetWith_memwb : (State.resetWith imem dmem).memwb = MemWb.bubble := rfl
@[simp] theorem resetWith_cycle : (State.resetWith imem dmem).cycle = 0 := rfl
@[simp] theorem resetWith_retired : (State.resetWith imem dmem).retired = 0 := rfl
@[simp] theorem resetWith_halted : (State.resetWith imem dmem).halted = false := rfl
@[simp] theorem resetWith_fault : (State.resetWith imem dmem).fault = none := rfl

@[simp] theorem archState_setReg_x : (a.setReg r v).x = writeReg a.x r v := rfl
@[simp] theorem archState_setReg_pc : (a.setReg r v).pc = a.pc := rfl
@[simp] theorem archState_setReg_imem : (a.setReg r v).imem = a.imem := rfl
@[simp] theorem archState_setReg_dmem : (a.setReg r v).dmem = a.dmem := rfl
@[simp] theorem archState_goto_x : (a.goto t).x = a.x := rfl
@[simp] theorem archState_goto_pc : (a.goto t).pc = t := rfl
@[simp] theorem archState_goto_imem : (a.goto t).imem = a.imem := rfl
@[simp] theorem archState_goto_dmem : (a.goto t).dmem = a.dmem := rfl
@[simp] theorem archState_advance_x : (a.advance).x = a.x := rfl
@[simp] theorem archState_advance_pc : (a.advance).pc = nextPc a.pc := rfl
@[simp] theorem archState_advance_imem : (a.advance).imem = a.imem := rfl
@[simp] theorem archState_advance_dmem : (a.advance).dmem = a.dmem := rfl

@[simp] theorem state_arch_x : s.arch.x = s.x := rfl
@[simp] theorem state_arch_pc : s.arch.pc = s.pc := rfl
@[simp] theorem state_arch_imem : s.arch.imem = s.imem := rfl
@[simp] theorem state_arch_dmem : s.arch.dmem = s.dmem := rfl

@[simp] theorem ifId_bubble_nop : IfId.bubble.nop = true := rfl
@[simp] theorem idEx_bubble_nop : IdEx.bubble.nop = true := rfl
@[simp] theorem exMem_bubble_nop : ExMem.bubble.nop = true := rfl
@[simp] theorem memWb_bubble_nop : MemWb.bubble.nop = true := rfl

@[simp] theorem memory_setByte_size (m : Memory) (k : Nat) (b : Byte) : (m.setByte k b).size = m.size := rfl
@[simp] theorem memory_setWordAt_size (m : Memory) (k : Nat) (w : Word) : (m.setWordAt k w).size = m.size := rfl
@[simp] theorem memory_blank_size (n : Nat) : (Memory.blank n).size = n := rfl
@[simp] theorem memory_blank_cells (n : Nat) : (Memory.blank n).cells = [] := rfl

variable (w : Word)

@[simp] theorem placeInstruction_x : (placeInstruction s w).x = s.x := rfl
@[simp] theorem placeInstruction_pc : (placeInstruction s w).pc = nextPc s.pc := rfl
@[simp] theorem placeInstruction_imem : (placeInstruction s w).imem = (s.imem.holding s.pc).setWordAt s.pc.toNat w := rfl
@[simp] theorem placeInstruction_dmem : (placeInstruction s w).dmem = s.dmem := rfl
@[simp] theorem placeInstruction_ifNop : (placeInstruction s w).ifNop = false := rfl
@[simp] theorem placeInstruction_ifid : (placeInstruction s w).ifid = { nop := false, pc := s.pc, instr := w } := rfl
@[simp] theorem placeInstruction_idex : (placeInstruction s w).idex = s.idex := rfl
@[simp] theorem placeInstruction_exmem : (placeInstruction s w).exmem = s.exmem := rfl
@[simp] theorem placeInstruction_memwb : (placeInstruction s w).memwb = s.memwb := rfl
@[simp] theorem placeInstruction_retired : (placeInstruction s w).retired = s.retired := rfl
@[simp] theorem placeInstruction_halted : (placeInstruction s w).halted = false := rfl
@[simp] theorem placeInstruction_fault : (placeInstruction s w).fault = none := rfl
@[simp] theorem withFetchWord_eq (n k : Nat) : s.withFetchWord n k = placeInstruction s (tableWord n k) := rfl
@[simp] theorem holding_cells (m : Memory) : (m.holding w).cells = m.cells := rfl
@[simp] theorem holding_size (m : Memory) : (m.holding w).size = max m.size (w.toNat + 4) := rfl

end

end Sys2Proof.Machine
end

