-- ==== Sys2Proof/Laws/Memory.lean ====
section
/-! SUPPORT. What the memory operations do, byte by byte, and that every one of them keeps the canonical form. -/

namespace Sys2Proof.Machine

/-- The cells of a memory without its size bound: addresses strictly rising, no unlisted byte listed. -/
abbrev Canonical (l : List Host.Cell) : Prop :=
  l.Pairwise (fun c d => c.1 < d.1) ∧ ∀ c ∈ l, c.2 ≠ Config.unlistedByte

theorem lookupCell_eq_unlisted (l : List Host.Cell) (a : Nat) (h : ∀ c ∈ l, c.1 ≠ a) :
    lookupCell l a = Config.unlistedByte := by
  induction l with
  | nil => rfl
  | cons c rest ih =>
    simp only [lookupCell, h c (by simp), if_false]
    exact ih (fun d hd => h d (by simp [hd]))

/-- Everything a byte write does to the cells, seen through reads. -/
theorem lookupCell_insertCell (l : List Host.Cell) (hl : l.Pairwise (fun c d => c.1 < d.1)) (a k : Nat) (b : Byte) :
    lookupCell (insertCell l a b) k = if k = a then b else lookupCell l k := by
  induction l with
  | nil =>
    by_cases hk : k = a
    · subst hk
      by_cases hb : b = Config.unlistedByte <;> simp [insertCell, lookupCell, hb]
    · have hk' : ¬ a = k := fun e => hk e.symm
      by_cases hb : b = Config.unlistedByte <;> simp [insertCell, lookupCell, hb, hk, hk']
  | cons c rest ih =>
    obtain ⟨hc, hr⟩ := List.pairwise_cons.mp hl
    have hlow : ∀ j ≤ c.1, lookupCell rest j = Config.unlistedByte := fun j h =>
      lookupCell_eq_unlisted rest j (fun d hd => by have := hc d hd; omega)
    have ih' := ih hr
    simp only [insertCell]
    by_cases h1 : a < c.1
    · have h3 : ¬ c.1 = a := by omega
      by_cases hk : k = a
      · subst hk
        by_cases hb : b = Config.unlistedByte <;> simp [h1, hb, lookupCell, h3, hlow k (by omega)]
      · have hk' : ¬ a = k := fun e => hk e.symm
        by_cases hb : b = Config.unlistedByte <;> simp [h1, hb, hk, hk', lookupCell]
    · by_cases h2 : a = c.1
      · subst h2
        by_cases hk : k = c.1
        · subst hk
          by_cases hb : b = Config.unlistedByte <;> simp [hb, lookupCell, hlow]
        · have hk' : ¬ c.1 = k := fun e => hk e.symm
          by_cases hb : b = Config.unlistedByte <;> simp [hb, hk, hk', lookupCell]
      · by_cases hk : k = a
        · subst hk
          simp [h1, h2, lookupCell, ih', Ne.symm h2]
        · simp [h1, h2, lookupCell, ih', hk]

theorem mem_insertCell (l : List Host.Cell) (a : Nat) (b : Byte) (c : Host.Cell) (h : c ∈ insertCell l a b) :
    c = (a, b) ∧ b ≠ Config.unlistedByte ∨ c ∈ l := by
  induction l with
  | nil =>
    by_cases hb : b = Config.unlistedByte
    · simp [insertCell, hb] at h
    · simp only [insertCell, hb, if_false, List.mem_singleton] at h
      exact .inl ⟨h, hb⟩
  | cons d rest ih =>
    unfold insertCell at h
    by_cases h1 : a < d.1
    · by_cases hb : b = Config.unlistedByte
      · simp only [h1, hb, if_true] at h
        exact .inr h
      · simp only [h1, hb, if_true, if_false, List.mem_cons] at h
        rcases h with rfl | h
        · exact .inl ⟨rfl, hb⟩
        · exact .inr (by simpa using h)
    · by_cases h2 : a = d.1
      · by_cases hb : b = Config.unlistedByte
        · simp only [h1, hb, if_true, if_false, if_pos h2] at h
          exact .inr (by simp [h])
        · simp only [h1, hb, if_false, if_pos h2, List.mem_cons] at h
          rcases h with rfl | h
          · exact .inl ⟨rfl, hb⟩
          · exact .inr (by simp [h])
      · simp only [h1, h2, if_false, List.mem_cons] at h
        rcases h with rfl | h
        · exact .inr (by simp)
        · rcases ih h with h' | h'
          · exact .inl h'
          · exact .inr (by simp [h'])

theorem insertCell_canonical (l : List Host.Cell) (hl : Canonical l) (a : Nat) (b : Byte) : Canonical (insertCell l a b) := by
  refine ⟨?_, fun c hc => ?_⟩
  · have hp := hl.1
    clear hl
    induction l with
    | nil =>
      by_cases hb : b = Config.unlistedByte <;> simp [insertCell, hb]
    | cons d rest ih =>
      obtain ⟨hd, hr⟩ := List.pairwise_cons.mp hp
      unfold insertCell
      by_cases h1 : a < d.1
      · by_cases hb : b = Config.unlistedByte
        · simpa [h1, hb] using hp
        · simp only [h1, hb, if_true, if_false]
          refine List.pairwise_cons.mpr ⟨fun c hc => ?_, hp⟩
          rcases List.mem_cons.mp hc with rfl | hc
          · exact h1
          · exact Nat.lt_trans h1 (hd c hc)
      · by_cases h2 : a = d.1
        · by_cases hb : b = Config.unlistedByte
          · simpa [h1, h2, hb] using hr
          · simp only [h1, hb, if_false, if_pos h2]
            exact List.pairwise_cons.mpr ⟨fun c hc => h2 ▸ hd c hc, hr⟩
        · simp only [h1, h2, if_false]
          refine List.pairwise_cons.mpr ⟨fun c hc => ?_, ih hr⟩
          rcases mem_insertCell rest a b c hc with ⟨rfl, _⟩ | hc
          · show d.1 < a
            omega
          · exact hd c hc
  · rcases mem_insertCell l a b c hc with ⟨rfl, hb⟩ | hc
    · exact hb
    · exact hl.2 c hc

theorem Memory.canonical_of_wf {m : Memory} (h : m.wf) : Canonical m.cells := ⟨h.1, fun c hc => (h.2.1 c hc).2⟩

/-- A byte write keeps the canonical form. -/
theorem Memory.setByte_wf {m : Memory} (h : m.wf) (a : Nat) (b : Byte) (ha : a < m.size) : (m.setByte a b).wf := by
  have hc := insertCell_canonical m.cells (Memory.canonical_of_wf h) a b
  refine ⟨hc.1, fun c hcm => ⟨?_, hc.2 c hcm⟩, h.2.2⟩
  rcases mem_insertCell m.cells a b c hcm with ⟨rfl, _⟩ | hcm
  · exact ha
  · exact (h.2.1 c hcm).1

/-- Everything a byte write does, seen through reads. -/
theorem Memory.byteAt_setByte {m : Memory} (h : Canonical m.cells) (a k : Nat) (b : Byte) :
    (m.setByte a b).byteAt k = if k = a then b else m.byteAt k :=
  lookupCell_insertCell m.cells h.1 a k b

theorem Memory.setByte_canonical {m : Memory} (h : Canonical m.cells) (a : Nat) (b : Byte) :
    Canonical (m.setByte a b).cells :=
  insertCell_canonical m.cells h a b

/-- A word write keeps the canonical form. -/
theorem Memory.setWordAt_wf {m : Memory} (h : m.wf) (a : Nat) (v : Word) (ha : a + 3 < m.size) : (m.setWordAt a v).wf := by
  unfold Memory.setWordAt
  have h1 := Memory.setByte_wf h a (byteOfWord v 0) (by omega)
  have h2 := Memory.setByte_wf h1 (a + 1) (byteOfWord v 1) (by rw [memory_setByte_size]; omega)
  have h3 := Memory.setByte_wf h2 (a + 2) (byteOfWord v 2) (by simp only [memory_setByte_size]; omega)
  exact Memory.setByte_wf h3 (a + 3) (byteOfWord v 3) (by simpa only [memory_setByte_size] using ha)

/-- Everything a word write does, seen through reads of single bytes. -/
theorem Memory.byteAt_setWordAt {m : Memory} (h : Canonical m.cells) (a k : Nat) (v : Word) :
    (m.setWordAt a v).byteAt k =
      if k = a + 3 then byteOfWord v 3 else if k = a + 2 then byteOfWord v 2
      else if k = a + 1 then byteOfWord v 1 else if k = a then byteOfWord v 0 else m.byteAt k := by
  have h1 := Memory.setByte_canonical h a (byteOfWord v 0)
  have h2 := Memory.setByte_canonical h1 (a + 1) (byteOfWord v 1)
  have h3 := Memory.setByte_canonical h2 (a + 2) (byteOfWord v 2)
  unfold Memory.setWordAt
  rw [Memory.byteAt_setByte h3, Memory.byteAt_setByte h2, Memory.byteAt_setByte h1, Memory.byteAt_setByte h]

/-- Everything `writeWord` can do: in bounds, it sets the word. -/
theorem Memory.writeWord_eq_some {m m' : Memory} {a v : Word} :
    m.writeWord a v = some m' ↔ m.inBounds a = true ∧ m' = m.setWordAt a.toNat v := by
  unfold Memory.writeWord
  by_cases h : m.inBounds a = true
  · simp only [h, if_true, Option.some.injEq, true_and]
    exact eq_comm
  · simp [h]

/-- Everything `readWord` can do: in bounds, it gives the word. -/
theorem Memory.readWord_eq_some {m : Memory} {a v : Word} :
    m.readWord a = some v ↔ m.inBounds a = true ∧ v = m.wordAt a.toNat := by
  unfold Memory.readWord
  by_cases h : m.inBounds a = true
  · simp only [h, if_true, Option.some.injEq, true_and]
    exact eq_comm
  · simp [h]

/-- `writeWord` keeps the canonical form. -/
theorem Memory.writeWord_wf {m m' : Memory} {a v : Word} (h : m.wf) (hw : m.writeWord a v = some m') : m'.wf := by
  obtain ⟨hb, rfl⟩ := Memory.writeWord_eq_some.mp hw
  exact Memory.setWordAt_wf h _ _ (by simpa [Memory.inBounds] using hb)

/-- Growing a memory to hold a word keeps the canonical form, where the grown size is allowed. -/
theorem Memory.holding_wf {m : Memory} {a : Word} (h : m.wf) (ha : a.toNat + 4 ≤ Config.memSizeLimit) : (m.holding a).wf :=
  ⟨h.1, fun c hc => ⟨Nat.lt_of_lt_of_le (h.2.1 c hc).1 (Nat.le_max_left _ _), (h.2.1 c hc).2⟩, Nat.max_le.mpr ⟨h.2.2, ha⟩⟩

/-- An empty memory of an allowed size is in canonical form. -/
theorem Memory.blank_wf {n : Nat} (h : n ≤ Config.memSizeLimit) : (Memory.blank n).wf :=
  ⟨List.Pairwise.nil, fun _ hc => absurd hc (by simp), h⟩

/-- The memories of the reset state are in canonical form. -/
theorem reset_memories_wf : State.reset.imem.wf ∧ State.reset.dmem.wf :=
  ⟨Memory.blank_wf (Nat.le_refl _), Memory.blank_wf (Nat.le_refl _)⟩

theorem mem_cellsFrom (bs : List Byte) (a : Nat) (c : Host.Cell) (h : c ∈ cellsFrom a bs) :
    a ≤ c.1 ∧ c.1 < a + bs.length ∧ c.2 ≠ Config.unlistedByte := by
  induction bs generalizing a with
  | nil => simp [cellsFrom] at h
  | cons b rest ih =>
    unfold cellsFrom at h
    by_cases hb : b = Config.unlistedByte
    · simp only [hb, if_true] at h
      have := ih (a + 1) h
      simp only [List.length_cons]
      exact ⟨by omega, by omega, this.2.2⟩
    · simp only [hb, if_false, List.mem_cons] at h
      rcases h with rfl | h
      · exact ⟨Nat.le_refl _, by simp, hb⟩
      · have := ih (a + 1) h
        simp only [List.length_cons]
        exact ⟨by omega, by omega, this.2.2⟩

theorem cellsFrom_pairwise (bs : List Byte) (a : Nat) : (cellsFrom a bs).Pairwise (fun c d => c.1 < d.1) := by
  induction bs generalizing a with
  | nil => simp [cellsFrom]
  | cons b rest ih =>
    unfold cellsFrom
    by_cases hb : b = Config.unlistedByte
    · simpa [hb] using ih (a + 1)
    · simp only [hb, if_false]
      refine List.pairwise_cons.mpr ⟨fun c hc => ?_, ih (a + 1)⟩
      have := (mem_cellsFrom rest (a + 1) c hc).1
      show a < c.1
      omega

/-- A loaded memory is in canonical form. -/
theorem Memory.ofBytes_wf (bs : List Byte) (h : bs.length ≤ Config.memSizeLimit) : (Memory.ofBytes bs).wf :=
  ⟨cellsFrom_pairwise bs 0, fun c hc => by
    have := mem_cellsFrom bs 0 c hc
    exact ⟨by simpa [Memory.ofBytes] using this.2.1, this.2.2⟩, h⟩

end Sys2Proof.Machine
end

