-- ==== Sys2Proof/Laws/Registers.lean ====
section
/-! SUPPORT. What the register operations do (R10, R21). -/

namespace Sys2Proof.Machine

@[simp] theorem readReg_zero (x : Vector Word 32) : readReg x 0#5 = 0#32 := by simp [readReg]

@[simp] theorem writeReg_zero (x : Vector Word 32) (v : Word) : writeReg x 0#5 v = x := by simp [writeReg]

/-- Everything a register write does, seen through reads: the written register other than 0 reads the value, every other
register reads as before. -/
theorem readReg_writeReg (x : Vector Word 32) (r q : RegIdx) (v : Word) :
    readReg (writeReg x r v) q = if q = r ∧ r ≠ 0#5 then v else readReg x q := by
  by_cases hr : r = 0#5
  · simp [hr]
  · by_cases hq : q = 0#5
    · subst hq
      have hr' : ¬ 0#5 = r := fun e => hr e.symm
      simp [hr']
    · by_cases h : q = r
      · subst h
        simp [readReg, writeReg, hr]
      · have hne : r.toNat ≠ q.toNat := fun e => h (BitVec.eq_of_toNat_eq e.symm)
        simp [readReg, writeReg, hr, hq, h, hne]

/-- No write reaches cell 0. -/
@[simp] theorem writeReg_cell_zero (x : Vector Word 32) (r : RegIdx) (v : Word) : (writeReg x r v)[0] = x[0] := by
  by_cases hr : r = 0#5
  · simp [hr]
  · have hne : r.toNat ≠ 0 := fun e => hr (BitVec.eq_of_toNat_eq (by simpa using e))
    simp [writeReg, hr, hne]

/-- Register files whose cell 0 is 0 are equal when every register reads the same in both. -/
theorem regs_ext (x y : Vector Word 32) (hx : x[0] = 0#32) (hy : y[0] = 0#32) (h : ∀ r, readReg x r = readReg y r) : x = y := by
  apply Vector.ext
  intro i hi
  by_cases h0 : i = 0
  · subst h0
    rw [hx, hy]
  · have hlt : i < 2 ^ 5 := hi
    have hn : (BitVec.ofNat 5 i).toNat = i := Nat.mod_eq_of_lt hlt
    have hz : BitVec.ofNat 5 i ≠ 0#5 := fun e => h0 (by simpa [hn] using congrArg BitVec.toNat e)
    simpa [readReg, hz, hn, Nat.mod_eq_of_lt hlt] using h (BitVec.ofNat 5 i)

end Sys2Proof.Machine
end

