-- ==== Sys2Proof/Laws/Pipeline.lean ====
section
/-! SUPPORT. What each shared operation of the pipeline can do, said once: supplies, load-use, the five stages, the tick, the
dispatch, the step. -/

namespace Sys2Proof.Machine

/-! ### Matching and forwarding -/

theorem IdEx.supplies_iff {l : IdEx} {r : RegIdx} :
    l.supplies r = true ↔ l.nop = false ∧ l.writesReg = true ∧ l.rd = r ∧ r ≠ 0#5 := by
  simp [IdEx.supplies, and_assoc]

theorem ExMem.supplies_iff {l : ExMem} {r : RegIdx} :
    l.supplies r = true ↔ l.nop = false ∧ l.writesReg = true ∧ l.rd = r ∧ r ≠ 0#5 := by
  simp [ExMem.supplies, and_assoc]

theorem MemWb.supplies_iff {l : MemWb} {r : RegIdx} :
    l.supplies r = true ↔ l.nop = false ∧ l.writesReg = true ∧ l.rd = r ∧ r ≠ 0#5 := by
  simp [MemWb.supplies, and_assoc]

@[simp] theorem IdEx.supplies_zero (l : IdEx) : l.supplies 0#5 = false := by simp [IdEx.supplies]
@[simp] theorem ExMem.supplies_zero (l : ExMem) : l.supplies 0#5 = false := by simp [ExMem.supplies]
@[simp] theorem MemWb.supplies_zero (l : MemWb) : l.supplies 0#5 = false := by simp [MemWb.supplies]

theorem IdEx.supplies_of_nop {l : IdEx} (h : l.nop = true) (r : RegIdx) : l.supplies r = false := by simp [IdEx.supplies, h]
theorem ExMem.supplies_of_nop {l : ExMem} (h : l.nop = true) (r : RegIdx) : l.supplies r = false := by simp [ExMem.supplies, h]
theorem MemWb.supplies_of_nop {l : MemWb} (h : l.nop = true) (r : RegIdx) : l.supplies r = false := by simp [MemWb.supplies, h]

/-- Everything the load-use detector says. -/
theorem loadUse_iff {s : State} {d : Decoded} :
    loadUse s d = true ↔ s.idex.nop = false ∧ s.idex.isLoad = true ∧ s.idex.rd ≠ 0#5 ∧
      (d.cls.readsRs1 = true ∧ d.rs1 = s.idex.rd ∨ d.cls.readsRs2 = true ∧ d.rs2 = s.idex.rd) := by
  simp [loadUse, and_assoc]

theorem loadUse_of_nop {s : State} (h : s.idex.nop = true) (d : Decoded) : loadUse s d = false := by simp [loadUse, h]

theorem loadUse_of_not_load {s : State} (h : s.idex.isLoad = false) (d : Decoded) : loadUse s d = false := by
  simp [loadUse, h]

/-! ### WB -/

/-- Everything WB does to the registers, seen through reads: this is what the write-back bypass of ID reads (R197). -/
theorem readReg_wbRegs (s : State) (q : RegIdx) : readReg (wbRegs s) q = regRead s q := by
  unfold wbRegs regRead
  by_cases h : s.memwb.supplies q = true
  · obtain ⟨h1, h2, h3, h4⟩ := MemWb.supplies_iff.mp h
    simp [h, h1, h2, h3, readReg_writeReg, h4]
  · by_cases hw : (!s.memwb.nop && s.memwb.writesReg) = true
    · have hne : ¬ (q = s.memwb.rd ∧ s.memwb.rd ≠ 0#5) := by
        rintro ⟨rfl, h0⟩
        simp only [Bool.and_eq_true, Bool.not_eq_true'] at hw
        exact h (MemWb.supplies_iff.mpr ⟨hw.1, hw.2, rfl, h0⟩)
      rw [if_pos hw, readReg_writeReg, if_neg hne, if_neg h]
    · rw [if_neg hw, if_neg h]

/-- WB never touches cell 0. -/
@[simp] theorem wbRegs_cell_zero (s : State) : (wbRegs s)[0] = s.x[0] := by
  unfold wbRegs
  split <;> simp

theorem wbRegs_of_nop {s : State} (h : s.memwb.nop = true) : wbRegs s = s.x := by simp [wbRegs, h]

theorem wbRetired_of_nop {s : State} (h : s.memwb.nop = true) : wbRetired s = s.retired := by simp [wbRetired, h]

theorem wbRetired_le (s : State) : s.retired ≤ wbRetired s ∧ wbRetired s ≤ s.retired + 1 := by
  unfold wbRetired
  split <;> omega

/-! ### MEM -/

/-- Everything a word write does, seen through reads of single bytes, in the claims' terms. -/
theorem Memory.byteAt_setWordAt_eq {m : Memory} (h : m.wf) (a v : Word) (j : Nat) :
    (m.setWordAt a.toNat v).byteAt j = byteAfterWrite m a v j := by
  rw [Memory.byteAt_setWordAt (Memory.canonical_of_wf h)]
  unfold byteAfterWrite
  split_ifs <;> first | omega | (subst_vars; congr 1; omega) | rfl

theorem byteAfterWrite_inside (m : Memory) (a v : Word) {k : Nat} (h : k < 4) :
    byteAfterWrite m a v (a.toNat + k) = byteOfWord v k := by
  rw [byteAfterWrite, if_pos (by omega), Nat.add_sub_cancel_left]

theorem byteAfterWrite_outside (m : Memory) (a v : Word) {j : Nat} (h : j < a.toNat ∨ a.toNat + 4 ≤ j) :
    byteAfterWrite m a v j = m.byteAt j := by
  rw [byteAfterWrite, if_neg (by omega)]

theorem memStage_of_nop {s : State} (h : s.exmem.nop = true) : memStage s = some { result := 0#32, dmem := s.dmem } := by
  simp [memStage, h]

/-- Everything MEM can do when it does not raise. -/
theorem memStage_eq_some {s : State} {m : MemOut} (h : memStage s = some m) :
    (s.exmem.nop = true ∧ m = { result := 0#32, dmem := s.dmem }) ∨
    (s.exmem.nop = false ∧ s.exmem.isLoad = true ∧ s.dmem.inBounds s.exmem.aluResult = true ∧
      m = { result := s.dmem.wordAt s.exmem.aluResult.toNat, dmem := s.dmem }) ∨
    (s.exmem.nop = false ∧ s.exmem.isLoad = false ∧ s.exmem.isStore = true ∧ s.dmem.inBounds s.exmem.aluResult = true ∧
      m = { result := s.exmem.aluResult, dmem := s.dmem.setWordAt s.exmem.aluResult.toNat s.exmem.storeData }) ∨
    (s.exmem.nop = false ∧ s.exmem.isLoad = false ∧ s.exmem.isStore = false ∧
      m = { result := s.exmem.aluResult, dmem := s.dmem }) := by
  unfold memStage at h
  by_cases h1 : s.exmem.nop = true
  · simp only [h1, if_true, Option.some.injEq] at h
    exact .inl ⟨h1, h.symm⟩
  · simp only [h1] at h
    simp only [Bool.not_eq_true] at h1
    by_cases h2 : s.exmem.isLoad = true
    · simp only [h2, if_true, Memory.readWord] at h
      by_cases hb : s.dmem.inBounds s.exmem.aluResult = true
      · simp only [hb, if_true, Bool.false_eq_true, if_false, Option.some.injEq] at h
        exact .inr (.inl ⟨h1, h2, hb, h.symm⟩)
      · simp [hb] at h
    · simp only [Bool.not_eq_true] at h2
      by_cases h3 : s.exmem.isStore = true
      · simp only [h2, h3, if_true, Memory.writeWord] at h
        by_cases hb : s.dmem.inBounds s.exmem.aluResult = true
        · simp only [hb, if_true, Bool.false_eq_true, if_false, Option.some.injEq] at h
          exact .inr (.inr (.inl ⟨h1, h2, h3, hb, h.symm⟩))
        · simp [hb] at h
      · simp only [Bool.not_eq_true] at h3
        simp only [h2, h3, Bool.false_eq_true, if_false, Option.some.injEq] at h
        exact .inr (.inr (.inr ⟨h1, h2, h3, h.symm⟩))

/-- MEM raises exactly for a LW or SW whose address is out of bounds (R254). -/
theorem memStage_eq_none {s : State} :
    memStage s = none ↔ s.exmem.nop = false ∧ (s.exmem.isLoad = true ∨ s.exmem.isStore = true) ∧
      s.dmem.inBounds s.exmem.aluResult = false := by
  unfold memStage Memory.readWord Memory.writeWord
  cases s.exmem.nop <;> cases s.exmem.isLoad <;> cases s.exmem.isStore <;>
    cases s.dmem.inBounds s.exmem.aluResult <;> simp

/-- MEM never changes the size of data memory. -/
theorem memStage_size {s : State} {m : MemOut} (h : memStage s = some m) : m.dmem.size = s.dmem.size := by
  rcases memStage_eq_some h with ⟨_, rfl⟩ | ⟨_, _, _, rfl⟩ | ⟨_, _, _, _, rfl⟩ | ⟨_, _, _, rfl⟩
  · rfl
  · rfl
  · exact memory_setWordAt_size ..
  · rfl

/-- MEM keeps the canonical form of data memory. -/
theorem memStage_wf {s : State} {m : MemOut} (hw : s.dmem.wf) (h : memStage s = some m) : m.dmem.wf := by
  rcases memStage_eq_some h with ⟨_, rfl⟩ | ⟨_, _, _, rfl⟩ | ⟨_, _, _, hb, rfl⟩ | ⟨_, _, _, rfl⟩
  · exact hw
  · exact hw
  · exact Memory.setWordAt_wf hw _ _ (by simpa [Memory.inBounds] using hb)
  · exact hw

theorem memLatch_of_nop {s : State} (h : s.exmem.nop = true) (v : Word) : memLatch s v = MemWb.bubble := by simp [memLatch, h]

theorem memLatch_of_busy {s : State} (h : s.exmem.nop = false) (v : Word) :
    memLatch s v = { nop := false, wrtData := v, rd := s.exmem.rd, writesReg := s.exmem.writesReg } := by simp [memLatch, h]

@[simp] theorem memLatch_nop (s : State) (v : Word) : (memLatch s v).nop = s.exmem.nop := by
  unfold memLatch
  cases s.exmem.nop <;> rfl

/-! ### EX -/

theorem exLatch_of_nop {s : State} (h : s.idex.nop = true) : exLatch s = ExMem.bubble := by simp [exLatch, h]

theorem exLatch_of_busy {s : State} (h : s.idex.nop = false) :
    exLatch s = { nop := false, aluResult := exResult s, storeData := exStoreData s, rd := s.idex.rd,
                  isLoad := s.idex.isLoad, isStore := s.idex.isStore, writesReg := s.idex.writesReg } := by
  simp [exLatch, h]

@[simp] theorem exLatch_nop (s : State) : (exLatch s).nop = s.idex.nop := by
  unfold exLatch
  cases s.idex.nop <;> rfl

/-! ### ID -/

theorem idIssue_held {s : State} {d : Decoded} (h : loadUse s d = true) (r : Option Word) : idIssue s d r = idHeld := by
  simp [idIssue, h]

theorem idIssue_sent {s : State} {d : Decoded} (h : loadUse s d = false) (r : Option Word) :
    idIssue s d r = { latch := idLatch s d, stall := false, redirect := r } := by
  simp [idIssue, h]

@[simp] theorem idNothing_latch : idNothing.latch = IdEx.bubble := rfl
@[simp] theorem idNothing_stall : idNothing.stall = false := rfl
@[simp] theorem idNothing_redirect : idNothing.redirect = none := rfl
@[simp] theorem idHeld_latch : idHeld.latch = IdEx.bubble := rfl
@[simp] theorem idHeld_stall : idHeld.stall = true := rfl

/-! ### IF -/

theorem ifStage_stall {s : State} {o : IdOut} (h : o.stall = true) :
    ifStage s o = { ifid := s.ifid, pc := s.pc, ifNop := s.ifNop } := by
  simp [ifStage, h]

theorem ifStage_redirect {s : State} {o : IdOut} {t : Word} (h : o.stall = false) (hr : o.redirect = some t) :
    ifStage s o = { ifid := IfId.bubble, pc := t, ifNop := false } := by
  simp [ifStage, h, hr]

theorem ifStage_fetch {s : State} {o : IdOut} (h : o.stall = false) (hr : o.redirect = none) : ifStage s o = ifFetch s := by
  simp [ifStage, h, hr]

@[simp] theorem ifStage_idNothing (s : State) : ifStage s idNothing = ifFetch s := rfl

@[simp] theorem ifStage_idHeld (s : State) : ifStage s idHeld = { ifid := s.ifid, pc := s.pc, ifNop := s.ifNop } := rfl

/-- Everything IF can do when nothing stalls or redirects it. -/
theorem ifFetch_cases (s : State) :
    ((s.ifNop = true ∨ fetchStopsAt s.imem s.pc = true) ∧ ifFetch s = ifStop s) ∨
    (s.ifNop = false ∧ ∃ w, s.imem.readWord s.pc = some w ∧ isHaltWord w = false ∧
      ifFetch s = { ifid := { nop := false, pc := s.pc, instr := w }, pc := nextPc s.pc, ifNop := false }) := by
  unfold ifFetch fetchStopsAt
  cases hn : s.ifNop with
  | true => exact .inl ⟨.inl rfl, rfl⟩
  | false =>
    cases hw : s.imem.readWord s.pc with
    | none => exact .inl ⟨.inr rfl, rfl⟩
    | some w =>
      cases hh : isHaltWord w with
      | true => exact .inl ⟨.inr hh, by simp [hh]⟩
      | false => exact .inr ⟨rfl, w, rfl, hh, by simp [hh]⟩

theorem ifFetch_of_stops {s : State} (h : fetchStopsAt s.imem s.pc = true) : ifFetch s = ifStop s := by
  rcases ifFetch_cases s with ⟨_, h'⟩ | ⟨_, w, hw, hh, _⟩
  · exact h'
  · simp [fetchStopsAt, hw, hh] at h

theorem ifFetch_of_stopped {s : State} (h : s.ifNop = true) : ifFetch s = ifStop s := by simp [ifFetch, h]

/-! ### The tick -/

/-- A tick in which MEM does not raise commits. -/
theorem tick_of_some {s : State} {m : MemOut} (h : memStage s = some m) (id : Wires → IdOut) :
    tick s id = .next (commit s m (id { exResult := exResult s, memResult := m.result })) := by
  simp [tick, h]

/-- A tick in which MEM raises leaves the record and nothing else. -/
theorem tick_of_none {s : State} (h : memStage s = none) (id : Wires → IdOut) :
    tick s id = .next (raiseFault s (memoryOutOfBoundsFault s)) := by
  simp [tick, h]

/-- Everything a tick can do. -/
theorem tick_cases (s : State) (id : Wires → IdOut) :
    (memStage s = none ∧ tick s id = .next (raiseFault s (memoryOutOfBoundsFault s))) ∨
    ∃ m, memStage s = some m ∧ tick s id = .next (commit s m (id { exResult := exResult s, memResult := m.result })) := by
  cases h : memStage s with
  | none => exact .inl ⟨rfl, tick_of_none h id⟩
  | some m => exact .inr ⟨m, rfl, tick_of_some h id⟩

/-! ### The dispatch -/

/-- What ID drives for each instruction. -/
def driven (i : Instr) (s : State) (w : Wires) : IdOut :=
  match i with
  | .beq _ _ _ =>
    idIssue s i.decoded (if fwdId s w i.decoded.rs1 == fwdId s w i.decoded.rs2 then some (s.ifid.pc + i.decoded.imm) else none)
  | .bne _ _ _ =>
    idIssue s i.decoded (if fwdId s w i.decoded.rs1 != fwdId s w i.decoded.rs2 then some (s.ifid.pc + i.decoded.imm) else none)
  | .jal _ _ => idIssue s i.decoded (some (s.ifid.pc + i.decoded.imm))
  | .halt _ => idNothing
  | .add _ _ _ | .sub _ _ _ | .xor _ _ _ | .or _ _ _ | .and _ _ _ | .addi _ _ _ | .xori _ _ _ | .ori _ _ _ | .andi _ _ _
  | .lw _ _ _ | .sw _ _ _ => idIssue s i.decoded none

/-- Every meaning is a tick, and differs from the others only in what ID drives. -/
theorem exec_eq_tick (i : Instr) (s : State) : exec i s = tick s (driven i s) := by
  cases i <;> rfl

/-- What ID drives is a bubble, a stall, or the instruction's latch with a redirect or none. -/
theorem driven_cases (i : Instr) (s : State) (w : Wires) :
    driven i s w = idNothing ∨ (loadUse s i.decoded = true ∧ driven i s w = idHeld) ∨
    (loadUse s i.decoded = false ∧ ∃ r, driven i s w = { latch := idLatch s i.decoded, stall := false, redirect := r }) := by
  have key : ∀ r, (loadUse s i.decoded = true ∧ idIssue s i.decoded r = idHeld) ∨
      (loadUse s i.decoded = false ∧
        idIssue s i.decoded r = { latch := idLatch s i.decoded, stall := false, redirect := r }) := fun r => by
    cases h : loadUse s i.decoded with
    | true => exact .inl ⟨rfl, idIssue_held h r⟩
    | false => exact .inr ⟨rfl, idIssue_sent h r⟩
  have key' : ∀ r, (loadUse s i.decoded = true ∧ idIssue s i.decoded r = idHeld) ∨
      (loadUse s i.decoded = false ∧ ∃ r',
        idIssue s i.decoded r = { latch := idLatch s i.decoded, stall := false, redirect := r' }) := fun r =>
    (key r).imp id (fun h => ⟨h.1, r, h.2⟩)
  cases i with
  | halt _ => exact .inl rfl
  | _ => exact .inr (key' _)

/-! ### The step -/

/-- Everything a step can do from a state that is not terminal. -/
theorem step_cases (s : State) (hf : s.fault = none) :
    (s.halted = true ∧ step s = .next s) ∨
    (s.halted = false ∧ s.cycle = Config.maxCycles ∧ step s = .next (limitReached s)) ∨
    (Running s ∧ s.ifid.nop = true ∧ step s = tickBubble s) ∨
    (Running s ∧ s.ifid.nop = false ∧ ∃ i, decodeWord s.ifid.instr = .ok i ∧ step s = exec i s) ∨
    (Running s ∧ s.ifid.nop = false ∧ (∃ e, decodeWord s.ifid.instr = .error e) ∧ step s = tickInvalid s) := by
  unfold step turn tickById
  simp only [hf]
  by_cases hh : s.halted = true
  · exact .inl ⟨hh, by simp [hh]⟩
  · have hh' : s.halted = false := by simpa using hh
    by_cases hc : s.cycle = Config.maxCycles
    · exact .inr (.inl ⟨hh', hc, by simp [hh', hc]⟩)
    · by_cases hn : s.ifid.nop = true
      · exact .inr (.inr (.inl ⟨⟨hf, hh', hc⟩, hn, by simp [hh', hc, hn]⟩))
      · have hn' : s.ifid.nop = false := by simpa using hn
        cases hd : decodeWord s.ifid.instr with
        | ok i => exact .inr (.inr (.inr (.inl ⟨⟨hf, hh', hc⟩, hn', i, rfl, by simp [hh', hc, hn']⟩)))
        | error e => exact .inr (.inr (.inr (.inr ⟨⟨hf, hh', hc⟩, hn', ⟨e, rfl⟩, by simp [hh', hc, hn']⟩)))

/-- Everything a step can lead to from a state that is not terminal: the state kept, an error's record, or a tick committed with
what ID drives in it. -/
theorem step_next {s t : State} (h : step s = .next t) :
    s.fault = none ∧
    ((s.halted = true ∧ t = s) ∨
     (s.halted = false ∧ ∃ f, t = raiseFault s f) ∨
     (Running s ∧ ∃ m, memStage s = some m ∧
       ((s.ifid.nop = true ∧ t = commit s m idNothing) ∨
        (s.ifid.nop = false ∧ ∃ i, decodeWord s.ifid.instr = .ok i ∧
          t = commit s m (driven i s { exResult := exResult s, memResult := m.result }))))) := by
  cases hf : s.fault with
  | some f => simp [step, turn, hf] at h
  | none =>
    refine ⟨rfl, ?_⟩
    rcases step_cases s hf with ⟨hh, e⟩ | ⟨hh, _, e⟩ | ⟨hr, hn, e⟩ | ⟨hr, hn, i, hd, e⟩ | ⟨hr, hn, _, e⟩ <;> rw [e] at h
    · exact .inl ⟨hh, (Host.Outcome.next.inj h).symm⟩
    · exact .inr (.inl ⟨hh, _, (Host.Outcome.next.inj h).symm⟩)
    · rcases tick_cases s (fun _ => idNothing) with ⟨_, e'⟩ | ⟨m, hm, e'⟩
      · exact .inr (.inl ⟨hr.2.1, _, (Host.Outcome.next.inj (h.symm.trans e'))⟩)
      · exact .inr (.inr ⟨hr, m, hm, .inl ⟨hn, Host.Outcome.next.inj (h.symm.trans e')⟩⟩)
    · rw [exec_eq_tick] at h
      rcases tick_cases s (driven i s) with ⟨_, e'⟩ | ⟨m, hm, e'⟩
      · exact .inr (.inl ⟨hr.2.1, _, (Host.Outcome.next.inj (h.symm.trans e'))⟩)
      · exact .inr (.inr ⟨hr, m, hm, .inr ⟨hn, i, hd, Host.Outcome.next.inj (h.symm.trans e')⟩⟩)
    · cases hm : memStage s with
      | none => exact .inr (.inl ⟨hr.2.1, memoryOutOfBoundsFault s, by simpa [tickInvalid, hm] using h.symm⟩)
      | some m => exact .inr (.inl ⟨hr.2.1, invalidOpcodeFault s, by simpa [tickInvalid, hm] using h.symm⟩)

/-! ### When a tick commits -/

theorem memRaises_iff {s : State} : MemRaises s ↔ memStage s = none := by
  rw [memStage_eq_none]
  simp [MemRaises, Memory.inBounds]

theorem memStage_of_not_memRaises {s : State} (h : ¬ MemRaises s) : ∃ m, memStage s = some m := by
  cases e : memStage s with
  | none => exact absurd (memRaises_iff.mpr e) h
  | some m => exact ⟨m, rfl⟩

theorem loadUseHazard_iff {s : State} {d : Decoded} : LoadUseHazard s d ↔ loadUse s d = true := loadUse_iff.symm

theorem loadUse_of_not_hazard {s : State} {d : Decoded} (h : ¬ LoadUseHazard s d) : loadUse s d = false := by
  rw [loadUseHazard_iff] at h
  simpa using h

/-- Everything a committing step can do: the tick behind a bubble, or the meaning of the instruction in ID. -/
theorem step_of_commits {s : State} (h : Commits s) :
    ∃ m, memStage s = some m ∧
      ((s.ifid.nop = true ∧ step s = .next (commit s m idNothing)) ∨
       (s.ifid.nop = false ∧ ∃ i, decodeWord s.ifid.instr = .ok i ∧ step s = exec i s ∧
         step s = .next (commit s m (driven i s { exResult := exResult s, memResult := m.result })))) := by
  obtain ⟨hr, hm, hi⟩ := h
  obtain ⟨m, e⟩ := memStage_of_not_memRaises hm
  refine ⟨m, e, ?_⟩
  rcases step_cases s hr.1 with ⟨hh, _⟩ | ⟨_, hc, _⟩ | ⟨_, hn, e1⟩ | ⟨_, hn, i, hd, e1⟩ | ⟨_, hn, ⟨er, hd⟩, _⟩
  · simp [hr.2.1] at hh
  · exact absurd hc hr.2.2
  · exact .inl ⟨hn, by rw [e1, tickBubble, tick_of_some e]⟩
  · exact .inr ⟨hn, i, hd, e1, by rw [e1, exec_eq_tick, tick_of_some e]⟩
  · rcases decodeWord_total s.ifid.instr with ⟨i, h⟩ | h
    · simp [h] at hd
    · exact absurd ⟨hn, h⟩ hi

/-- Every committing step is a commit of some ID output. -/
theorem step_of_commits' {s : State} (h : Commits s) : ∃ m o, memStage s = some m ∧ step s = .next (commit s m o) := by
  obtain ⟨m, e, ⟨_, h⟩ | ⟨_, i, _, _, h⟩⟩ := step_of_commits h
  · exact ⟨m, _, e, h⟩
  · exact ⟨m, _, e, h⟩

/-- The step behind a bubble in ID. -/
theorem step_of_bubble {s : State} {m : MemOut} (hr : Running s) (hn : s.ifid.nop = true) (e : memStage s = some m) :
    step s = .next (commit s m idNothing) := by
  rcases step_cases s hr.1 with ⟨hh, _⟩ | ⟨_, hc, _⟩ | ⟨_, _, e1⟩ | ⟨_, hn', _⟩ | ⟨_, hn', _⟩
  · simp [hr.2.1] at hh
  · exact absurd hc hr.2.2
  · rw [e1, tickBubble, tick_of_some e]
  · simp [hn] at hn'
  · simp [hn] at hn'

/-! ### Runs -/

@[simp] theorem runSteps_zero (s : State) : runSteps 0 s = .next s := rfl

/-- A run goes on from a step's next state. -/
theorem runSteps_of_next {s t : State} (h : step s = .next t) (k : Nat) : runSteps (k + 1) s = runSteps k t := by
  have h' : Host.Core.step Sys2Proof.core s = .next t := h
  simp only [runSteps, Host.Core.run, h']
  rfl

/-- A run stops at a step's fault. -/
theorem runSteps_of_fault {s : State} {f : Fault} (h : step s = .fault f) (k : Nat) : runSteps (k + 1) s = .fault f := by
  have h' : Host.Core.step Sys2Proof.core s = .fault f := h
  simp only [runSteps, Host.Core.run, h']
  rfl

/-- Everything one more step can do to a run that answers a next state. -/
theorem runSteps_succ_next {k : Nat} {s t : State} (h : runSteps (k + 1) s = .next t) :
    ∃ u, step s = .next u ∧ runSteps k u = .next t := by
  cases e : step s with
  | next u => exact ⟨u, rfl, by rw [← runSteps_of_next e]; exact h⟩
  | fault f => rw [runSteps_of_fault e] at h; cases h
  | refused r =>
    have e' : Host.Core.step Sys2Proof.core s = .refused r := e
    simp only [runSteps, Host.Core.run, e'] at h
    cases h

end Sys2Proof.Machine
end

