-- ==== Sys2Proof/Laws/Drain.lean ====
section
/-! SUPPORT. The ticks behind an instruction: three ticks of an otherwise empty pipe, an instruction alone in the pipe from ID to
write-back, and the pipeline drained, each said once. -/

namespace Sys2Proof.Machine

/-- What a MEM/WB latch does to the registers when it is written back (R163). -/
def writeBack (x : Vector Word 32) (l : MemWb) : Vector Word 32 :=
  if !l.nop && l.writesReg then writeReg x l.rd l.wrtData else x

theorem wbRegs_eq_writeBack (s : State) : wbRegs s = writeBack s.x s.memwb := rfl

/-- Everything the drain of a pipeline can do: MEM's access now, the access of the instruction in EX one tick later, and three
write-backs in program order. -/
theorem drained_eq_some {s : State} {a : ArchState} :
    drained s = some a ↔ ∃ m1 m2, memStage s = some m1 ∧ memStage { s with exmem := exLatch s, dmem := m1.dmem } = some m2 ∧
      a = { x := writeBack (writeBack (wbRegs s) (memLatch s m1.result)) (memLatch { s with exmem := exLatch s } m2.result)
            pc := resumePc s, imem := s.imem, dmem := m2.dmem } := by
  have h0 : memStage (withFetchStopped s) = memStage s := rfl
  unfold drained drainTick
  rw [h0]
  cases e1 : memStage s with
  | none => simp
  | some m1 =>
    have h1 : memStage (commit (withFetchStopped s) m1 idNothing) = memStage { s with exmem := exLatch s, dmem := m1.dmem } := rfl
    simp only [h1]
    cases e2 : memStage { s with exmem := exLatch s, dmem := m1.dmem } with
    | none =>
      simp only [reduceCtorEq, false_iff]
      rintro ⟨m1', m2, h, h', _⟩
      cases h
      rw [e2] at h'
      cases h'
    | some m2 =>
      have h2 : memStage (commit (commit (withFetchStopped s) m1 idNothing) m2 idNothing) =
          some { result := 0#32, dmem := m2.dmem } := memStage_of_nop rfl
      simp only [h2, Option.some.injEq]
      constructor
      · rintro rfl
        exact ⟨m1, m2, rfl, e2, rfl⟩
      · rintro ⟨m1', m2', h, h', rfl⟩
        cases h
        rw [e2] at h'
        cases h'
        rfl

/-- Three ticks with an instruction in EX, bubbles around it and fetching stopped: MEM's access and the write-back. -/
theorem runSteps_three_behind_ex (s : State) (m : MemOut) (hf : s.fault = none) (hh : s.halted = false) (hc : s.cycle + 3 ≤ Config.maxCycles)
    (h1 : s.ifid.nop = true) (h2 : s.idex.nop = false) (h3 : s.exmem.nop = true) (h4 : s.memwb.nop = true)
    (hs : ifFetch s = ifStop s) (hm : memStage { s with exmem := exLatch s } = some m) :
    runSteps 3 s = .next { s with
      x := if s.idex.writesReg then writeReg s.x s.idex.rd m.result else s.x
      dmem := m.dmem, ifNop := true, ifid := IfId.bubble, idex := IdEx.bubble, exmem := ExMem.bubble
      memwb := MemWb.bubble, cycle := s.cycle + 3, retired := s.retired + 1 } := by
  have e1 := step_of_bubble (s := s) ⟨hf, hh, by omega⟩ h1 (memStage_of_nop h3)
  rw [runSteps_of_next e1]
  set s1 := commit s { result := 0#32, dmem := s.dmem } idNothing with hs1
  have hx : wbRegs s = s.x := wbRegs_of_nop h4
  have hm1 : memStage s1 = some m := by rw [← hm]; rfl
  have e2 := step_of_bubble (s := s1) ⟨hf, by simp [hs1, runDone, h2], by simp [hs1]; omega⟩ (by simp [hs1, hs, ifStop]) hm1
  rw [runSteps_of_next e2]
  set s2 := commit s1 m idNothing with hs2
  have k1 : s1.ifNop = true := by simp [hs1, hs, ifStop]
  have g1 : ifFetch s1 = ifStop s1 := ifFetch_of_stopped k1
  have k2 : s2.ifNop = true := by simp [hs2, g1, ifStop]
  have g2 : ifFetch s2 = ifStop s2 := ifFetch_of_stopped k2
  have c1 : s1.pc = s.pc := by simp [hs1, hs, ifStop]
  have c2 : s2.pc = s.pc := by simp [hs2, g1, ifStop, c1]
  have e3 := step_of_bubble (s := s2) ⟨hf, by simp [hs2, hs1, runDone, h2], by simp [hs2, hs1]; omega⟩
    (by simp [hs2, g1, ifStop, IfId.bubble]) (memStage_of_nop (by simp [hs2, hs1, exLatch, IdEx.bubble, ExMem.bubble]))
  rw [runSteps_of_next e3]
  simp only [runSteps_zero, Host.Outcome.next.injEq]
  have x1 : s1.idex = IdEx.bubble := rfl
  have x2 : s1.memwb = MemWb.bubble := by simp [hs1, memLatch, h3]
  have x3 : s2.exmem = ExMem.bubble := by simp [hs2, exLatch, x1, IdEx.bubble]
  have x4 : s2.idex = IdEx.bubble := rfl
  have x5 : s2.memwb = { nop := false, wrtData := m.result, rd := s.idex.rd, writesReg := s.idex.writesReg } := by
    simp [hs2, hs1, memLatch, exLatch, h2]
  have x6 : s2.x = s.x := by rw [hs2, commit_x, wbRegs_of_nop (by rw [x2]; rfl), hs1, commit_x, hx]
  have x7 : s2.retired = s.retired := by simp [hs2, hs1, wbRetired, h4, memLatch, h3, MemWb.bubble]
  have x8 : runDone s2 = false := by simp [runDone, x5]
  have x9 : s2.dmem = m.dmem := rfl
  have x10 : s2.imem = s.imem := rfl
  have x11 : s2.cycle = s.cycle + 2 := rfl
  have x12 : s2.fault = none := hf
  simp [commit, g2, ifStop, wbRegs, wbRetired, memLatch, exLatch, x3, x4, x5, x6, x7, x8, x9, x10, x11, x12, c2, hh, hf,
    ExMem.bubble, IdEx.bubble]

/-- An instruction alone in the pipe, from its ID tick to its write-back: what ID drives for it (no stall), where fetching stops
behind it, and MEM's access two ticks later determine the state four ticks on. -/
theorem exec_alone (i : Instr) (s : State) (L : IdEx) (r : Option Word) (m : MemOut) (h : AloneInId s)
   (hL : L.nop = false)
   (hd : ∀ w, driven i s w = { latch := L, stall := false, redirect := r })
   (hstop : fetchStopsAt s.imem (r.getD s.pc) = true)
   (hm : memStage { s with
      idex := L, memwb := MemWb.bubble
      exmem := exLatch { s with idex := L, exmem := ExMem.bubble, memwb := MemWb.bubble } } = some m) :
   ∃ t, exec i s = .next t ∧
      runSteps 3 t = .next (flown s (if L.writesReg then writeReg s.x L.rd m.result else s.x) m.dmem (r.getD s.pc)) := by
  obtain ⟨hf, hh, hc, hn, hi, h2, h3, h4⟩ := h
  refine ⟨_, by rw [exec_eq_tick, tick_of_some (memStage_of_nop h3), hd], ?_⟩
  have hx : wbRegs s = s.x := wbRegs_of_nop h4
  have hxl : exLatch s = ExMem.bubble := exLatch_of_nop h2
  have hml : memLatch s 0#32 = MemWb.bubble := memLatch_of_nop h3 _
  set s1 := commit s { result := 0#32, dmem := s.dmem } { latch := L, stall := false, redirect := r } with hs1
  have p1 : s1.exmem = ExMem.bubble := hxl
  have p2 : s1.memwb = MemWb.bubble := hml
  have p3 : s1.idex = L := rfl
  have p4 : s1.x = s.x := hx
  have p5 : s1.ifid.nop = true ∧ ifFetch s1 = ifStop s1 ∧ s1.pc = (r.getD s.pc) := by
    cases r with
    | none =>
      have : ifFetch s = ifStop s := ifFetch_of_stops hstop
      exact ⟨by simp [hs1, ifStage, this, ifStop, IfId.bubble],
        ifFetch_of_stopped (by simp [hs1, ifStage, this, ifStop]), by simp [hs1, ifStage, this, ifStop]⟩
    | some t =>
      exact ⟨by simp [hs1, ifStage, IfId.bubble], ifFetch_of_stops (by simpa [hs1, ifStage] using hstop),
        by simp [hs1, ifStage]⟩
  have p6 : memStage { s1 with exmem := exLatch s1 } = some m := by
    rw [← hm]
    simp only [memStage, exLatch, exResult, exStoreData, exOperandA, exOperandB, fwdEx, p1, p2, p3]
    rfl
  have q1 : s1.halted = false := by simp [hs1, runDone, hn]
  have := runSteps_three_behind_ex s1 m hf q1 (by simp [hs1]; omega) p5.1 (by rw [p3]; exact hL) (by rw [p1]; rfl)
    (by rw [p2]; rfl) p5.2.1 p6
  rw [this]
  simp only [flown, p3, p4, p5.2.2, hf, q1, hh]
  simp [hs1, wbRetired, h4, hf]

end Sys2Proof.Machine
end

