-- ==== Sys2Proof/Laws/PerInstr.lean ====
section
/-! SUPPORT. Statements made instruction by instruction. -/

namespace Sys2Proof.Laws

/-- The opcode of a class (R87). -/
def opcodeOfClass : OpClass → BitVec 7
  | .rArith => opRArith
  | .iArith => opIArith
  | .load => opLoad
  | .store => opStore
  | .branch => opBranch
  | .jal => opJal
  | .halt => opHalt

end Sys2Proof.Laws

namespace Sys2Proof.Laws.ClassOfOpcode

/-- The opcode field of an instruction's word names the class in the decoder's record of it (R87, R95). -/
def Statement (i : Instr) : Prop := fieldOpcode (encode i) = opcodeOfClass i.decoded.cls

theorem add (a b c : RegIdx) : Statement (.add a b c) := fieldOpcode_encodeR ..
theorem sub (a b c : RegIdx) : Statement (.sub a b c) := fieldOpcode_encodeR ..
theorem xor (a b c : RegIdx) : Statement (.xor a b c) := fieldOpcode_encodeR ..
theorem or (a b c : RegIdx) : Statement (.or a b c) := fieldOpcode_encodeR ..
theorem and (a b c : RegIdx) : Statement (.and a b c) := fieldOpcode_encodeR ..
theorem addi (a b : RegIdx) (c : BitVec 12) : Statement (.addi a b c) := fieldOpcode_encodeI ..
theorem xori (a b : RegIdx) (c : BitVec 12) : Statement (.xori a b c) := fieldOpcode_encodeI ..
theorem ori (a b : RegIdx) (c : BitVec 12) : Statement (.ori a b c) := fieldOpcode_encodeI ..
theorem andi (a b : RegIdx) (c : BitVec 12) : Statement (.andi a b c) := fieldOpcode_encodeI ..
theorem lw (a b : RegIdx) (c : BitVec 12) : Statement (.lw a b c) := fieldOpcode_encodeI ..
theorem sw (a b : RegIdx) (c : BitVec 12) : Statement (.sw a b c) := fieldOpcode_encodeS ..
theorem beq (a b : RegIdx) (c : BitVec 13) : Statement (.beq a b c) := fieldOpcode_encodeB ..
theorem bne (a b : RegIdx) (c : BitVec 13) : Statement (.bne a b c) := fieldOpcode_encodeB ..
theorem jal (a : RegIdx) (b : BitVec 21) : Statement (.jal a b) := fieldOpcode_encodeJ ..
theorem halt (a : BitVec 25) : Statement (.halt a) := fieldOpcode_encodeH ..

end Sys2Proof.Laws.ClassOfOpcode
end

