-- ==== Sys2Proof/Tests/Slice0.lean ====
section
/-! SUPPORT. Tests of the model: well-formedness refusals, decoding of words the spec writes out, single steps, and for every
statement with hypotheses a state and operands that meet them. Expected values are those of 95_test_vectors.md or of the
instruction rules. -/

namespace Sys2Proof.Tests

open Sys2Proof.Machine

/-! ### WellFormed refuses each ill-formed term (R85, R86: an odd byte offset) -/

theorem test_wf_refuses_odd_beq : (Instr.beq 1#5 2#5 5#13).wf = false := by decide
theorem test_wf_refuses_odd_bne : (Instr.bne 1#5 2#5 0x1FFF#13).wf = false := by decide
theorem test_wf_refuses_odd_jal : (Instr.jal 1#5 1#21).wf = false := by decide
theorem test_wf_accepts_even_offsets :
    (Instr.beq 1#5 2#5 4094#13).wf = true ∧ (Instr.bne 1#5 2#5 0x1000#13).wf = true ∧
    (Instr.jal 1#5 1048574#21).wf = true := by decide

/-! ### Decoding: words of vectors V-D1 and V-D3, at least one per instruction -/

theorem test_decode_add : decodeWord 0x002081B3#32 = .ok (.add 3#5 1#5 2#5) := by rfl
theorem test_decode_add_all_ones : decodeWord 0x01FF8FB3#32 = .ok (.add 31#5 31#5 31#5) := by rfl
theorem test_decode_sub : decodeWord 0x407302B3#32 = .ok (.sub 5#5 6#5 7#5) := by rfl
theorem test_decode_xor : decodeWord 0x00A4C433#32 = .ok (.xor 8#5 9#5 10#5) := by rfl
theorem test_decode_or : decodeWord 0x00D665B3#32 = .ok (.or 11#5 12#5 13#5) := by rfl
theorem test_decode_and : decodeWord 0x0107F733#32 = .ok (.and 14#5 15#5 16#5) := by rfl
theorem test_decode_addi : decodeWord 0xFFF08093#32 = .ok (.addi 1#5 1#5 0xFFF#12) := by rfl
theorem test_decode_xori : decodeWord 0xFFF34293#32 = .ok (.xori 5#5 6#5 0xFFF#12) := by rfl
theorem test_decode_ori : decodeWord 0x80046393#32 = .ok (.ori 7#5 8#5 0x800#12) := by rfl
theorem test_decode_andi : decodeWord 0x0FF57493#32 = .ok (.andi 9#5 10#5 255#12) := by rfl
theorem test_decode_lw : decodeWord 0xFFC02103#32 = .ok (.lw 2#5 0#5 0xFFC#12) := by rfl
theorem test_decode_sw : decodeWord 0x021020A3#32 = .ok (.sw 1#5 0#5 33#12) := by rfl
theorem test_decode_sw_negative : decodeWord 0xFE20AE23#32 = .ok (.sw 2#5 1#5 0xFFC#12) := by rfl
theorem test_decode_beq : decodeWord 0x7E208FE3#32 = .ok (.beq 1#5 2#5 4094#13) := by rfl
theorem test_decode_beq_bit_11 : decodeWord 0x000000E3#32 = .ok (.beq 0#5 0#5 2048#13) := by rfl
theorem test_decode_bne : decodeWord 0xFE009CE3#32 = .ok (.bne 1#5 0#5 0x1FF8#13) := by rfl
theorem test_decode_jal : decodeWord 0xFFDFF0EF#32 = .ok (.jal 1#5 0x1FFFFC#21) := by rfl
theorem test_decode_jal_bit_11 : decodeWord 0x001000EF#32 = .ok (.jal 1#5 2048#21) := by rfl
theorem test_decode_jal_bit_12 : decodeWord 0x000010EF#32 = .ok (.jal 1#5 4096#21) := by rfl
theorem test_decode_halt : decodeWord 0x0000007F#32 = .ok (.halt 0#25) := by rfl
theorem test_decode_halt_all_ones : decodeWord 0xFFFFFFFF#32 = .ok (.halt 0x1FFFFFF#25) := by rfl
theorem test_decode_refuses_zero : decodeWord 0x00000000#32 = .error (.invalidOpcode 0x00000000#32) := by rfl
theorem test_decode_refuses_jalr : decodeWord 0x00000067#32 = .error (.invalidOpcode 0x00000067#32) := by rfl
theorem test_decode_refuses_lh : decodeWord 0x00001003#32 = .error (.invalidOpcode 0x00001003#32) := by rfl
theorem test_decode_refuses_slli : decodeWord 0x00001013#32 = .error (.invalidOpcode 0x00001013#32) := by rfl
theorem test_decode_refuses_sra_like : decodeWord 0x40004033#32 = .error (.invalidOpcode 0x40004033#32) := by rfl

/-- The last byte of four holds the opcode (R54). -/
theorem test_decode_bytes_big_endian :
    decodeBytes [0x00#8, 0x50#8, 0x00#8, 0x93#8, 0xAA#8] = .ok (.addi 1#5 0#5 5#12, [0xAA#8]) := by rfl

theorem test_decode_bytes_truncated : decodeBytes [0x00#8, 0x50#8, 0x00#8] = .error .truncated := by rfl

theorem test_decode_table_word : decodeTableWord 32 0x00500093 = some (.addi 1#5 0#5 5#12) := by rfl

/-! ### Small states -/

/-- A program and its data, at reset. -/
def loaded (ws : List Word) (data : List Byte) : State := State.resetWith (Memory.ofWords ws) (Memory.ofBytes data)

/-- The word `w` in ID, fetched from address 0 of a memory that holds it and nothing else, registers 1 and 2 as given and eight
bytes of data: fetching stops behind it. -/
def lone (w x1 x2 : Word) : State :=
  { loaded [w] [0x00#8, 0x00#8, 0x00#8, 0x07#8, 0x12#8, 0x34#8, 0x56#8, 0x78#8] with
    x := (Vector.replicate 32 0#32).set 1 x1 |>.set 2 x2
    pc := 4#32
    ifid := { nop := false, pc := 0#32, instr := w } }

/-- The next state of a step, for states that have one. -/
def after (s : State) : State :=
  match step s with
  | .next t => t
  | .fault _ => s
  | .refused _ => s

/-- The next state of a meaning. -/
def afterExec (i : Instr) (s : State) : State :=
  match exec i s with
  | .next t => t
  | .fault _ => s
  | .refused _ => s

/-- The state drained, for states that can be. -/
def drainedOf (s : State) : ArchState :=
  match drained s with
  | some a => a
  | none => s.arch

/-- `LW x1, x0, 4` in EX and `ADD x3, x1, x2` behind it in ID: vector V-L1's hazard. -/
def hazard : State :=
  { loaded [0x00402083#32, 0x002081B3#32] [0x00#8, 0x00#8, 0x00#8, 0x07#8, 0x12#8, 0x34#8, 0x56#8, 0x78#8] with
    pc := 8#32
    ifid := { nop := false, pc := 4#32, instr := 0x002081B3#32 }
    idex := { nop := false, pc := 0#32, cls := .load, aluOp := .add, rs1 := 0#5, rs2 := 4#5, rd := 1#5, rs1Val := 0#32,
              rs2Val := 0#32, imm := 4#32, isLoad := true, isStore := false, writesReg := true, isJump := false }
    cycle := 2 }

/-- `SW x2, x0, 0` in MEM with 15 to store and `LW x1, x0, 0` behind it in EX: vector V-M1. -/
def storeThenLoad : State :=
  { loaded [0x00202023#32, 0x00002083#32] [0x00#8, 0x00#8, 0x00#8, 0x07#8] with
    pc := 8#32
    ifNop := true
    idex := { nop := false, pc := 4#32, cls := .load, aluOp := .add, rs1 := 0#5, rs2 := 0#5, rd := 1#5, rs1Val := 0#32,
              rs2Val := 0#32, imm := 0#32, isLoad := true, isStore := false, writesReg := true, isJump := false }
    exmem := { nop := false, aluResult := 0#32, storeData := 15#32, rd := 0#5, isLoad := false, isStore := true,
               writesReg := false }
    cycle := 3 }

/-- An instruction in WB that writes `x1`, beside one in MEM that writes `x1`, and a branch on `x1` in ID. -/
def twoWriters : State :=
  { lone 0x00008463#32 5#32 0#32 with
    exmem := { nop := false, aluResult := 9#32, storeData := 0#32, rd := 1#5, isLoad := false, isStore := false,
               writesReg := true }
    memwb := { nop := false, wrtData := 8#32, rd := 1#5, writesReg := true }
    cycle := 3
    retired := 0 }

/-- A store in MEM at the first address out of bounds, beside an undecodable word in ID. -/
def bothRaise : State :=
  { lone 0x00000000#32 0#32 0#32 with
    exmem := { nop := false, aluResult := 5#32, storeData := 1#32, rd := 0#5, isLoad := false, isStore := true,
               writesReg := false } }

/-! ### Single steps: the instruction rules' own examples, read off where the tick puts the result -/

/-- ADD wraps (R111): `0xFFFFFFFF + 1 = 0`, seen in EX/MEM one tick after ID. -/
theorem test_add_wraps : (after (after (lone 0x002081B3#32 0xFFFFFFFF#32 1#32))).exmem.aluResult = 0#32 := by decide

/-- SUB takes `rs2` from `rs1` (R112): `SUB x3, x1, x2` with 0 and 1. -/
theorem test_sub_borrows : (after (after (lone 0x402081B3#32 0#32 1#32))).exmem.aluResult = 0xFFFFFFFF#32 := by decide

/-- XORI with -1 inverts (R122): `XORI x5, x1, -1`. -/
theorem test_xori_inverts : (after (after (lone 0xFFF0C293#32 0x0000000F#32 0#32))).exmem.aluResult = 0xFFFFFFF0#32 := by
  decide

/-- ORI with a negative immediate sets bits 31:11 (R123): `ORI x7, x1, -2048`. -/
theorem test_ori_sign_extends : (after (after (lone 0x8000E393#32 0x00000012#32 0#32))).exmem.aluResult = 0xFFFFF812#32 := by
  decide

/-- ANDI with 255 (R124): `ANDI x9, x1, 255`. -/
theorem test_andi_masks : (after (after (lone 0x0FF0F493#32 0x12345678#32 0#32))).exmem.aluResult = 0x78#32 := by decide

/-- JAL's link value is its own address plus 4 and its target its own address plus 12 (R143): `JAL x1, 12` at 0. -/
theorem test_jal_links : (after (after (lone 0x00C000EF#32 0#32 0#32))).exmem.aluResult = 4#32 ∧
    (after (lone 0x00C000EF#32 0#32 0#32)).pc = 12#32 := by decide

/-- BEQ x0, x0, 8 at 0 goes to 8; BNE x1, x0, -8 falls through on equal values (R141, R142). -/
theorem test_branches_resolve : (after (lone 0x00000463#32 0#32 0#32)).pc = 8#32 ∧
    (after (lone 0xFE009CE3#32 0#32 0#32)).pc = 4#32 := by decide

/-- LW is big-endian (R52, R131): the word at 0 of the bytes 00 00 00 07. -/
theorem test_lw_big_endian : (after (after (after (lone 0x00002083#32 0#32 0#32)))).memwb.wrtData = 7#32 := by decide

/-- A misaligned LW at 1 reads bytes 1 to 4 (R57). -/
theorem test_lw_misaligned : (after (after (after (lone 0x00102083#32 0#32 0#32)))).memwb.wrtData = 0x00000712#32 := by decide

/-- SW is big-endian (R53, R132): `SW x2, x0, 0` with 15. -/
theorem test_sw_big_endian :
    (after (after (after (lone 0x00202023#32 0#32 15#32)))).dmem.byteAt 3 = 15#8 ∧
    (after (after (after (lone 0x00202023#32 0#32 15#32)))).dmem.byteAt 4 = 0x12#8 := by decide

/-- A hazard holds the reader one tick (R206). -/
theorem test_stall_holds : (after hazard).pc = 8#32 ∧ (after hazard).ifid = hazard.ifid ∧ (after hazard).idex.nop = true := by
  decide

/-- The youngest writer wins (R203): the branch on `x1` compares 9, from MEM. -/
theorem test_fwdId_youngest : fwdId twoWriters { exResult := 0#32, memResult := 9#32 } 1#5 = 9#32 := by decide

/-- MEM's error wins over ID's (R255). -/
theorem test_mem_error_wins : (after bothRaise).fault = some (.memoryOutOfBounds 1 5#32) := by decide

/-- A word run from reset: HALT at 0 ends the run after 2 ticks (program P8). -/
theorem test_halt_first : (after (after (loaded [0x0000007F#32] []))).halted = true ∧
    (after (after (loaded [0x0000007F#32] []))).cycle = 2 := by decide

/-! ### Witnesses: the hypotheses of each statement can be met -/

theorem test_witness_EncodedInstructionDecodesToItself :
    (Instr.jal 31#5 0x100000#21).wf = true ∧ (Instr.beq 0#5 31#5 0x1000#13).wf = true := by decide

theorem test_witness_DecodedInstructionEncodesToItsWord : decodeWord 0xFFFFFFFF#32 = .ok (.halt 0x1FFFFFF#25) := by rfl

/-- One word per clause, at an end of its range: ADDI -2048, LW 2047, SW -2048, BEQ 4094, JAL -1048576. -/
theorem test_witness_ImmediatesOfEachFormat :
    decodeRecord 0x80000013#32 = .ok (Instr.addi 0#5 0#5 0x800#12).decoded ∧
    decodeRecord 0x7FF02003#32 = .ok (Instr.lw 0#5 0#5 0x7FF#12).decoded ∧
    decodeRecord 0x80002023#32 = .ok (Instr.sw 0#5 0#5 0x800#12).decoded ∧
    decodeRecord 0x7E000FE3#32 = .ok (Instr.beq 0#5 0#5 4094#13).decoded ∧
    decodeRecord 0x8000006F#32 = .ok (Instr.jal 0#5 0x100000#21).decoded := ⟨rfl, rfl, rfl, rfl, rfl⟩

theorem test_witness_RecordHoldsTheWordsFields :
    decodeRecord 0x407302B3#32 = .ok (Instr.sub 5#5 6#5 7#5).decoded ∧
    decodeRecord 0xFFFFFFFF#32 = .ok (Instr.halt 0x1FFFFFF#25).decoded := ⟨rfl, rfl⟩

theorem test_witness_StepRunsDecodedInstruction :
    Running (lone 0x002081B3#32 1#32 2#32) ∧ (lone 0x002081B3#32 1#32 2#32).ifid.nop = false ∧
    decodeWord (lone 0x002081B3#32 1#32 2#32).ifid.instr = .ok (.add 3#5 1#5 2#5) := ⟨by decide, rfl, rfl⟩

/-- The first fetch after reset, the last tick the limit allows not yet reached. -/
theorem test_witness_BytesAtThePcRunInTheNextStep :
    Commits (loaded [0x00500093#32] []) ∧ (loaded [0x00500093#32] []).ifNop = false ∧
    (loaded [0x00500093#32] []).ifid.nop = true ∧
    (loaded [0x00500093#32] []).imem.readWord (loaded [0x00500093#32] []).pc = some 0x00500093#32 ∧
    decodeWord 0x00500093#32 = .ok (.addi 1#5 0#5 5#12) ∧ isHaltWord 0x00500093#32 = false ∧
    (after (loaded [0x00500093#32] [])).cycle ≠ Config.maxCycles :=
  ⟨⟨by decide, by decide, by decide⟩, rfl, rfl, by decide, rfl, by decide, by decide⟩

/-- The same with an instruction in ID that transfers no control and is not held. -/
theorem test_witness_BytesAtThePcRunInTheNextStep_behind :
    Commits { lone 0x002081B3#32 1#32 2#32 with imem := Memory.ofWords [0x002081B3#32, 0x00500093#32] } ∧
    decodeRecord 0x002081B3#32 = .ok (Instr.add 3#5 1#5 2#5).decoded ∧
    ¬ LoadUseHazard { lone 0x002081B3#32 1#32 2#32 with imem := Memory.ofWords [0x002081B3#32, 0x00500093#32] }
      (Instr.add 3#5 1#5 2#5).decoded ∧
    (Memory.ofWords [0x002081B3#32, 0x00500093#32]).readWord 4#32 = some 0x00500093#32 :=
  ⟨⟨by decide, by decide, fun h => nomatch h.2⟩, rfl, by decide, by decide⟩

theorem test_witness_PlacedWordRunsInTheNextStep :
    MemoriesWf State.reset ∧ decodeWord 0x00500093#32 = .ok (.addi 1#5 0#5 5#12) := ⟨reset_memories_wf, rfl⟩

/-- One state per clause: the limit reached, MEM raising (at the first address out of bounds), ID raising, a commit. -/
theorem test_witness_ErrorsAreExactlyTheClosedList :
    ({ State.reset with cycle := 100000 }.fault = none ∧ { State.reset with cycle := 100000 }.halted = false ∧
      { State.reset with cycle := 100000 }.cycle = Config.maxCycles) ∧
    (bothRaise.fault = none ∧ Running bothRaise ∧ MemRaises bothRaise) ∧
    (Running (lone 0x00000000#32 0#32 0#32) ∧ ¬ MemRaises (lone 0x00000000#32 0#32 0#32) ∧
      IdRaises (lone 0x00000000#32 0#32 0#32)) ∧
    Commits State.reset :=
  ⟨by decide, ⟨rfl, by decide, by decide⟩, ⟨by decide, by decide, rfl, rfl⟩, by decide, by decide, fun h => nomatch h.1⟩

theorem test_witness_EndedRunStaysEnded :
    ({ State.reset with halted := true }.fault = none ∧ { State.reset with halted := true }.halted = true) ∧
    { State.reset with fault := some (.safetyLimitReached 100000) }.fault = some (.safetyLimitReached 100000) :=
  ⟨⟨rfl, rfl⟩, rfl⟩

/-- Both clauses: MEM raises, and does not (the last address in bounds is the word at 4 of 8 bytes). -/
theorem test_witness_EveryMeaningAnswersANextState :
    MemRaises bothRaise ∧ ¬ MemRaises { bothRaise with exmem := { bothRaise.exmem with aluResult := 4#32 } } := by decide

/-- A write-back of `x1` commits beside a branch in ID. -/
theorem test_witness_WriteBackWritesTheDestination : Commits twoWriters ∧ twoWriters.memwb.nop = false :=
  ⟨⟨by decide, by decide, fun h => nomatch h.2⟩, rfl⟩

theorem test_witness_CountersOfACommittedTick : Commits twoWriters := ⟨by decide, by decide, fun h => nomatch h.2⟩

/-- One state per clause: a bubble, a load and a store at the last word in bounds, and an arithmetic result. -/
theorem test_witness_MemoryStageOfACommittedTick :
    (Commits (lone 0x002081B3#32 1#32 2#32) ∧ (lone 0x002081B3#32 1#32 2#32).dmem.wf ∧
      (lone 0x002081B3#32 1#32 2#32).exmem.nop = true) ∧
    (Commits { storeThenLoad with exmem := { storeThenLoad.exmem with isLoad := true, isStore := false } } ∧
      storeThenLoad.dmem.wf) ∧
    (Commits storeThenLoad ∧ storeThenLoad.exmem.nop = false ∧ storeThenLoad.exmem.isLoad = false ∧
      storeThenLoad.exmem.isStore = true) ∧
    (Commits twoWriters ∧ twoWriters.dmem.wf ∧ twoWriters.exmem.isStore = false) :=
  ⟨⟨⟨by decide, by decide, fun h => nomatch h.2⟩, by decide, rfl⟩,
   ⟨⟨by decide, by decide, fun h => nomatch h.1⟩, by decide⟩,
   ⟨⟨by decide, by decide, fun h => nomatch h.1⟩, rfl, rfl, rfl⟩,
   ⟨by decide, by decide, fun h => nomatch h.2⟩, by decide, rfl⟩

/-- A bubble in EX, and a load in EX; the other classes differ in `cls` only. -/
theorem test_witness_ExecuteStageOfACommittedTick :
    (Commits twoWriters ∧ twoWriters.idex.nop = true) ∧
    (Commits storeThenLoad ∧ storeThenLoad.idex.nop = false ∧ storeThenLoad.idex.cls = .load) ∧
    (∀ c : OpClass, ({ storeThenLoad.idex with cls := c } : IdEx).cls = c) ∧
    (Commits { storeThenLoad with idex := { storeThenLoad.idex with cls := .rArith } } ∧
     Commits { storeThenLoad with idex := { storeThenLoad.idex with cls := .iArith } } ∧
     Commits { storeThenLoad with idex := { storeThenLoad.idex with cls := .store } } ∧
     Commits { storeThenLoad with idex := { storeThenLoad.idex with cls := .jal } } ∧
     Commits { storeThenLoad with idex := { storeThenLoad.idex with cls := .branch } }) :=
  ⟨⟨⟨by decide, by decide, fun h => nomatch h.2⟩, rfl⟩,
   ⟨⟨by decide, by decide, fun h => nomatch h.1⟩, rfl, rfl⟩, fun _ => rfl,
   ⟨by decide, by decide, fun h => nomatch h.1⟩, ⟨by decide, by decide, fun h => nomatch h.1⟩,
   ⟨by decide, by decide, fun h => nomatch h.1⟩, ⟨by decide, by decide, fun h => nomatch h.1⟩,
   by decide, by decide, fun h => nomatch h.1⟩

theorem test_witness_InstructionMemoryNeverChanges :
    exec (.sw 2#5 1#5 0#12) storeThenLoad = .next (afterExec (.sw 2#5 1#5 0#12) storeThenLoad) ∧
    runSteps 1 storeThenLoad = .next (after storeThenLoad) := ⟨rfl, rfl⟩

theorem test_witness_FrameOfEveryIdTick :
    storeThenLoad.dmem.wf ∧
    exec (.sw 2#5 1#5 0#12) storeThenLoad = .next (afterExec (.sw 2#5 1#5 0#12) storeThenLoad) := ⟨by decide, rfl⟩

/-- Each tier: EX/MEM and MEM/WB both name `x1`; only MEM/WB does (EX/MEM an unfinished load); neither. -/
theorem test_witness_ExForwardingPriority :
    (twoWriters.exmem.nop = false ∧ twoWriters.exmem.writesReg = true ∧ twoWriters.exmem.rd = 1#5 ∧
      twoWriters.exmem.isLoad = false) ∧
    (({ twoWriters.exmem with isLoad := true } : ExMem).isLoad = true ∧ twoWriters.memwb.nop = false ∧
      twoWriters.memwb.writesReg = true ∧ twoWriters.memwb.rd = 1#5) ∧
    (twoWriters.exmem.rd ≠ 2#5 ∧ twoWriters.memwb.rd ≠ 2#5) := by decide

theorem test_witness_LatchedReadSeesTheWriteBack :
    Commits twoWriters ∧ twoWriters.ifid.nop = false ∧
    decodeRecord twoWriters.ifid.instr = .ok (Instr.beq 1#5 0#5 8#13).decoded ∧
    (Instr.beq 1#5 0#5 8#13).decoded.cls ≠ .halt ∧ ¬ LoadUseHazard twoWriters (Instr.beq 1#5 0#5 8#13).decoded :=
  ⟨⟨by decide, by decide, fun h => nomatch h.2⟩, rfl, rfl, by decide, by decide⟩

theorem inv_twoWriters : PipeInv twoWriters :=
  ⟨by decide, by decide, by decide, by decide, by decide, by decide, by decide, by decide, by decide, by decide, by decide,
    by decide⟩

theorem test_witness_BranchOperandsAreSequentialValues :
    PipeInv twoWriters ∧ memStage twoWriters = some { result := 9#32, dmem := twoWriters.dmem } ∧
    drained twoWriters = some (drainedOf twoWriters) ∧
    ¬ (twoWriters.idex.nop = false ∧ twoWriters.idex.isLoad = true ∧ twoWriters.idex.rd = 1#5 ∧ 1#5 ≠ 0#5) :=
  ⟨inv_twoWriters, rfl, rfl, by decide⟩

theorem test_witness_IssuedInstructionEntersEx :
    Commits twoWriters ∧ twoWriters.ifid.nop = false ∧
    decodeRecord twoWriters.ifid.instr = .ok (Instr.beq 1#5 0#5 8#13).decoded ∧
    (Instr.beq 1#5 0#5 8#13).decoded.cls ≠ .halt ∧ ¬ LoadUseHazard twoWriters (Instr.beq 1#5 0#5 8#13).decoded :=
  test_witness_LatchedReadSeesTheWriteBack

theorem test_witness_LoadUseHazardHoldsTheInstruction :
    Commits hazard ∧ hazard.ifid.nop = false ∧ decodeRecord hazard.ifid.instr = .ok (Instr.add 3#5 1#5 2#5).decoded ∧
    LoadUseHazard hazard (Instr.add 3#5 1#5 2#5).decoded :=
  ⟨⟨by decide, by decide, fun h => nomatch h.2⟩, rfl, rfl, by decide⟩

theorem test_witness_HeldInstructionIssuesInTheNextTick :
    Commits hazard ∧ hazard.ifid.nop = false ∧ decodeRecord hazard.ifid.instr = .ok (Instr.add 3#5 1#5 2#5).decoded ∧
    LoadUseHazard hazard (Instr.add 3#5 1#5 2#5).decoded ∧ step hazard = .next (after hazard) ∧ Commits (after hazard) :=
  ⟨⟨by decide, by decide, fun h => nomatch h.2⟩, rfl, rfl, by decide, rfl, by decide, by decide, fun h => nomatch h.2⟩

/-- With `rs1` the loaded register; the second clause with `ADD x3, x2, x1`, whose `rs2` is. -/
theorem test_witness_HeldReaderGetsTheLoadedWord :
    (Commits hazard ∧ hazard.ifid.nop = false ∧
      decodeRecord hazard.ifid.instr = .ok (Instr.add 3#5 1#5 2#5).decoded ∧
      LoadUseHazard hazard (Instr.add 3#5 1#5 2#5).decoded ∧ hazard.idex.writesReg = true ∧
      step hazard = .next (after hazard) ∧
      (after hazard).dmem.readWord (after hazard).exmem.aluResult = some 0x12345678#32 ∧ Commits (after hazard) ∧
      step (after hazard) = .next (after (after hazard)) ∧
      (Instr.add 3#5 1#5 2#5).decoded.cls.readsRs1 = true ∧ (Instr.add 3#5 1#5 2#5).decoded.rs1 = hazard.idex.rd) ∧
    (decodeRecord 0x001101B3#32 = .ok (Instr.add 3#5 2#5 1#5).decoded ∧
      (Instr.add 3#5 2#5 1#5).decoded.cls.readsRs2 = true ∧ (Instr.add 3#5 2#5 1#5).decoded.rs2 = hazard.idex.rd) :=
  ⟨⟨⟨by decide, by decide, fun h => nomatch h.2⟩, rfl, rfl, by decide, rfl, rfl, by decide,
    ⟨by decide, by decide, fun h => nomatch h.2⟩, rfl, rfl, by decide⟩, rfl, rfl, by decide⟩

theorem test_witness_BranchResolvesInId :
    memStage twoWriters = some { result := 9#32, dmem := twoWriters.dmem } ∧
    ¬ LoadUseHazard twoWriters (Instr.beq 1#5 0#5 8#13).decoded ∧
    ¬ LoadUseHazard twoWriters (Instr.bne 1#5 0#5 8#13).decoded := ⟨rfl, by decide, by decide⟩

theorem test_witness_JalRedirectsUnconditionally : ¬ MemRaises hazard := by decide

/-- A JAL, and a taken branch, each of which leaves IF/ID a bubble with IF fetching. -/
theorem test_witness_WrongPathFetchHasNoEffect :
    (exec (.jal 1#5 12#21) hazard = .next (afterExec (.jal 1#5 12#21) hazard) ∧ ¬ MemRaises hazard) ∧
    (exec (.beq 0#5 0#5 8#13) twoWriters = .next (afterExec (.beq 0#5 0#5 8#13) twoWriters) ∧
      (afterExec (.beq 0#5 0#5 8#13) twoWriters).ifid.nop = true ∧
      (afterExec (.beq 0#5 0#5 8#13) twoWriters).ifNop = false) :=
  ⟨⟨rfl, by decide⟩, rfl, by decide, by decide⟩

theorem test_witness_HaltInIdIsABubble :
    memStage twoWriters = some { result := 9#32, dmem := twoWriters.dmem } := rfl

/-- The four clauses, the bounds at their edge: 4 bytes of memory, pc 0 in bounds, pc 1 not. -/
theorem test_witness_FetchPriority :
    (idHeld.stall = true) ∧
    (({ idNothing with redirect := some 8#32 } : IdOut).stall = false ∧
      ({ idNothing with redirect := some 8#32 } : IdOut).redirect = some 8#32) ∧
    (idNothing.stall = false ∧ idNothing.redirect = none ∧ ¬ (1#32).toNat + 3 < (loaded [0x0000007F#32] []).imem.size ∧
      fieldOpcode ((loaded [0x0000007F#32] []).imem.wordAt 0) = 0x7F#7) ∧
    ((loaded [0x00500093#32] []).ifNop = false ∧ (0#32).toNat + 3 < (loaded [0x00500093#32] []).imem.size ∧
      fieldOpcode ((loaded [0x00500093#32] []).imem.wordAt 0) ≠ 0x7F#7) := by decide

/-- A committing state that is done, and one that is not because IF goes on fetching. -/
theorem test_witness_RunEndsWhenThePipeIsEmptyAndStopped :
    Commits { State.reset with ifNop := true } ∧ Commits State.reset :=
  ⟨⟨by decide, by decide, fun h => nomatch h.1⟩, by decide, by decide, fun h => nomatch h.1⟩

/-- Both ways: a HALT at 0 with the limit two ticks away, and a memory of three bytes. -/
theorem test_witness_HaltOrEndOfMemoryEndsTheRun :
    ({ loaded [0x0000007F#32] [] with cycle := 99998 }.cycle + 2 ≤ Config.maxCycles ∧
      EmptyAndFetching (loaded [0x0000007F#32] []) ∧ BubblesBlank (loaded [0x0000007F#32] []) ∧
      (loaded [0x0000007F#32] []).fault = none ∧ (loaded [0x0000007F#32] []).halted = false ∧
      fetchStopsAt (loaded [0x0000007F#32] []).imem 0#32 = true) ∧
    fetchStopsAt (Memory.ofBytes [0#8, 0#8, 0#8]) 0#32 = true := by decide

theorem test_witness_DrainCompletesAndEndsTheRun :
    storeThenLoad.fault = none ∧ storeThenLoad.halted = false ∧ storeThenLoad.cycle + 4 ≤ Config.maxCycles ∧
    storeThenLoad.ifNop = true ∧ storeThenLoad.ifid.nop = true ∧ drained storeThenLoad = some (drainedOf storeThenLoad) :=
  ⟨rfl, rfl, by decide, rfl, rfl, rfl⟩

theorem test_witness_RegisterArithmeticCompletes :
    AloneInId (lone 0x002081B3#32 1#32 2#32) ∧
    fetchStopsAt (lone 0x002081B3#32 1#32 2#32).imem (lone 0x002081B3#32 1#32 2#32).pc = true := by decide

theorem test_witness_ImmediateArithmeticCompletes :
    AloneInId (lone 0xFFF08093#32 0#32 0#32) ∧
    fetchStopsAt (lone 0xFFF08093#32 0#32 0#32).imem (lone 0xFFF08093#32 0#32 0#32).pc = true := by decide

/-- At the last address in bounds: 4 of 8 bytes. -/
theorem test_witness_LoadCompletes :
    AloneInId (lone 0x0000A183#32 4#32 0#32) ∧
    fetchStopsAt (lone 0x0000A183#32 4#32 0#32).imem (lone 0x0000A183#32 4#32 0#32).pc = true ∧
    (readReg (lone 0x0000A183#32 4#32 0#32).x 1#5 + (0#12).signExtend 32).toNat + 3 <
      (lone 0x0000A183#32 4#32 0#32).dmem.size := by decide

theorem test_witness_StoreCompletes :
    AloneInId (lone 0x0020A023#32 4#32 15#32) ∧
    fetchStopsAt (lone 0x0020A023#32 4#32 15#32).imem (lone 0x0020A023#32 4#32 15#32).pc = true ∧
    (lone 0x0020A023#32 4#32 15#32).dmem.wf ∧
    (readReg (lone 0x0020A023#32 4#32 15#32).x 1#5 + (0#12).signExtend 32).toNat + 3 <
      (lone 0x0020A023#32 4#32 15#32).dmem.size := by decide

/-- At the first address out of bounds: 5 of 8 bytes. -/
theorem test_witness_OutOfBoundsAccessRaises :
    AloneInId (lone 0x0000A183#32 5#32 0#32) ∧
    fetchStopsAt (lone 0x0000A183#32 5#32 0#32).imem (lone 0x0000A183#32 5#32 0#32).pc = true ∧
    ¬ (readReg (lone 0x0000A183#32 5#32 0#32).x 1#5 + (0#12).signExtend 32).toNat + 3 <
      (lone 0x0000A183#32 5#32 0#32).dmem.size := by decide

/-- Equal values for the first and fourth clause, unequal for the second and third. -/
theorem test_witness_BranchCompletes :
    (AloneInId (lone 0x00208463#32 3#32 3#32) ∧
      readReg (lone 0x00208463#32 3#32 3#32).x 1#5 = readReg (lone 0x00208463#32 3#32 3#32).x 2#5 ∧
      fetchStopsAt (lone 0x00208463#32 3#32 3#32).imem (0#32 + (8#13).signExtend 32) = true ∧
      fetchStopsAt (lone 0x00208463#32 3#32 3#32).imem (lone 0x00208463#32 3#32 3#32).pc = true) ∧
    (AloneInId (lone 0x00208463#32 3#32 4#32) ∧
      readReg (lone 0x00208463#32 3#32 4#32).x 1#5 ≠ readReg (lone 0x00208463#32 3#32 4#32).x 2#5) := by decide

theorem test_witness_JumpCompletes :
    AloneInId (lone 0x00C000EF#32 0#32 0#32) ∧
    fetchStopsAt (lone 0x00C000EF#32 0#32 0#32).imem
      ((lone 0x00C000EF#32 0#32 0#32).ifid.pc + (12#21).signExtend 32) = true := by decide

theorem test_witness_LoneInstructionPerformsItsRule :
    AloneInId (lone 0x00C000EF#32 0#32 0#32) ∧
    (lone 0x00C000EF#32 0#32 0#32).pc = (lone 0x00C000EF#32 0#32 0#32).ifid.pc + 4#32 ∧
    archExec (.jal 1#5 12#21) (archOfAlone (lone 0x00C000EF#32 0#32 0#32)) =
      .next ((archOfAlone (lone 0x00C000EF#32 0#32 0#32)).setReg 1#5 4#32 |>.goto 12#32) ∧
    fetchStopsAt (lone 0x00C000EF#32 0#32 0#32).imem (lone 0x00C000EF#32 0#32 0#32).pc = true ∧
    fetchStopsAt (lone 0x00C000EF#32 0#32 0#32).imem 12#32 = true :=
  ⟨by decide, rfl, rfl, by decide, by decide⟩

/-- A write at 4 has a disjoint word on either side; one at 1 has byte 0 before it and byte 5 behind it, the word at 3 overlaps
it, the word at 8 is the last in bounds and the word at 9 the first that is not. -/
theorem test_witness_WordReadAfterWordWrite :
    (Memory.blank 12).wf ∧
    (Memory.blank 12).writeWord 4#32 7#32 = some ((Memory.blank 12).setWordAt 4 7#32) ∧
    (0#32).toNat + 3 < (4#32).toNat ∧ (4#32).toNat + 3 < (8#32).toNat ∧
    (Memory.blank 12).writeWord 1#32 7#32 = some ((Memory.blank 12).setWordAt 1 7#32) ∧
    0 < (1#32).toNat ∧ (1#32).toNat + 4 ≤ 5 ∧ (8#32).toNat + 3 < (Memory.blank 12).size ∧
    ¬ (9#32).toNat + 3 < (Memory.blank 12).size :=
  ⟨by decide, rfl, by decide, by decide, rfl, by decide, by decide, by decide, by decide⟩

/-- R53: the bytes 0x12 and 0x34 of a word written at 3 lie at 3 and 4, 0x78 at 6; bytes 2 and 7 are the old ones. -/
theorem test_byteAfterWrite :
    [2, 3, 4, 6, 7].map (byteAfterWrite (Memory.ofBytes [1#8, 2#8, 3#8, 4#8, 5#8, 6#8, 7#8, 8#8]) 3#32 0x12345678#32) =
      [3#8, 0x12#8, 0x34#8, 0x78#8, 8#8] := by decide

theorem test_witness_BoundsAreUnsignedAndUnaligned :
    (Memory.blank Config.memSizeLimit).wf ∧ (0x80000000#32 : Word).msb = true := ⟨Memory.blank_wf (Nat.le_refl _), by decide⟩

theorem test_witness_LoadSeesTheStoreAhead :
    Commits storeThenLoad ∧ storeThenLoad.dmem.wf ∧ storeThenLoad.exmem.nop = false ∧ storeThenLoad.exmem.isLoad = false ∧
    storeThenLoad.exmem.isStore = true ∧ storeThenLoad.idex.nop = false ∧ storeThenLoad.idex.cls = .load ∧
    storeThenLoad.idex.isLoad = true ∧ exResult storeThenLoad = storeThenLoad.exmem.aluResult ∧
    step storeThenLoad = .next (after storeThenLoad) ∧ Commits (after storeThenLoad) ∧
    step (after storeThenLoad) = .next (after (after storeThenLoad)) :=
  ⟨⟨by decide, by decide, fun h => nomatch h.1⟩, by decide, rfl, rfl, rfl, rfl, rfl, rfl, by decide, rfl,
    ⟨by decide, by decide, fun h => nomatch h.1⟩, rfl⟩

theorem test_witness_LoadedMemoryHoldsTheFile : [0x48#8, 0x00#8].length ≤ Config.memSizeLimit := by decide

/-- A line of seven digits, and a line with a digit that is not binary; two good files. -/
theorem test_witness_HostSetup :
    (∃ l ∈ [['0', '1', '0', '0', '1', '0', '0']], l.length ≠ 8 ∨ ∃ c ∈ l, c ≠ '0' ∧ c ≠ '1') ∧
    (∃ l ∈ [['0', '1', '0', '0', '1', '0', '0', '2']], l.length ≠ 8 ∨ ∃ c ∈ l, c ≠ '0' ∧ c ≠ '1') ∧
    [0x48#8].length ≤ Config.memSizeLimit :=
  ⟨⟨_, List.mem_singleton.mpr rfl, .inl (by decide)⟩,
   ⟨_, List.mem_singleton.mpr rfl, .inr ⟨'2', by simp, by decide, by decide⟩⟩, by decide⟩

theorem test_witness_InvariantHoldsAtReset : (Memory.blank 0).wf ∧ (Memory.blank Config.memSizeLimit).wf :=
  ⟨Memory.blank_wf (Nat.zero_le _), Memory.blank_wf (Nat.le_refl _)⟩

theorem test_witness_EveryStepKeepsTheInvariant : PipeInv twoWriters ∧ step twoWriters = .next (after twoWriters) :=
  ⟨inv_twoWriters, rfl⟩

theorem test_witness_RegisterZeroAlwaysReadsZero :
    twoWriters.x[0] = 0#32 ∧
    exec (.addi 0#5 0#5 5#12) twoWriters = .next (afterExec (.addi 0#5 0#5 5#12) twoWriters) ∧
    runSteps 1 twoWriters = .next (after twoWriters) ∧
    runSteps 1 (State.resetWith (Memory.blank 0) (Memory.blank 0)) =
      .next (after (State.resetWith (Memory.blank 0) (Memory.blank 0))) := ⟨by decide, rfl, rfl, rfl⟩

/-- `JAL x1, 12` at 0 in ID: pc, its address and its immediate are multiples of 4. -/
theorem test_witness_AlignedTransfersKeepThePcAligned :
    (lone 0x00C000EF#32 0#32 0#32).pc.toNat % 4 = 0 ∧ (lone 0x00C000EF#32 0#32 0#32).ifid.pc.toNat % 4 = 0 ∧
    decodeRecord (lone 0x00C000EF#32 0#32 0#32).ifid.instr = .ok (Instr.jal 1#5 12#21).decoded ∧
    (Instr.jal 1#5 12#21).decoded.imm.toNat % 4 = 0 ∧
    step (lone 0x00C000EF#32 0#32 0#32) = .next (after (lone 0x00C000EF#32 0#32 0#32)) :=
  ⟨by decide, by decide, rfl, by decide, rfl⟩

theorem test_witness_EachTickIsOneSequentialStepOrNone :
    PipeInv twoWriters ∧ Commits twoWriters ∧ step twoWriters = .next (after twoWriters) :=
  ⟨inv_twoWriters, ⟨by decide, by decide, fun h => nomatch h.2⟩, rfl⟩

/-- The run of a HALT at address 0: two ticks, nothing retired. -/
theorem test_witness_CleanEndIsTheSequentialEnd :
    (Memory.ofWords [0x0000007F#32]).wf ∧ (Memory.ofBytes []).wf ∧
    runSteps 2 (loaded [0x0000007F#32] []) = .next (after (after (loaded [0x0000007F#32] []))) ∧
    (after (after (loaded [0x0000007F#32] []))).halted = true := ⟨by decide, by decide, rfl, by decide⟩

/-- `ADDI x1, x0, 5` and HALT: a sequential run of one instruction. -/
theorem test_witness_SequentialEndIsReached :
    (Memory.ofWords [0x00500093#32, 0x0000007F#32]).wf ∧ (Memory.ofBytes []).wf ∧
    archEndsAt (loaded [0x00500093#32, 0x0000007F#32] []).arch 1
      ((loaded [0x00500093#32, 0x0000007F#32] []).arch.setReg 1#5 5#32).advance ∧ 3 * 1 + 6 ≤ Config.maxCycles :=
  ⟨by decide, by decide, ⟨rfl, rfl⟩, by decide⟩

/-- The run of `ADDI x1, x0, 5` and HALT, and its tally: six ticks, no stall, no redirect. -/
theorem test_witness_CleanEndCycleFormula :
    (tallyRun 6 (loaded [0x00500093#32, 0x0000007F#32] []) Tally.zero).isSome = true ∧
    (tallyRun 2 (loaded [0x0000007F#32] []) Tally.zero).isSome = true ∧
    (after (after (loaded [0x0000007F#32] []))).halted = true := by decide

/-- A run of six ticks that retires one instruction and ends: the bound is met with equality. -/
theorem test_witness_CycleLowerBounds :
    (match runSteps 6 (loaded [0x00500093#32, 0x0000007F#32] []) with
     | .next t => t.halted && t.retired == 1 && t.cycle == 6
     | .fault _ => false
     | .refused _ => false) = true := by decide

end Sys2Proof.Tests
end

/-! ## Completing the instructions in flight -/

namespace Sys2Proof.Machine

/-- The instruction in an EX/MEM latch completed over the registers `x` and the data memory `d`: MEM's access (R166), then its
write-back (R163). None when the access raises. -/
def completed (l : ExMem) (x : Vector Word 32) (d : Memory) : Option (Vector Word 32 × Memory) :=
  (memStage { State.resetWith d d with exmem := l }).map fun m =>
    (writeBack x (memLatch { State.resetWith d d with exmem := l } m.result), m.dmem)

/-- MEM's access and the latch it fills depend on EX/MEM and data memory only. -/
theorem completed_eq_memStage (s : State) (x : Vector Word 32) :
    completed s.exmem x s.dmem = (memStage s).map fun m => (writeBack x (memLatch s m.result), m.dmem) := rfl

theorem completed_exmem_of_memStage {s : State} {m : MemOut} (h : memStage s = some m) (x : Vector Word 32) :
    completed s.exmem x s.dmem = some (writeBack x (memLatch s m.result), m.dmem) := by
  rw [completed_eq_memStage, h]
  rfl

@[simp] theorem writeBack_bubble (x : Vector Word 32) : writeBack x MemWb.bubble = x := rfl

@[simp] theorem completed_bubble (x : Vector Word 32) (d : Memory) : completed ExMem.bubble x d = some (x, d) := rfl

/-- The drained state: the instruction in WB, then the one in MEM, then the one in EX, completed in program order. -/
theorem drained_eq_completed (s : State) :
    drained s = (completed s.exmem (wbRegs s) s.dmem).bind fun p =>
      (completed (exLatch s) p.1 p.2).map fun q => { x := q.1, pc := resumePc s, imem := s.imem, dmem := q.2 } := by
  ext a
  rw [drained_eq_some, completed_eq_memStage]
  cases memStage s with
  | none => simp
  | some m1 =>
    have hEx : completed (exLatch s) (writeBack (wbRegs s) (memLatch s m1.result)) m1.dmem =
        (memStage { s with exmem := exLatch s, dmem := m1.dmem }).map fun m =>
          (writeBack (writeBack (wbRegs s) (memLatch s m1.result)) (memLatch { s with exmem := exLatch s } m.result),
            m.dmem) := rfl
    simp [hEx, eq_comm]

/-- A committing tick completes the instruction in MEM: WB's and MEM's effect on registers and data memory are in the state. -/
theorem completed_of_commit {s : State} {m : MemOut} (h : memStage s = some m) (o : IdOut) :
    completed s.exmem (wbRegs s) s.dmem = some (wbRegs (commit s m o), (commit s m o).dmem) :=
  completed_exmem_of_memStage h _

/-- So the state before a committing tick, drained, is the one after it with the instruction that has just left EX completed,
taken back to where the tick resumed. -/
theorem drained_before_commit {s : State} {m : MemOut} (h : memStage s = some m) (o : IdOut) :
    drained s = (completed (exLatch s) (wbRegs (commit s m o)) m.dmem).map fun q =>
      { x := q.1, pc := resumePc s, imem := s.imem, dmem := q.2 } := by
  rw [drained_eq_completed, completed_of_commit h o]
  rfl

/-- A tick in which ID sends a bubble on leaves the drained state, where it leaves the address to resume at. -/
theorem drained_commit_of_bubble {s : State} {m : MemOut} {o : IdOut} (h : memStage s = some m) (ho : o.latch = IdEx.bubble)
    (hpc : resumePc (commit s m o) = resumePc s) : drained (commit s m o) = drained s := by
  have hEx : exLatch (commit s m o) = ExMem.bubble := exLatch_of_nop (by rw [commit_idex, ho]; rfl)
  rw [drained_before_commit h o, drained_eq_completed, hEx, hpc]
  simp only [commit_exmem, commit_dmem, commit_imem, completed_bubble]
  cases completed (exLatch s) (wbRegs (commit s m o)) m.dmem <;> rfl

/-! ## Forwarding gives the register values of the drained state -/

/-- The match predicate of a latch says which register its write-back changes. -/
theorem readReg_writeBack (x : Vector Word 32) (l : MemWb) (r : RegIdx) :
    readReg (writeBack x l) r = if l.supplies r then l.wrtData else readReg x r :=
  readReg_wbRegs { State.resetWith (Memory.blank 0) (Memory.blank 0) with x, memwb := l } r

@[simp] theorem memLatch_supplies (s : State) (v : Word) (r : RegIdx) : (memLatch s v).supplies r = s.exmem.supplies r := by
  cases h : s.exmem.nop with
  | true => rw [memLatch_of_nop h, ExMem.supplies_of_nop h]; rfl
  | false => rw [memLatch_of_busy h]; simp [MemWb.supplies, ExMem.supplies, h]

@[simp] theorem exLatch_supplies (s : State) (r : RegIdx) : (exLatch s).supplies r = s.idex.supplies r := by
  cases h : s.idex.nop with
  | true => rw [exLatch_of_nop h, IdEx.supplies_of_nop h]; rfl
  | false => rw [exLatch_of_busy h]; simp [ExMem.supplies, IdEx.supplies, h]

theorem memLatch_wrtData_of_supplies {s : State} {r : RegIdx} (h : s.exmem.supplies r = true) (v : Word) :
    (memLatch s v).wrtData = v := by
  rw [memLatch_of_busy (ExMem.supplies_iff.mp h).1]

/-- What a register reads once MEM and WB have completed: the instruction in MEM supplies it, or the bypass of ID does. -/
theorem readReg_memory_completed (s : State) (v : Word) (r : RegIdx) :
    readReg (writeBack (wbRegs s) (memLatch s v)) r = if s.exmem.supplies r then v else regRead s r := by
  rw [readReg_writeBack, memLatch_supplies, readReg_wbRegs]
  by_cases h : s.exmem.supplies r = true
  · rw [if_pos h, if_pos h, memLatch_wrtData_of_supplies h]
  · rw [if_neg h, if_neg h]

/-- Except for a load, MEM passes the result of EX on. -/
theorem memStage_result_of_not_load {s : State} {m : MemOut} (hm : memStage s = some m) (hn : s.exmem.nop = false)
    (hl : s.exmem.isLoad = false) : m.result = s.exmem.aluResult := by
  rcases memStage_eq_some hm with ⟨h, _⟩ | ⟨_, h, _⟩ | ⟨_, _, _, _, rfl⟩ | ⟨_, _, _, rfl⟩
  · simp [hn] at h
  · simp [hl] at h
  · rfl
  · rfl

/-- The EX network gives a register's value as the instructions in MEM and WB leave it, unless the one in MEM is a load of it
(R195, R196). -/
theorem fwdEx_eq_readReg {s : State} {m : MemOut} {r : RegIdx} (hm : memStage s = some m)
    (hl : s.exmem.supplies r = true → s.exmem.isLoad = false) :
    fwdEx s r (readReg s.x r) = readReg (writeBack (wbRegs s) (memLatch s m.result)) r := by
  rw [readReg_memory_completed]
  cases h : s.exmem.supplies r with
  | true =>
    have hr := memStage_result_of_not_load hm (ExMem.supplies_iff.mp h).1 (hl h)
    simp [fwdEx, h, hl h, hr]
  | false => simp [fwdEx, regRead, h]

/-- The ID network gives a register's value as the instructions in EX, MEM and WB leave it, unless the one in EX is a load of it
(R203, R225). -/
theorem fwdId_eq_readReg {s : State} {m m' : MemOut} {o : IdOut} {r : RegIdx}
    (hm' : memStage (commit s m o) = some m') (hl : s.idex.supplies r = true → s.idex.isLoad = false) :
    fwdId s { exResult := exResult s, memResult := m.result } r =
      readReg (writeBack (wbRegs (commit s m o)) (memLatch (commit s m o) m'.result)) r := by
  rw [readReg_memory_completed, regRead, commit_exmem, commit_memwb, commit_x, exLatch_supplies, memLatch_supplies,
    readReg_wbRegs]
  cases h : s.idex.supplies r with
  | true =>
    have hEx := exLatch_of_busy (IdEx.supplies_iff.mp h).1
    have hr := memStage_result_of_not_load hm' (by simp [hEx]) (by simp [hEx, hl h])
    simp [fwdId, h, hl h, hr, hEx]
  | false =>
    cases h' : s.exmem.supplies r with
    | true => simp [fwdId, h, h', memLatch_wrtData_of_supplies h']
    | false => simp [fwdId, regRead, h, h']

/-- Without a load-use hazard no register that the instruction in ID reads is supplied by a load in EX. -/
theorem not_load_of_no_loadUse {s : State} {d : Decoded} {r : RegIdx} (h : loadUse s d = false)
    (hr : d.cls.readsRs1 = true ∧ d.rs1 = r ∨ d.cls.readsRs2 = true ∧ d.rs2 = r) (hs : s.idex.supplies r = true) :
    s.idex.isLoad = false := by
  obtain ⟨hn, _, rfl, hz⟩ := IdEx.supplies_iff.mp hs
  by_contra hl
  have : loadUse s d = true := loadUse_iff.mpr ⟨hn, by simpa using hl, hz, hr⟩
  simp [h] at this

/-! ## An instruction in EX performs its rule -/

/-- The state a sequential outcome goes on with, if it does. -/
def ArchOutcome.next? : ArchOutcome → Option ArchState
  | .next a => some a
  | .ended => none
  | .invalidOpcode _ _ => none
  | .memoryOutOfBounds _ => none

theorem archRArith_next? (rd rs1 rs2 : RegIdx) (op : Word → Word → Word) (a : ArchState) :
    (archRArith rd rs1 rs2 op a).next? = some
      { x := writeReg a.x rd (op (a.reg rs1) (a.reg rs2)), pc := nextPc a.pc, imem := a.imem, dmem := a.dmem } := rfl

theorem archIArith_next? (rd rs1 : RegIdx) (imm : BitVec 12) (op : Word → Word → Word) (a : ArchState) :
    (archIArith rd rs1 imm op a).next? = some
      { x := writeReg a.x rd (op (a.reg rs1) (sext imm)), pc := nextPc a.pc, imem := a.imem, dmem := a.dmem } := rfl

theorem archBranch_next? (rs1 rs2 : RegIdx) (off : BitVec 13) (taken : Word → Word → Bool) (a : ArchState) :
    (archBranch rs1 rs2 off taken a).next? = some
      { a with pc := (if taken (a.reg rs1) (a.reg rs2) then some (transferTarget a.pc off) else none).getD (nextPc a.pc) } := by
  unfold archBranch
  cases taken (a.reg rs1) (a.reg rs2) <;> rfl

theorem archNext_some (a : ArchState) : archNext (some a) = (archStep a).next? := by
  cases h : archStep a <;> simp [archNext, ArchOutcome.next?, h]

/-- Where an instruction's rule transfers control to, if it does (R141 to R143). -/
def redirectOf (i : Instr) (a : ArchState) : Option Word :=
  match i with
  | .beq rs1 rs2 off => if a.reg rs1 == a.reg rs2 then some (transferTarget a.pc off) else none
  | .bne rs1 rs2 off => if a.reg rs1 != a.reg rs2 then some (transferTarget a.pc off) else none
  | .jal _ off => some (transferTarget a.pc off)
  | .add _ _ _ | .sub _ _ _ | .xor _ _ _ | .or _ _ _ | .and _ _ _ | .addi _ _ _ | .xori _ _ _ | .ori _ _ _ | .andi _ _ _
  | .lw _ _ _ | .sw _ _ _ | .halt _ => none

/-! The three things an EX/MEM latch can do when it completes (R163, R166). -/

theorem completed_of_no_access {l : ExMem} (hn : l.nop = false) (hl : l.isLoad = false) (hs : l.isStore = false)
    (x : Vector Word 32) (d : Memory) :
    completed l x d = some (if l.writesReg then writeReg x l.rd l.aluResult else x, d) := by
  simp [completed, memStage, memLatch, writeBack, hn, hl, hs]

theorem completed_of_load {l : ExMem} (hn : l.nop = false) (hl : l.isLoad = true) (hw : l.writesReg = true)
    (x : Vector Word 32) (d : Memory) :
    completed l x d = (d.readWord l.aluResult).map fun v => (writeReg x l.rd v, d) := by
  cases h : d.readWord l.aluResult <;> simp [completed, memStage, memLatch, writeBack, hn, hl, hw, h]

theorem completed_of_store {l : ExMem} (hn : l.nop = false) (hl : l.isLoad = false) (hs : l.isStore = true)
    (hw : l.writesReg = false) (x : Vector Word 32) (d : Memory) :
    completed l x d = (d.writeWord l.aluResult l.storeData).map fun d' => (x, d') := by
  cases h : d.writeWord l.aluResult l.storeData <;> simp [completed, memStage, memLatch, writeBack, hn, hl, hs, hw, h]

/-- In `u` the instruction `i`, latched by ID in `s`, stands in EX, and the EX network gives it the operands its rule reads in
`a`. -/
structure InExWith (i : Instr) (s u : State) (a : ArchState) : Prop where
  latch : u.idex = idLatch s i.decoded
  pc : s.ifid.pc = a.pc
  rs1 : i.decoded.cls.readsRs1 = true → fwdEx u i.decoded.rs1 (regRead s i.decoded.rs1) = a.reg i.decoded.rs1
  rs2 : i.decoded.cls.readsRs2 = true → fwdEx u i.decoded.rs2 (regRead s i.decoded.rs2) = a.reg i.decoded.rs2

section
variable {i : Instr} {s u : State} {a : ArchState}

theorem InExWith.exLatch_eq (h : InExWith i s u a) :
    exLatch u = { nop := false, aluResult := exResult u, storeData := exStoreData u, rd := i.decoded.rd,
                  isLoad := i.decoded.cls.isLoad, isStore := i.decoded.cls.isStore,
                  writesReg := i.decoded.cls.writesReg } := by
  rw [exLatch_of_busy (by rw [h.latch]; rfl), h.latch]
  rfl

theorem InExWith.operandA (h : InExWith i s u a) (hr : i.decoded.cls.readsRs1 = true) :
    exOperandA u = a.reg i.decoded.rs1 := by
  rw [← h.rs1 hr, exOperandA, h.latch]
  exact if_pos hr

theorem InExWith.operandB (h : InExWith i s u a) (hr : i.decoded.cls.readsRs2 = true) :
    exOperandB u = a.reg i.decoded.rs2 := by
  rw [← h.rs2 hr, exOperandB, h.latch]
  exact if_pos hr

/-! The result of EX by class (R169), in the operands of the rule. -/

theorem InExWith.exResult_rArith (h : InExWith i s u a) (hc : i.decoded.cls = .rArith) :
    exResult u = alu i.decoded.aluOp (a.reg i.decoded.rs1) (a.reg i.decoded.rs2) := by
  rw [← h.operandA (by rw [hc]; rfl), ← h.operandB (by rw [hc]; rfl)]
  simp [exResult, h.latch, idLatch, hc]

theorem InExWith.exResult_iArith (h : InExWith i s u a) (hc : i.decoded.cls = .iArith) :
    exResult u = alu i.decoded.aluOp (a.reg i.decoded.rs1) i.decoded.imm := by
  rw [← h.operandA (by rw [hc]; rfl)]
  simp [exResult, h.latch, idLatch, hc]

theorem InExWith.exResult_access (h : InExWith i s u a) (hc : i.decoded.cls = .load ∨ i.decoded.cls = .store) :
    exResult u = a.reg i.decoded.rs1 + i.decoded.imm := by
  rw [← h.operandA (by rcases hc with hc | hc <;> rw [hc] <;> rfl)]
  rcases hc with hc | hc <;> simp [exResult, h.latch, idLatch, hc]

theorem InExWith.exResult_jal (h : InExWith i s u a) (hc : i.decoded.cls = .jal) : exResult u = nextPc a.pc := by
  simp [exResult, h.latch, idLatch, hc, h.pc]

/-- The word a store writes (R170), in the operand of the rule. -/
theorem InExWith.exStoreData_store (h : InExWith i s u a) (hc : i.decoded.cls = .store) :
    exStoreData u = a.reg i.decoded.rs2 := by
  rw [← h.operandB (by rw [hc]; rfl)]
  simp [exStoreData, h.latch, idLatch, hc]

/-- What completing the instruction in EX leaves, the pc being where the instruction's rule leads. -/
def ruleState (i : Instr) (u : State) (a : ArchState) : Option ArchState :=
  (completed (exLatch u) a.x a.dmem).map fun q =>
    { x := q.1, pc := (redirectOf i a).getD (nextPc a.pc), imem := a.imem, dmem := q.2 }

theorem ruleState_of_no_access (h : InExWith i s u a) (hl : i.decoded.cls.isLoad = false)
    (hs : i.decoded.cls.isStore = false) :
    ruleState i u a = some
      { x := if i.decoded.cls.writesReg then writeReg a.x i.decoded.rd (exResult u) else a.x
        pc := (redirectOf i a).getD (nextPc a.pc), imem := a.imem, dmem := a.dmem } := by
  rw [ruleState, h.exLatch_eq, completed_of_no_access rfl hl hs]
  rfl

theorem ruleState_of_load (h : InExWith i s u a) (hc : i.decoded.cls = .load) :
    ruleState i u a = (a.dmem.readWord (a.reg i.decoded.rs1 + i.decoded.imm)).map fun v =>
      { x := writeReg a.x i.decoded.rd v, pc := (redirectOf i a).getD (nextPc a.pc), imem := a.imem, dmem := a.dmem } := by
  rw [ruleState, h.exLatch_eq, h.exResult_access (.inl hc), hc, completed_of_load rfl rfl rfl, Option.map_map]
  rfl

theorem ruleState_of_store (h : InExWith i s u a) (hc : i.decoded.cls = .store) :
    ruleState i u a = (a.dmem.writeWord (a.reg i.decoded.rs1 + i.decoded.imm) (a.reg i.decoded.rs2)).map fun d =>
      { x := a.x, pc := (redirectOf i a).getD (nextPc a.pc), imem := a.imem, dmem := d } := by
  rw [ruleState, h.exLatch_eq, h.exResult_access (.inr hc), h.exStoreData_store hc, hc, completed_of_store rfl rfl rfl rfl,
    Option.map_map]
  rfl

/-- Every instruction but HALT, once it is in EX with the operands its rule reads, does on completion what its rule says (R14,
R110 to R143). -/
theorem archExec_next?_eq_ruleState (hi : i.decoded.cls ≠ .halt) (h : InExWith i s u a) :
    (archExec i a).next? = ruleState i u a := by
  cases i with
  | add rd rs1 rs2 | sub rd rs1 rs2 | xor rd rs1 rs2 | or rd rs1 rs2 | and rd rs1 rs2 =>
    rw [ruleState_of_no_access h rfl rfl, h.exResult_rArith rfl]
    simp [archExec, archAdd, archSub, archXor, archOr, archAnd, archRArith_next?, redirectOf, alu, OpClass.writesReg]
  | addi rd rs1 imm | xori rd rs1 imm | ori rd rs1 imm | andi rd rs1 imm =>
    rw [ruleState_of_no_access h rfl rfl, h.exResult_iArith rfl]
    simp [archExec, archAddi, archXori, archOri, archAndi, archIArith_next?, redirectOf, alu, OpClass.writesReg]
  | lw rd rs1 imm =>
    rw [ruleState_of_load h rfl]
    simp only [archExec, archLw, effectiveAddress, decoded_lw_rs1, decoded_lw_imm, decoded_lw_rd]
    cases a.dmem.readWord (a.reg rs1 + sext imm) <;> rfl
  | sw rs2 rs1 imm =>
    rw [ruleState_of_store h rfl]
    simp only [archExec, archSw, effectiveAddress, decoded_sw_rs1, decoded_sw_imm, decoded_sw_rs2]
    cases a.dmem.writeWord (a.reg rs1 + sext imm) (a.reg rs2) <;> rfl
  | beq rs1 rs2 off | bne rs1 rs2 off =>
    rw [ruleState_of_no_access h rfl rfl]
    simp [archExec, archBeq, archBne, archBranch_next?, redirectOf, OpClass.writesReg]
  | jal rd off =>
    rw [ruleState_of_no_access h rfl rfl, h.exResult_jal rfl, decoded_jal_rd]
    rfl
  | halt => exact absurd rfl hi

end

/-- What ID drives for an instruction that nothing holds, when its network gives it the operands its rule reads: its latch, and
the redirect of its rule (R173, R221, R223). -/
theorem driven_eq_redirectOf {i : Instr} {s : State} {w : Wires} {a : ArchState} (hi : i.decoded.cls ≠ .halt)
    (hl : loadUse s i.decoded = false) (hpc : s.ifid.pc = a.pc)
    (h1 : i.decoded.cls.readsRs1 = true → fwdId s w i.decoded.rs1 = a.reg i.decoded.rs1)
    (h2 : i.decoded.cls.readsRs2 = true → fwdId s w i.decoded.rs2 = a.reg i.decoded.rs2) :
    driven i s w = { latch := idLatch s i.decoded, stall := false, redirect := redirectOf i a } := by
  cases i with
  | beq rs1 rs2 off | bne rs1 rs2 off =>
    rw [driven, idIssue_sent hl, h1 rfl, h2 rfl, hpc]
    simp [redirectOf, transferTarget]
  | jal rd off =>
    rw [driven, idIssue_sent hl, hpc, decoded_jal_imm]
    rfl
  | halt _ => exact absurd rfl hi
  | _ => exact idIssue_sent hl none

theorem archLw_of_inBounds {rd rs1 : RegIdx} {imm : BitVec 12} {a : ArchState}
    (h : a.dmem.inBounds (effectiveAddress a rs1 imm) = true) :
    archLw rd rs1 imm a = .next (a.setReg rd (a.dmem.wordAt (effectiveAddress a rs1 imm).toNat)).advance := by
  rw [archLw, Memory.readWord_eq_some.mpr ⟨h, rfl⟩]

theorem archSw_of_inBounds {rs2 rs1 : RegIdx} {imm : BitVec 12} {a : ArchState}
    (h : a.dmem.inBounds (effectiveAddress a rs1 imm) = true) :
    archSw rs2 rs1 imm a =
      .next { a with dmem := a.dmem.setWordAt (effectiveAddress a rs1 imm).toNat (a.reg rs2) }.advance := by
  rw [archSw, Memory.writeWord_eq_some.mpr ⟨h, rfl⟩]

theorem archBranch_of_taken {rs1 rs2 : RegIdx} {off : BitVec 13} {taken : Word → Word → Bool} {a : ArchState}
    (h : taken (a.reg rs1) (a.reg rs2) = true) :
    archBranch rs1 rs2 off taken a = .next (a.goto (transferTarget a.pc off)) := by
  rw [archBranch, if_pos h]

theorem archBranch_of_not_taken {rs1 rs2 : RegIdx} {off : BitVec 13} {taken : Word → Word → Bool} {a : ArchState}
    (h : taken (a.reg rs1) (a.reg rs2) = false) : archBranch rs1 rs2 off taken a = .next a.advance := by
  rw [archBranch, if_neg (ne_true_of_eq_false h)]

/-! ## An instruction alone in the pipe -/

/-! With bubbles in front of it a network gives the register file's own value. -/

theorem regRead_of_nop {s : State} (h : s.memwb.nop = true) (r : RegIdx) : regRead s r = readReg s.x r := by
  simp [regRead, MemWb.supplies_of_nop h]

theorem fwdEx_of_nop {s : State} (h3 : s.exmem.nop = true) (h4 : s.memwb.nop = true) (r : RegIdx) (v : Word) :
    fwdEx s r v = v := by
  simp [fwdEx, ExMem.supplies_of_nop h3, MemWb.supplies_of_nop h4]

theorem fwdId_of_nop {s : State} (h2 : s.idex.nop = true) (h3 : s.exmem.nop = true) (h4 : s.memwb.nop = true) (w : Wires)
    (r : RegIdx) : fwdId s w r = readReg s.x r := by
  simp [fwdId, IdEx.supplies_of_nop h2, ExMem.supplies_of_nop h3, MemWb.supplies_of_nop h4]

theorem cls_ne_halt_of_archExec_next {i : Instr} {a b : ArchState} (h : archExec i a = .next b) : i.decoded.cls ≠ .halt := by
  cases i with
  | halt _ => cases h
  | _ => simp

/-- What an instruction's rule leaves is what its latch leaves when it completes; its pc is its redirect's target or the next
address. -/
theorem completed_of_archExec_next {i : Instr} {s u : State} {a b : ArchState} (h : InExWith i s u a)
    (hb : archExec i a = .next b) :
    completed (exLatch u) a.x a.dmem = some (b.x, b.dmem) ∧ b.pc = (redirectOf i a).getD (nextPc a.pc) := by
  have hrule := archExec_next?_eq_ruleState (cls_ne_halt_of_archExec_next hb) h
  rw [hb, eq_comm, ruleState, ArchOutcome.next?, Option.map_eq_some_iff] at hrule
  obtain ⟨q, hq, rfl⟩ := hrule
  exact ⟨hq, rfl⟩

/-- The instruction alone in the pipe, as it stands in EX one tick later. -/
theorem inExWith_of_alone {s : State} (h : AloneInId s) (i : Instr) :
    InExWith i s { s with idex := idLatch s i.decoded, exmem := ExMem.bubble, memwb := MemWb.bubble } (archOfAlone s) :=
  have hread (r : RegIdx) : fwdEx { s with idex := idLatch s i.decoded, exmem := ExMem.bubble, memwb := MemWb.bubble } r
      (regRead s r) = (archOfAlone s).reg r := by
    obtain ⟨-, -, -, -, -, -, -, h4⟩ := h
    rw [fwdEx_of_nop rfl rfl, regRead_of_nop h4]
    rfl
  { latch := rfl, pc := rfl, rs1 := fun _ => hread _, rs2 := fun _ => hread _ }

/-- An instruction alone in the pipe, whose rule goes on, ends four ticks later with the registers and the data memory of its
rule, and the pc at its target or where fetching stopped (R14). -/
theorem exec_alone_performs_rule {s : State} {x : Vector Word 32} {d im : Memory} {p pc : Word} (i : Instr)
    (h : AloneInId s) (ha : archExec i (archOfAlone s) = .next { x, pc := p, imem := im, dmem := d })
    (hpc : (redirectOf i (archOfAlone s)).getD s.pc = pc) (hstop : fetchStopsAt s.imem pc = true) :
    ∃ t, exec i s = .next t ∧ runSteps 3 t = .next (flown s x d pc) := by
  obtain ⟨-, -, -, -, -, h2, h3, h4⟩ := id h
  subst hpc
  have hd : ∀ w, driven i s w =
      { latch := idLatch s i.decoded, stall := false, redirect := redirectOf i (archOfAlone s) } := fun w =>
    driven_eq_redirectOf (cls_ne_halt_of_archExec_next ha) (loadUse_of_nop h2 _) rfl (fun _ => fwdId_of_nop h2 h3 h4 w _)
      (fun _ => fwdId_of_nop h2 h3 h4 w _)
  have hcompleted := (completed_of_archExec_next (inExWith_of_alone h i) ha).1
  obtain ⟨m, hm, hq⟩ := Option.map_eq_some_iff.mp hcompleted
  obtain ⟨rfl, rfl⟩ := Prod.mk.inj hq
  exact exec_alone i s _ _ m h rfl hd hstop hm

end Sys2Proof.Machine

namespace Sys2Proof.Certificates

open Sys2Proof.Machine

/-- Settles O42: where the rule's own pc is the one fetching stops at. -/
theorem loneInstructionPerformsItsRule : Obligations.LoneInstructionPerformsItsRule := by
  intro i s a h hpc ha _ hstop
  have hgoto := (completed_of_archExec_next (inExWith_of_alone h i) ha).2
  exact exec_alone_performs_rule i h ha (by rw [hgoto, hpc]; rfl) hstop

/-- Settles O35: each of the five rules, by definition, and no redirect. -/
theorem registerArithmeticCompletes : Obligations.RegisterArithmeticCompletes := by
  intro rd rs1 rs2 s h hstop
  exact ⟨exec_alone_performs_rule (.add rd rs1 rs2) h rfl rfl hstop,
    exec_alone_performs_rule (.sub rd rs1 rs2) h rfl rfl hstop,
    exec_alone_performs_rule (.xor rd rs1 rs2) h rfl rfl hstop,
    exec_alone_performs_rule (.or rd rs1 rs2) h rfl rfl hstop,
    exec_alone_performs_rule (.and rd rs1 rs2) h rfl rfl hstop⟩

/-- Settles O36: each of the four rules, by definition, and no redirect. -/
theorem immediateArithmeticCompletes : Obligations.ImmediateArithmeticCompletes := by
  intro rd rs1 imm s h hstop
  exact ⟨exec_alone_performs_rule (.addi rd rs1 imm) h rfl rfl hstop,
    exec_alone_performs_rule (.xori rd rs1 imm) h rfl rfl hstop,
    exec_alone_performs_rule (.ori rd rs1 imm) h rfl rfl hstop,
    exec_alone_performs_rule (.andi rd rs1 imm) h rfl rfl hstop⟩

/-- Settles O37: in bounds, the rule loads the word of the four bytes. -/
theorem loadCompletes : Obligations.LoadCompletes := by
  intro rd rs1 imm s h hstop hb
  exact exec_alone_performs_rule (.lw rd rs1 imm) h (archLw_of_inBounds (decide_eq_true hb)) rfl hstop

/-- Settles O38: in bounds, the rule writes the four bytes, and every other byte stays. -/
theorem storeCompletes : Obligations.StoreCompletes := by
  intro rs2 rs1 imm s h hstop hwf hb
  obtain ⟨t, ht, hrun⟩ :=
    exec_alone_performs_rule (.sw rs2 rs1 imm) h (archSw_of_inBounds (decide_eq_true hb)) rfl hstop
  have hbyte (k : Nat) := Memory.byteAt_setWordAt_eq hwf (readReg s.x rs1 + imm.signExtend 32) (readReg s.x rs2) k
  refine ⟨t, _, ht, hrun, rfl, ?_, ?_, ?_, ?_, fun k hk => ?_⟩
  · exact (hbyte _).trans (byteAfterWrite_inside _ _ _ (k := 0) (by decide))
  · exact (hbyte _).trans (byteAfterWrite_inside _ _ _ (k := 1) (by decide))
  · exact (hbyte _).trans (byteAfterWrite_inside _ _ _ (k := 2) (by decide))
  · exact (hbyte _).trans (byteAfterWrite_inside _ _ _ (k := 3) (by decide))
  · exact (hbyte _).trans (byteAfterWrite_outside _ _ _ hk)

/-- Settles O40: each branch's own comparison decides its rule and its redirect. -/
theorem branchCompletes : Obligations.BranchCompletes := by
  intro rs1 rs2 off s h
  refine ⟨fun heq hstop => ?_, fun hne hstop => ?_, fun hne hstop => ?_, fun heq hstop => ?_⟩
  · have ht : (readReg s.x rs1 == readReg s.x rs2) = true := beq_iff_eq.mpr heq
    exact exec_alone_performs_rule (.beq rs1 rs2 off) h (archBranch_of_taken ht)
      (congrArg (Option.getD · s.pc) (if_pos ht)) hstop
  · have ht : (readReg s.x rs1 == readReg s.x rs2) = false := beq_eq_false_iff_ne.mpr hne
    exact exec_alone_performs_rule (.beq rs1 rs2 off) h (archBranch_of_not_taken ht)
      (congrArg (Option.getD · s.pc) (if_neg (ne_true_of_eq_false ht))) hstop
  · have ht : (readReg s.x rs1 != readReg s.x rs2) = true := bne_iff_ne.mpr hne
    exact exec_alone_performs_rule (.bne rs1 rs2 off) h (archBranch_of_taken ht)
      (congrArg (Option.getD · s.pc) (if_pos ht)) hstop
  · have ht : (readReg s.x rs1 != readReg s.x rs2) = false := bne_eq_false_iff_eq.mpr heq
    exact exec_alone_performs_rule (.bne rs1 rs2 off) h (archBranch_of_not_taken ht)
      (congrArg (Option.getD · s.pc) (if_neg (ne_true_of_eq_false ht))) hstop

/-- Settles O41: JAL always redirects. -/
theorem jumpCompletes : Obligations.JumpCompletes := by
  intro rd off s h hstop
  exact exec_alone_performs_rule (.jal rd off) h rfl rfl hstop

end Sys2Proof.Certificates

/-! ## What a committing step does, by what is in ID -/

namespace Sys2Proof

theorem decodeWord_of_isHaltWord {w : Word} (h : isHaltWord w = true) : decodeWord w = .ok (.halt (w.extractLsb' 7 25)) := by
  have hop : fieldOpcode w = opHalt := by simpa [isHaltWord] using h
  simp [decodeWord, hop, opHalt, opRArith, opIArith, opLoad, opStore, opBranch, opJal]

/-- Only a HALT word decodes to an instruction of class HALT (R94). -/
theorem cls_ne_halt_of_decodeWord {w : Word} {i : Instr} (hd : decodeWord w = .ok i) (hw : isHaltWord w = false) :
    i.decoded.cls ≠ .halt := by
  cases i with
  | halt ignored =>
    have hop : fieldOpcode w ≠ opHalt := by simpa [isHaltWord] using hw
    unfold decodeWord decodeRArith decodeIArith decodeLoad decodeStore decodeBranch at hd
    split_ifs at hd <;> cases hd
  | _ => simp

end Sys2Proof

namespace Sys2Proof.Machine

/-- The state after a tick that commits, by what ID does in it: nothing behind a bubble, a stall, or the instruction sent on with
the redirect it resolves to. -/
inductive Committed (s : State) (m : MemOut) : State → Prop where
  | bubble (hn : s.ifid.nop = true) : Committed s m (commit s m idNothing)
  | held (i : Instr) (hn : s.ifid.nop = false) (hd : decodeWord s.ifid.instr = .ok i) (hl : loadUse s i.decoded = true) :
      Committed s m (commit s m idHeld)
  | sent (i : Instr) (r : Option Word) (hn : s.ifid.nop = false) (hd : decodeWord s.ifid.instr = .ok i)
      (hi : i.decoded.cls ≠ .halt) (hl : loadUse s i.decoded = false)
      (hr : driven i s { exResult := exResult s, memResult := m.result } =
        { latch := idLatch s i.decoded, stall := false, redirect := r }) :
      Committed s m (commit s m { latch := idLatch s i.decoded, stall := false, redirect := r })

theorem driven_of_not_halt {i : Instr} (hi : i.decoded.cls ≠ .halt) (s : State) (w : Wires) :
    ∃ r, driven i s w = idIssue s i.decoded r := by
  cases i with
  | halt _ => exact absurd rfl hi
  | _ => exact ⟨_, rfl⟩

theorem step_committed {s t : State} (hf : FetchedWord s) (hc : Commits s) (h : step s = .next t) :
    ∃ m, memStage s = some m ∧ Committed s m t := by
  obtain ⟨m, hm, ⟨hn, hs⟩ | ⟨hn, i, hd, -, hs⟩⟩ := step_of_commits hc
  · obtain rfl : t = _ := Host.Outcome.next.inj (h.symm.trans hs)
    exact ⟨m, hm, .bubble hn⟩
  · obtain rfl : t = _ := Host.Outcome.next.inj (h.symm.trans hs)
    have hi := cls_ne_halt_of_decodeWord hd (hf hn).2.1
    refine ⟨m, hm, ?_⟩
    obtain ⟨r, hr⟩ := driven_of_not_halt hi s { exResult := exResult s, memResult := m.result }
    cases hl : loadUse s i.decoded with
    | true =>
      rw [hr, idIssue_held hl]
      exact .held i hn hd hl
    | false =>
      rw [idIssue_sent hl] at hr
      rw [hr]
      exact .sent i r hn hd hi hl hr

theorem issues_of_bubble {s : State} (hn : s.ifid.nop = true) : issues s = false := by simp [issues, hn]

theorem issues_of_decoded {s : State} {i : Instr} (hn : s.ifid.nop = false) (hd : decodeWord s.ifid.instr = .ok i) :
    issues s = !loadUse s i.decoded := by
  simp [issues, hn, hd]

theorem resumePc_of_bubble {s : State} (hn : s.ifid.nop = true) : resumePc s = s.pc := by simp [resumePc, hn]

theorem resumePc_of_fetched {s : State} (hn : s.ifid.nop = false) : resumePc s = s.ifid.pc := by simp [resumePc, hn]

/-- Where the engine resumes after a tick without a stall: at the target of a redirect, or where it was about to fetch. -/
theorem resumePc_commit {s : State} {m : MemOut} {o : IdOut} (ho : o.stall = false) :
    resumePc (commit s m o) = o.redirect.getD s.pc := by
  unfold resumePc
  rw [commit_ifid, commit_pc]
  cases hr : o.redirect with
  | some target => simp [ifStage_redirect ho hr]
  | none =>
    rw [ifStage_fetch ho hr]
    rcases ifFetch_cases s with ⟨_, h⟩ | ⟨_, w, _, _, h⟩ <;> simp [h, ifStop]

/-! ## Each tick is one sequential step or none -/

theorem archStep_eq_archExec {a : ArchState} {w : Word} {i : Instr} (hw : a.imem.readWord a.pc = some w)
    (hd : decodeWord w = .ok i) : archStep a = archExec i a := by
  simp [archStep, hw, hd]

section
variable {s : State} {m m' : MemOut} {o : IdOut} {i : Instr} {a : ArchState}

/-- The instruction that ID sends on finds in EX the operands of the sequential state it starts from: the one that MEM leaves
when it has completed the instruction ahead. -/
theorem inExWith_of_sent (ho : o.latch = idLatch s i.decoded) (hl : loadUse s i.decoded = false)
    (hm' : memStage (commit s m o) = some m') (hpc : s.ifid.pc = a.pc)
    (hx : a.x = writeBack (wbRegs (commit s m o)) (memLatch (commit s m o) m'.result)) : InExWith i s (commit s m o) a :=
  have hread (r : RegIdx) (hs : s.idex.supplies r = true → s.idex.isLoad = false) :
      fwdEx (commit s m o) r (regRead s r) = a.reg r := by
    have hload : (commit s m o).exmem.supplies r = true → (commit s m o).exmem.isLoad = false := fun h => by
      rw [commit_exmem, exLatch_supplies] at h
      rw [commit_exmem, exLatch_of_busy (IdEx.supplies_iff.mp h).1]
      exact hs h
    rw [ArchState.reg, hx, ← fwdEx_eq_readReg hm' hload, commit_x, readReg_wbRegs]
  { latch := ho
    pc := hpc
    rs1 := fun h => hread _ (not_load_of_no_loadUse hl (.inl ⟨h, rfl⟩))
    rs2 := fun h => hread _ (not_load_of_no_loadUse hl (.inr ⟨h, rfl⟩)) }

/-- The redirect that ID resolves is the one of the instruction's rule in that sequential state. -/
theorem driven_redirect_eq_redirectOf {r : Option Word} (hi : i.decoded.cls ≠ .halt) (hl : loadUse s i.decoded = false)
    (hr : driven i s { exResult := exResult s, memResult := m.result } =
      { latch := idLatch s i.decoded, stall := false, redirect := r })
    (hm' : memStage (commit s m o) = some m') (hpc : s.ifid.pc = a.pc)
    (hx : a.x = writeBack (wbRegs (commit s m o)) (memLatch (commit s m o) m'.result)) : r = redirectOf i a := by
  have hread (q : RegIdx) (hs : s.idex.supplies q = true → s.idex.isLoad = false) :
      fwdId s { exResult := exResult s, memResult := m.result } q = a.reg q := by
    rw [ArchState.reg, hx, fwdId_eq_readReg hm' hs]
  rw [driven_eq_redirectOf hi hl hpc (fun h => hread _ (not_load_of_no_loadUse hl (.inl ⟨h, rfl⟩)))
    (fun h => hread _ (not_load_of_no_loadUse hl (.inr ⟨h, rfl⟩)))] at hr
  exact (IdOut.mk.inj hr).2.2.symm

/-- A tick in which ID sends its instruction on takes the drained state through one sequential step. -/
theorem drained_commit_of_sent {r : Option Word} (hf : FetchedWord s) (hm : memStage s = some m) (hn : s.ifid.nop = false)
    (hd : decodeWord s.ifid.instr = .ok i) (hi : i.decoded.cls ≠ .halt) (hl : loadUse s i.decoded = false)
    (hr : driven i s { exResult := exResult s, memResult := m.result } =
      { latch := idLatch s i.decoded, stall := false, redirect := r }) :
    drained (commit s m { latch := idLatch s i.decoded, stall := false, redirect := r }) = archNext (drained s) := by
  obtain ⟨hword, -, hnext⟩ := hf hn
  set o : IdOut := { latch := idLatch s i.decoded, stall := false, redirect := r }
  rw [drained_before_commit hm o, drained_eq_completed, resumePc_of_fetched hn, resumePc_commit rfl,
    show exLatch s = (commit s m o).exmem from rfl, show m.dmem = (commit s m o).dmem from rfl]
  cases hm' : memStage (commit s m o) with
  | none =>
    rw [completed_eq_memStage, hm']
    rfl
  | some m' =>
    rw [completed_exmem_of_memStage hm', Option.map_some, archNext_some,
      archStep_eq_archExec (w := s.ifid.instr) hword hd,
      archExec_next?_eq_ruleState hi (inExWith_of_sent rfl hl hm' rfl rfl), ruleState,
      ← driven_redirect_eq_redirectOf hi hl hr hm' rfl rfl, hnext]
    rfl

end

end Sys2Proof.Machine

namespace Sys2Proof.Certificates

open Sys2Proof.Machine

/-- Settles O54: by what ID does in the tick. -/
theorem eachTickIsOneSequentialStepOrNone : Obligations.EachTickIsOneSequentialStepOrNone := by
  intro s t inv hc hs
  obtain ⟨m, hm, ht⟩ := step_committed inv.fetchedWord hc hs
  cases ht with
  | bubble hn =>
    rw [issues_of_bubble hn]
    exact drained_commit_of_bubble hm rfl ((resumePc_commit rfl).trans (resumePc_of_bubble hn).symm)
  | held i hn hd hl =>
    rw [issues_of_decoded hn hd, hl]
    exact drained_commit_of_bubble hm rfl rfl
  | sent i r hn hd hi hl hr =>
    rw [issues_of_decoded hn hd, hl]
    exact drained_commit_of_sent inv.fetchedWord hm hn hd hi hl hr

end Sys2Proof.Certificates

/-! ## The invariant holds in every reachable state -/

namespace Sys2Proof.Machine

/-- What the invariant asks of the outputs of IF: items of `StoppedIsEmpty`, `StopHasReason`, `BubblesBlank` and `FetchedWord`. -/
structure FetchSound (im : Memory) (f : IfOut) : Prop where
  stoppedIsEmpty : f.ifNop = true → f.ifid.nop = true
  stopHasReason : f.ifNop = true → fetchStopsAt im f.pc = true
  bubbleBlank : f.ifid.nop = true → f.ifid = IfId.bubble
  fetchedWord : f.ifid.nop = false →
    im.readWord f.ifid.pc = some f.ifid.instr ∧ isHaltWord f.ifid.instr = false ∧ f.pc = nextPc f.ifid.pc

/-- IF keeps its part of the invariant, whatever ID drives. -/
theorem fetchSound_ifStage {s : State} (inv : PipeInv s) (o : IdOut) : FetchSound s.imem (ifStage s o) := by
  cases hst : o.stall with
  | true =>
    rw [ifStage_stall hst]
    exact ⟨inv.stoppedIsEmpty, inv.stopHasReason, inv.bubblesBlank.1, inv.fetchedWord⟩
  | false =>
    cases hr : o.redirect with
    | some target =>
      rw [ifStage_redirect hst hr]
      exact ⟨nofun, nofun, fun _ => rfl, nofun⟩
    | none =>
      rw [ifStage_fetch hst hr]
      rcases ifFetch_cases s with ⟨hstop, h⟩ | ⟨-, w, hw, hh, h⟩ <;> rw [h]
      · exact ⟨fun _ => rfl, fun _ => hstop.elim inv.stopHasReason id, fun _ => rfl, nofun⟩
      · exact ⟨nofun, nofun, nofun, fun _ => ⟨hw, hh, rfl⟩⟩

theorem opClass_access_flags (c : OpClass) :
    (c.isLoad = true → c.isStore = false ∧ c.writesReg = true) ∧
    (c.isStore = true → c.isLoad = false ∧ c.writesReg = false) := by
  cases c <;> decide

/-- What ID puts in ID/EX in a tick that commits. -/
def LatchSound (s : State) (l : IdEx) : Prop :=
  l = IdEx.bubble ∨ ∃ d : Decoded, l = idLatch s d ∧ d.cls ≠ .halt ∧ loadUse s d = false

section
variable {s : State} {m : MemOut} {o : IdOut}

theorem idExFlags_commit (ho : LatchSound s o.latch) : IdExFlags (commit s m o) := by
  intro hn
  rw [commit_idex] at hn ⊢
  rcases ho with h | ⟨d, h, hd, -⟩ <;> rw [h] at hn ⊢
  · cases hn
  · exact ⟨hd, rfl, rfl, rfl, rfl⟩

/-- The write-back bypass makes what ID latches the register file's next value (R172, R197). -/
theorem latchedOperands_commit (ho : LatchSound s o.latch) : LatchedOperands (commit s m o) := by
  intro hn
  rw [commit_idex] at hn ⊢
  rcases ho with h | ⟨d, h, -, -⟩ <;> rw [h] at hn ⊢
  · cases hn
  · exact ⟨(readReg_wbRegs s _).symm, (readReg_wbRegs s _).symm⟩

/-- The stall keeps a reader away from the load in front of it (R196, R204). -/
theorem noUnfinishedLoad_commit (ho : LatchSound s o.latch) : NoUnfinishedLoad (commit s m o) := by
  intro hn hx hload hrd
  rw [commit_exmem, exLatch_nop] at hx
  rw [commit_exmem, exLatch_of_busy hx] at hload hrd ⊢
  rw [commit_idex] at hn ⊢
  rcases ho with h | ⟨d, h, -, hl⟩ <;> rw [h] at hn ⊢
  · cases hn
  · have hno (hr : d.cls.readsRs1 = true ∧ d.rs1 = s.idex.rd ∨ d.cls.readsRs2 = true ∧ d.rs2 = s.idex.rd) : False := by
      simp [loadUse_iff.mpr ⟨hx, hload, hrd, hr⟩] at hl
    exact ⟨fun h1 e => hno (.inl ⟨h1, e⟩), fun h2 e => hno (.inr ⟨h2, e⟩)⟩

theorem exMemFlags_commit (hf : IdExFlags s) : ExMemFlags (commit s m o) := by
  intro hx
  rw [commit_exmem, exLatch_nop] at hx
  obtain ⟨-, hl, hs, hw, -⟩ := hf hx
  rw [commit_exmem, exLatch_of_busy hx, hl, hs, hw]
  exact opClass_access_flags s.idex.cls

theorem bubblesBlank_commit (inv : PipeInv s) (ho : LatchSound s o.latch) : BubblesBlank (commit s m o) := by
  refine ⟨(fetchSound_ifStage inv o).bubbleBlank, fun h => ?_, fun h => ?_, fun h => ?_⟩
  · rw [commit_idex] at h ⊢
    rcases ho with e | ⟨d, e, -, -⟩ <;> rw [e] at h ⊢
    cases h
  · rw [commit_exmem, exLatch_nop] at h
    exact exLatch_of_nop h
  · rw [commit_memwb, memLatch_nop] at h
    exact memLatch_of_nop h _

/-- A tick that commits keeps the invariant (R38). -/
theorem pipeInv_commit (inv : PipeInv s) (hr : Running s) (hm : memStage s = some m) (ho : LatchSound s o.latch)
    (hdone : runDone s = true → o = idNothing) : PipeInv (commit s m o) where
  zeroCell := (wbRegs_cell_zero s).trans inv.zeroCell
  memoriesWf := ⟨inv.memoriesWf.1, memStage_wf inv.memoriesWf.2 hm⟩
  stoppedIsEmpty := (fetchSound_ifStage inv o).stoppedIsEmpty
  stopHasReason := (fetchSound_ifStage inv o).stopHasReason
  bubblesBlank := bubblesBlank_commit inv ho
  fetchedWord := (fetchSound_ifStage inv o).fetchedWord
  idExFlags := idExFlags_commit ho
  exMemFlags := exMemFlags_commit inv.idExFlags
  latchedOperands := latchedOperands_commit ho
  noUnfinishedLoad := noUnfinishedLoad_commit ho
  countersBounded := by
    have := wbRetired_le s
    have := inv.countersBounded
    have := hr.2.2
    simp only [CountersBounded, commit_retired, commit_cycle] at *
    omega
  haltedIsEmpty := fun h => by
    obtain rfl := hdone h
    rw [commit_halted] at h
    simp only [runDone, Bool.and_eq_true] at h
    obtain ⟨⟨⟨⟨hstop, -⟩, h2⟩, h3⟩, -⟩ := h
    simp [runDone, ifFetch_of_stopped hstop, ifStop, h2, h3]

end

theorem not_runDone_of_fetched {s : State} (hn : s.ifid.nop = false) : runDone s = false := by simp [runDone, hn]

theorem pipeInv_of_committed {s t : State} {m : MemOut} (inv : PipeInv s) (hr : Running s) (hm : memStage s = some m)
    (ht : Committed s m t) : PipeInv t := by
  cases ht with
  | bubble hn => exact pipeInv_commit inv hr hm (.inl rfl) (fun _ => rfl)
  | held i hn hd hl => exact pipeInv_commit inv hr hm (.inl rfl) (by simp [not_runDone_of_fetched hn])
  | sent i r hn hd hi hl =>
    exact pipeInv_commit inv hr hm (.inr ⟨_, rfl, hi, hl⟩) (by simp [not_runDone_of_fetched hn])

/-- Taking an error changes nothing the invariant speaks of, and only a run that has not ended takes one. -/
theorem pipeInv_raiseFault {s : State} (inv : PipeInv s) (f : Fault) : PipeInv (raiseFault s f) :=
  { inv with }

/-- Every step is the state kept, an error's record, or a tick that commits. -/
theorem step_next_commits {s t : State} (h : step s = .next t) : t = s ∨ (∃ f, t = raiseFault s f) ∨ Commits s := by
  obtain ⟨-, ⟨-, rfl⟩ | ⟨-, hf⟩ | ⟨hr, m, hm, hid⟩⟩ := step_next h
  · exact .inl rfl
  · exact .inr (.inl hf)
  · have hm' : ¬ MemRaises s := fun e => by simp [memRaises_iff.mp e] at hm
    refine .inr (.inr ⟨hr, hm', fun ⟨hn, he⟩ => ?_⟩)
    rcases hid with ⟨hn', -⟩ | ⟨-, i, hd, -⟩
    · simp [hn] at hn'
    · simp [he] at hd

/-! ## A run from reset stands for a sequential run -/

/-- The instructions in ID/EX, EX/MEM and MEM/WB. -/
def inFlight (s : State) : Nat :=
  (!s.idex.nop).toNat + (!s.exmem.nop).toNat + (!s.memwb.nop).toNat

/-- The instructions that have left ID: retired or in flight. -/
def issuedCount (s : State) : Nat := s.retired + inFlight s

theorem issuedCount_commit (s : State) (m : MemOut) (o : IdOut) :
    issuedCount (commit s m o) = issuedCount s + (!o.latch.nop).toNat := by
  simp only [issuedCount, inFlight, commit_retired, commit_idex, commit_exmem, commit_memwb, exLatch_nop, memLatch_nop,
    wbRetired]
  cases s.memwb.nop <;> simp <;> omega

theorem issuedCount_committed {s t : State} {m : MemOut} (ht : Committed s m t) :
    issuedCount t = issuedCount s + (issues s).toNat := by
  cases ht with
  | bubble hn => rw [issuedCount_commit, issues_of_bubble hn]; rfl
  | held i hn hd hl => rw [issuedCount_commit, issues_of_decoded hn hd, hl]; rfl
  | sent i r hn hd hi hl => rw [issuedCount_commit, issues_of_decoded hn hd, hl]; rfl

theorem archRun_succ (n : Nat) (a : ArchState) : archRun (n + 1) a = archNext (archRun n a) := by
  induction n generalizing a with
  | zero => cases h : archStep a <;> simp [archRun, archNext, h]
  | succ n ih =>
    cases h : archStep a with
    | next b => simpa [archRun, h] using ih b
    | ended | invalidOpcode _ _ | memoryOutOfBounds _ => simp [archRun, archNext, h]

/-- The state keeps the invariant and stands for the sequential run from `start` of as many instructions as have left ID. -/
structure Simulates (start : ArchState) (s : State) : Prop where
  inv : PipeInv s
  drained : drained s = archRun (issuedCount s) start

theorem pipeInv_resetWith {im dm : Memory} (hi : im.wf) (hd : dm.wf) : PipeInv (State.resetWith im dm) where
  zeroCell := rfl
  memoriesWf := ⟨hi, hd⟩
  stoppedIsEmpty := nofun
  stopHasReason := nofun
  bubblesBlank := ⟨fun _ => rfl, fun _ => rfl, fun _ => rfl, fun _ => rfl⟩
  fetchedWord := nofun
  idExFlags := nofun
  exMemFlags := nofun
  latchedOperands := nofun
  noUnfinishedLoad := nofun
  countersBounded := ⟨Nat.le_refl 0, Nat.zero_le _⟩
  haltedIsEmpty := nofun

/-- An empty pipe stands for its own registers, memories and resume address. -/
theorem drained_of_empty {s : State} (h2 : s.idex.nop = true) (h3 : s.exmem.nop = true) (h4 : s.memwb.nop = true) :
    drained s = some { s.arch with pc := resumePc s } := by
  rw [drained_eq_completed, completed_exmem_of_memStage (memStage_of_nop h3), memLatch_of_nop h3, exLatch_of_nop h2,
    wbRegs_of_nop h4]
  rfl

theorem simulates_resetWith {im dm : Memory} (hi : im.wf) (hd : dm.wf) :
    Simulates (State.resetWith im dm).arch (State.resetWith im dm) where
  inv := pipeInv_resetWith hi hd
  drained := drained_of_empty rfl rfl rfl

theorem drained_raiseFault (s : State) (f : Fault) : drained (raiseFault s f) = drained s := by
  rw [drained_eq_completed, drained_eq_completed]
  rfl

theorem Simulates.step {start : ArchState} {s t : State} (h : Simulates start s) (hs : step s = .next t) :
    Simulates start t := by
  rcases step_next_commits hs with rfl | ⟨f, rfl⟩ | hc
  · exact h
  · exact ⟨pipeInv_raiseFault h.inv f, (drained_raiseFault s f).trans h.drained⟩
  · obtain ⟨m, hm, ht⟩ := step_committed h.inv.fetchedWord hc hs
    refine ⟨pipeInv_of_committed h.inv hc.1 hm ht, ?_⟩
    rw [Certificates.eachTickIsOneSequentialStepOrNone s t h.inv hc hs, issuedCount_committed ht, h.drained]
    cases issues s with
    | true => exact (archRun_succ _ _).symm
    | false => rfl

theorem Simulates.run {start : ArchState} {k : Nat} {s t : State} (h : Simulates start s) (hr : runSteps k s = .next t) :
    Simulates start t := by
  induction k generalizing s with
  | zero => exact Host.Outcome.next.inj hr ▸ h
  | succ k ih =>
    obtain ⟨u, hu, hrun⟩ := runSteps_succ_next hr
    exact ih (h.step hu) hrun

theorem runDone_iff {s : State} :
    runDone s = true ↔
      s.ifNop = true ∧ s.ifid.nop = true ∧ s.idex.nop = true ∧ s.exmem.nop = true ∧ s.memwb.nop = true := by
  simp [runDone, and_assoc]

/-- Where IF stops the sequential machine ends (R14, R230, R231). -/
theorem archStep_ended_of_stops {a : ArchState} (h : fetchStopsAt a.imem a.pc = true) : archStep a = .ended := by
  unfold fetchStopsAt at h
  cases hw : a.imem.readWord a.pc with
  | none => simp [archStep, hw]
  | some w =>
    rw [hw] at h
    exact archStep_eq_archExec hw (decodeWord_of_isHaltWord h)

/-- A clean end is the end of the sequential run, all of whose instructions have retired. -/
theorem Simulates.endsAt {start : ArchState} {s : State} (h : Simulates start s) (hh : s.halted = true) :
    archEndsAt start s.retired s.arch := by
  obtain ⟨hstop, h1, h2, h3, h4⟩ := runDone_iff.mp (h.inv.haltedIsEmpty hh)
  have hcount : issuedCount s = s.retired := by simp [issuedCount, inFlight, h2, h3, h4]
  have hdrained := h.drained
  rw [drained_of_empty h2 h3 h4, hcount, resumePc_of_bubble h1] at hdrained
  exact ⟨hdrained.symm, archStep_ended_of_stops (h.inv.stopHasReason hstop)⟩

end Sys2Proof.Machine

namespace Sys2Proof.Certificates

open Sys2Proof.Machine

/-- Settles O55: every step of a run from reset keeps the simulation, and a clean end leaves nothing in flight. -/
theorem cleanEndIsTheSequentialEnd : Obligations.CleanEndIsTheSequentialEnd := by
  intro im dm k t hi hd hrun hh
  exact ((simulates_resetWith hi hd).run hrun).endsAt hh

end Sys2Proof.Certificates

/-! ## A sequential run that ends is reached -/

namespace Sys2Proof.Machine

/-- A sequential run that ends after `n` instructions goes on from each of its states before, and ends in no other. -/
theorem archRun_of_archEndsAt {start a : ArchState} {n c : Nat} (h : archEndsAt start n a) (hc : c ≤ n) :
    ∃ b, archRun c start = some b ∧ ((c < n ∧ ∃ b', archStep b = .next b') ∨ (c = n ∧ b = a)) := by
  induction hc using Nat.decreasingInduction with
  | self => exact ⟨a, h.1, .inr ⟨rfl, rfl⟩⟩
  | of_succ c hlt ih =>
    obtain ⟨b', hb', -⟩ := ih
    rw [archRun_succ] at hb'
    cases hb : archRun c start with
    | none => simp [hb, archNext] at hb'
    | some b =>
      refine ⟨b, rfl, .inl ⟨hlt, ?_⟩⟩
      rw [hb, archNext_some] at hb'
      cases hs : archStep b with
      | next b'' => exact ⟨b'', rfl⟩
      | ended | invalidOpcode _ _ | memoryOutOfBounds _ => simp [hs, ArchOutcome.next?] at hb'

theorem archEndsAt_le {start a b : ArchState} {n k : Nat} (ha : archEndsAt start n a) (hb : archEndsAt start k b)
    (hk : k ≤ n) : k = n ∧ b = a := by
  obtain ⟨b', hb', ⟨_, c, hc⟩ | ⟨hkn, rfl⟩⟩ := archRun_of_archEndsAt ha hk
  · obtain rfl : b' = b := Option.some.inj (hb'.symm.trans hb.1)
    simp [hb.2] at hc
  · exact ⟨hkn, Option.some.inj (hb.1.symm.trans hb')⟩

/-- A sequential run ends at one place. -/
theorem archEndsAt_unique {start a b : ArchState} {n k : Nat} (ha : archEndsAt start n a) (hb : archEndsAt start k b) :
    k = n ∧ b = a := by
  rcases Nat.le_total k n with h | h
  · exact archEndsAt_le ha hb h
  · obtain ⟨hk, hab⟩ := archEndsAt_le hb ha h
    exact ⟨hk.symm, hab.symm⟩

theorem archExec_ne_ended {i : Instr} (hi : i.decoded.cls ≠ .halt) (a : ArchState) : archExec i a ≠ .ended := by
  cases i with
  | halt _ => exact absurd rfl hi
  | lw rd rs1 imm =>
    rw [archExec, archLw]
    split <;> nofun
  | sw rs2 rs1 imm =>
    rw [archExec, archSw]
    split <;> nofun
  | _ => nofun

theorem drained_of_memRaises {s : State} (h : MemRaises s) : drained s = none := by
  rw [drained_eq_completed, completed_eq_memStage, memRaises_iff.mp h]
  rfl

theorem drained_pc_imem {s : State} {b : ArchState} (h : drained s = some b) : b.pc = resumePc s ∧ b.imem = s.imem := by
  obtain ⟨_, _, _, _, rfl⟩ := drained_eq_some.mp h
  exact ⟨rfl, rfl⟩

section
variable {start a : ArchState} {s t : State} {n : Nat}

/-- What the sequential machine does next is the instruction in ID. -/
theorem readWord_of_fetched {b : ArchState} (hf : FetchedWord s) (hb : drained s = some b) (hn : s.ifid.nop = false) :
    b.imem.readWord b.pc = some s.ifid.instr := by
  obtain ⟨hpc, him⟩ := drained_pc_imem hb
  rw [hpc, him, resumePc_of_fetched hn]
  exact (hf hn).1

/-- The pipeline raises nothing as long as the sequential run goes on or ends cleanly. -/
theorem Simulates.commits (h : Simulates start s) (hend : archEndsAt start n a) (hc : issuedCount s ≤ n) (hr : Running s) :
    Commits s := by
  obtain ⟨b, hb, hnext⟩ := archRun_of_archEndsAt hend hc
  rw [← h.drained] at hb
  refine ⟨hr, fun hm => ?_, fun ⟨hn, he⟩ => ?_⟩
  · simp [drained_of_memRaises hm] at hb
  · have hstep : archStep b = .invalidOpcode b.pc s.ifid.instr := by
      simp [archStep, readWord_of_fetched h.inv.fetchedWord hb hn, he]
    rcases hnext with ⟨-, b', hb'⟩ | ⟨-, rfl⟩
    · simp [hstep] at hb'
    · simp [hend.2] at hstep

/-- ID sends on no more instructions than the sequential run performs. -/
theorem Simulates.issuedCount_le (h : Simulates start s) (hend : archEndsAt start n a) (hc : issuedCount s ≤ n)
    {m : MemOut} (ht : Committed s m t) : issuedCount t ≤ n := by
  rw [issuedCount_committed ht]
  cases ht with
  | bubble hn => simpa [issues_of_bubble hn] using hc
  | held i hn hd hl => simpa [issues_of_decoded hn hd, hl] using hc
  | sent i r hn hd hi hl =>
    obtain ⟨b, hb, ⟨hlt, -⟩ | ⟨-, rfl⟩⟩ := archRun_of_archEndsAt hend hc
    · have := Bool.toNat_le (issues s)
      omega
    · rw [← h.drained] at hb
      have hstep := archStep_eq_archExec (readWord_of_fetched h.inv.fetchedWord hb hn) hd
      exact absurd (hstep.symm.trans hend.2) (archExec_ne_ended hi b)

/-! ### How long until the next instruction leaves ID, or the run ends -/

/-- The ticks of the drain (R233 to R236). -/
def drainTicks (s : State) : Nat :=
  if s.idex.nop = false then 4 else if s.exmem.nop = false then 3 else if s.memwb.nop = false then 2 else 1

/-- A bound that falls with every tick in which ID sends nothing on: the drain; or a fetch, and a stall where an instruction
stands in EX. -/
def waitBound (s : State) : Nat :=
  if s.ifid.nop = true then if s.ifNop = true then drainTicks s else 5
  else if s.idex.nop = true then 4 else 5

/-- A bound on the ticks to the end, for a run of `n` instructions: two for each that has not left ID yet. -/
def ticksBound (n : Nat) (s : State) : Nat := 2 * (n - issuedCount s) + waitBound s

theorem drainTicks_pos (s : State) : 1 ≤ drainTicks s := by
  unfold drainTicks
  split_ifs <;> omega

theorem drainTicks_le (s : State) : drainTicks s ≤ 4 := by
  unfold drainTicks
  split_ifs <;> omega

theorem drainTicks_of_idex_nop (h : s.idex.nop = true) : drainTicks s ≤ 3 := by
  unfold drainTicks
  rw [if_neg (by simp [h])]
  split_ifs <;> omega

theorem waitBound_pos (s : State) : 1 ≤ waitBound s := by
  have := drainTicks_pos s
  unfold waitBound
  split_ifs <;> omega

theorem waitBound_le (s : State) : waitBound s ≤ 5 := by
  have := drainTicks_le s
  unfold waitBound
  split_ifs <;> omega

theorem waitBound_of_fetched (hn : s.ifid.nop = false) : waitBound s = if s.idex.nop = true then 4 else 5 := by
  rw [waitBound, if_neg (by simp [hn])]

/-- A tick of the drain brings the end nearer, or is it. -/
theorem drainTicks_commit {m : MemOut} (hstop : s.ifNop = true) (hn : s.ifid.nop = true) :
    (commit s m idNothing).halted = true ∨ drainTicks (commit s m idNothing) < drainTicks s := by
  cases h2 : s.idex.nop with
  | false => exact .inr (by simp [drainTicks, h2])
  | true =>
    cases h3 : s.exmem.nop with
    | false => exact .inr (by simp [drainTicks, h2, h3])
    | true =>
      cases h4 : s.memwb.nop with
      | false => exact .inr (by simp [drainTicks, h2, h3, h4])
      | true => exact .inl (runDone_iff.mpr ⟨hstop, hn, h2, h3, h4⟩)

/-- Behind a bubble in ID the wait falls by a tick, or the run ends. -/
theorem waitBound_commit_of_bubble {m : MemOut} (hn : s.ifid.nop = true) :
    (commit s m idNothing).halted = true ∨ waitBound (commit s m idNothing) < waitBound s := by
  cases hstop : s.ifNop with
  | true =>
    refine (drainTicks_commit hstop hn).imp id fun h => ?_
    simpa [waitBound, ifFetch_of_stopped hstop, ifStop, hn, hstop] using h
  | false =>
    have hs : waitBound s = 5 := by simp [waitBound, hn, hstop]
    have hidex : (commit s m idNothing).idex.nop = true := rfl
    rw [hs]
    rcases ifFetch_cases s with ⟨-, h⟩ | ⟨-, w, -, -, h⟩
    · have := drainTicks_of_idex_nop hidex
      right
      simp only [waitBound, commit_ifid, commit_ifNop, ifStage_idNothing, h, ifStop, ifId_bubble_nop, if_true]
      omega
    · right
      rw [waitBound_of_fetched (by simp [h]), if_pos hidex]
      decide

/-- Every tick that commits brings the end nearer, or is the last. -/
theorem ticksBound_committed {m : MemOut} (ht : Committed s m t) (hc : issuedCount t ≤ n) :
    t.halted = true ∨ ticksBound n t < ticksBound n s := by
  have hcount := issuedCount_committed ht
  unfold ticksBound
  cases ht with
  | bubble hn =>
    rw [issues_of_bubble hn] at hcount
    rw [hcount]
    exact (waitBound_commit_of_bubble hn).imp id fun h => by simpa using h
  | held i hn hd hl =>
    rw [issues_of_decoded hn hd, hl] at hcount
    have hs : waitBound s = 5 := by rw [waitBound_of_fetched hn, (loadUse_iff.mp hl).1]; rfl
    have ht : waitBound (commit s m idHeld) = 4 := by rw [waitBound_of_fetched (by simpa using hn)]; rfl
    rw [hcount, hs, ht]
    right
    simp
  | sent i r hn hd hi hl =>
    rw [issues_of_decoded hn hd, hl] at hcount
    have hs : 4 ≤ waitBound s := by
      rw [waitBound_of_fetched hn]
      split_ifs <;> omega
    have ht := waitBound_le (commit s m { latch := idLatch s i.decoded, stall := false, redirect := r })
    simp only [Bool.not_false, Bool.toNat_true] at hcount
    omega

theorem cycle_committed {m : MemOut} (ht : Committed s m t) : t.cycle = s.cycle + 1 ∧ t.fault = s.fault := by
  cases ht <;> exact ⟨rfl, rfl⟩

/-- A run that stands for a sequential run with a clean end gets to its own end within its bound, if the limit allows. -/
theorem Simulates.reaches_end (h : Simulates start s) (hend : archEndsAt start n a) (hf : s.fault = none)
    (hc : issuedCount s ≤ n) {j : Nat} (hj : s.halted = true ∨ ticksBound n s ≤ j)
    (hlimit : s.cycle + j ≤ Config.maxCycles) :
    ∃ k t, runSteps k s = .next t ∧ t.halted = true ∧ t.cycle ≤ s.cycle + j := by
  induction j generalizing s with
  | zero =>
    rcases hj with hh | hj
    · exact ⟨0, s, rfl, hh, Nat.le_refl _⟩
    · have := waitBound_pos s
      simp only [ticksBound] at hj
      omega
  | succ j ih =>
    cases hh : s.halted with
    | true => exact ⟨0, s, rfl, hh, Nat.le_add_right _ _⟩
    | false =>
      have hcom := h.commits hend hc ⟨hf, hh, by omega⟩
      obtain ⟨m, o, -, hs⟩ := step_of_commits' hcom
      obtain ⟨m', -, ht⟩ := step_committed h.inv.fetchedWord hcom hs
      obtain ⟨hcyc, hft⟩ := cycle_committed ht
      have hct := h.issuedCount_le hend hc ht
      obtain ⟨k, t, hk, hht, htc⟩ := ih (h.step hs) (hft.trans hf) hct
        ((ticksBound_committed ht hct).imp id fun hlt => by simp [hh] at hj; omega) (by omega)
      exact ⟨k + 1, t, (runSteps_of_next hs k).trans hk, hht, by omega⟩

end

end Sys2Proof.Machine

namespace Sys2Proof.Certificates

open Sys2Proof.Machine

/-- Settles O56: the pipeline reaches a clean end within the bound, and a sequential run has only one end. -/
theorem sequentialEndIsReached : Obligations.SequentialEndIsReached := by
  intro im dm n a hi hd hend hlimit
  have hsim := simulates_resetWith hi hd
  have hbound : ticksBound n (State.resetWith im dm) ≤ 3 * n + 6 := by
    have := waitBound_le (State.resetWith im dm)
    simp only [ticksBound]
    omega
  obtain ⟨k, t, hrun, hh, hcyc⟩ :=
    hsim.reaches_end hend rfl (Nat.zero_le _) (.inr hbound) (by rwa [resetWith_cycle, Nat.zero_add])
  obtain ⟨hret, harch⟩ := archEndsAt_unique hend ((hsim.run hrun).endsAt hh)
  exact ⟨k, t, hrun, hh, harch, hret, by simpa using hcyc⟩

end Sys2Proof.Certificates

/-! ## The invariant at reset and after every step -/

namespace Sys2Proof.Machine

/-- The inductive step of the invariant (R38): a step keeps the state, records an error, or commits. -/
theorem pipeInv_step {s t : State} (inv : PipeInv s) (h : step s = .next t) : PipeInv t := by
  rcases step_next_commits h with rfl | ⟨f, rfl⟩ | hc
  · exact inv
  · exact pipeInv_raiseFault inv f
  · obtain ⟨m, hm, ht⟩ := step_committed inv.fetchedWord hc h
    exact pipeInv_of_committed inv hc.1 hm ht

theorem readReg_resetWith (im dm : Memory) (r : RegIdx) : readReg (State.resetWith im dm).x r = 0#32 := by
  rw [resetWith_x, readReg]
  split
  · rfl
  · exact Vector.getElem_replicate _

end Sys2Proof.Machine

namespace Sys2Proof.Certificates

open Sys2Proof.Machine

/-- Settles O48: every register reads 0, and the fields are those of the definition. -/
theorem resetValues : Obligations.ResetValues := fun im dm => ⟨readReg_resetWith im dm, rfl⟩

/-- Settles O49: the model's own memories are canonical too. -/
theorem invariantHoldsAtReset : Obligations.InvariantHoldsAtReset :=
  ⟨fun _ _ => pipeInv_resetWith, pipeInv_resetWith reset_memories_wf.1 reset_memories_wf.2⟩

/-- Settles O50, by what the step is: the state kept, an error's record, or a tick that commits. -/
theorem everyStepKeepsTheInvariant : Obligations.EveryStepKeepsTheInvariant := fun _ _ => pipeInv_step

end Sys2Proof.Certificates

/-! ## The run control -/

namespace Sys2Proof.Machine

theorem step_of_fault {s : State} {f : Fault} (h : s.fault = some f) : step s = .fault f := by
  simp [step, turn, h]

theorem step_of_halted {s : State} (hf : s.fault = none) (hh : s.halted = true) : step s = .next s := by
  simp [step, turn, hf, hh]

theorem step_of_limit {s : State} (hf : s.fault = none) (hh : s.halted = false) (hc : s.cycle = Config.maxCycles) :
    step s = .next (limitReached s) := by
  simp [step, turn, hf, hh, hc]

theorem step_of_running {s : State} (h : Running s) : step s = tickById s := by
  obtain ⟨hf, hh, hc⟩ := h
  simp [step, turn, hf, hh, hc]

theorem tickById_of_bubble {s : State} (h : s.ifid.nop = true) : tickById s = tickBubble s := by
  simp [tickById, h]

theorem tickById_of_decoded {s : State} {i : Instr} (h : s.ifid.nop = false) (hd : decodeWord s.ifid.instr = .ok i) :
    tickById s = exec i s := by
  simp [tickById, h, hd]

theorem tickById_of_invalid {s : State} {e : DecodeError} (h : s.ifid.nop = false)
    (hd : decodeWord s.ifid.instr = .error e) : tickById s = tickInvalid s := by
  simp [tickById, h, hd]

theorem runSteps_of_halted {s : State} (hf : s.fault = none) (hh : s.halted = true) (k : Nat) : runSteps k s = .next s := by
  induction k with
  | zero => rfl
  | succ k ih => rw [runSteps_of_next (step_of_halted hf hh), ih]

end Sys2Proof.Machine

namespace Sys2Proof.Certificates

open Sys2Proof.Machine

/-- Settles O12: a clean end by induction on the number of steps; an error at the first of them. -/
theorem endedRunStaysEnded : Obligations.EndedRunStaysEnded := fun _ k =>
  ⟨fun hf hh => runSteps_of_halted hf hh k, fun _ hf => runSteps_of_fault (step_of_fault hf) k⟩

/-- Settles O15: both counters are fields of the commit, whatever ID drives. -/
theorem countersOfACommittedTick : Obligations.CountersOfACommittedTick := fun s hc => by
  obtain ⟨m, o, -, hs⟩ := step_of_commits' hc
  exact ⟨commit s m o, hs, rfl, rfl⟩

end Sys2Proof.Certificates

/-! ## The frame of a tick -/

namespace Sys2Proof.Machine

/-- Every meaning is a tick: MEM raises, or what ID drives is committed. -/
theorem exec_next {i : Instr} {s t : State} (h : exec i s = .next t) :
    (MemRaises s ∧ ∃ f, t = raiseFault s f) ∨ ∃ m o, memStage s = some m ∧ t = commit s m o := by
  rw [exec_eq_tick] at h
  rcases tick_cases s (driven i s) with ⟨hm, e⟩ | ⟨m, hm, e⟩
  · exact .inl ⟨memRaises_iff.mpr hm, _, Host.Outcome.next.inj (h.symm.trans e)⟩
  · exact .inr ⟨m, _, hm, Host.Outcome.next.inj (h.symm.trans e)⟩

/-- WB leaves every register alone but the destination of the instruction it completes (R163). -/
theorem readReg_wbRegs_of_ne {s : State} {r : RegIdx}
    (h : ¬ (s.memwb.nop = false ∧ s.memwb.writesReg = true ∧ r = s.memwb.rd)) : readReg (wbRegs s) r = readReg s.x r := by
  have hs : ¬ s.memwb.supplies r = true := fun e => by
    obtain ⟨hn, hw, hrd, -⟩ := MemWb.supplies_iff.mp e
    exact h ⟨hn, hw, hrd.symm⟩
  rw [readReg_wbRegs, regRead, if_neg hs]

/-- MEM leaves every byte of data memory alone but the four of the store it performs (R53, R166). -/
theorem byteAt_memStage_of_outside {s : State} {m : MemOut} {a : Nat} (hw : s.dmem.wf) (hm : memStage s = some m)
    (h : ¬ (s.exmem.nop = false ∧ s.exmem.isLoad = false ∧ s.exmem.isStore = true ∧
      s.exmem.aluResult.toNat ≤ a ∧ a < s.exmem.aluResult.toNat + 4)) : m.dmem.byteAt a = s.dmem.byteAt a := by
  rcases memStage_eq_some hm with ⟨_, rfl⟩ | ⟨_, _, _, rfl⟩ | ⟨hn, hl, hs, _, rfl⟩ | ⟨_, _, _, rfl⟩
  · rfl
  · rfl
  · rw [Memory.byteAt_setWordAt_eq hw]
    refine byteAfterWrite_outside _ _ _ ?_
    by_contra hin
    exact h ⟨hn, hl, hs, by omega, by omega⟩
  · rfl

end Sys2Proof.Machine

namespace Sys2Proof.Certificates

open Sys2Proof.Machine

/-- Settles O19: a tick that raises changes the record only; in one that commits the frame is WB's and MEM's. -/
theorem frameOfEveryIdTick : Obligations.FrameOfEveryIdTick := by
  intro i s t hw h
  rcases exec_next h with ⟨hr, f, rfl⟩ | ⟨m, o, hm, rfl⟩
  · exact ⟨fun _ _ => rfl, rfl, fun _ _ => rfl, rfl, rfl, fun hn => absurd hr hn⟩
  · exact ⟨fun _ => readReg_wbRegs_of_ne, wbRegs_cell_zero s, fun _ => byteAt_memStage_of_outside hw hm, memStage_size hm,
      rfl, fun _ => rfl⟩

end Sys2Proof.Certificates

/-! ## Register 0 -/

namespace Sys2Proof.Machine

theorem exec_cell_zero {i : Instr} {s t : State} (h : exec i s = .next t) : t.x[0] = s.x[0] := by
  rcases exec_next h with ⟨-, f, rfl⟩ | ⟨m, o, -, rfl⟩
  · rfl
  · exact wbRegs_cell_zero s

theorem step_cell_zero {s t : State} (h : step s = .next t) : t.x[0] = s.x[0] := by
  obtain ⟨-, ⟨-, rfl⟩ | ⟨-, f, rfl⟩ | ⟨-, m, -, ⟨-, rfl⟩ | ⟨-, i, -, rfl⟩⟩⟩ := step_next h
  · rfl
  · rfl
  · exact wbRegs_cell_zero s
  · exact wbRegs_cell_zero s

theorem runSteps_cell_zero {k : Nat} {s t : State} (h : runSteps k s = .next t) : t.x[0] = s.x[0] := by
  induction k generalizing s with
  | zero => rw [Host.Outcome.next.inj h]
  | succ k ih =>
    obtain ⟨u, hu, hrun⟩ := runSteps_succ_next h
    rw [ih hrun, step_cell_zero hu]

/-! No latch matches register 0 (R191), so every network falls through to its last source. -/

@[simp] theorem fwdEx_zero (s : State) (v : Word) : fwdEx s 0#5 v = v := by simp [fwdEx]

@[simp] theorem fwdId_zero (s : State) (w : Wires) : fwdId s w 0#5 = 0#32 := by simp [fwdId]

@[simp] theorem regRead_zero (s : State) : regRead s 0#5 = 0#32 := by simp [regRead]

end Sys2Proof.Machine

namespace Sys2Proof.Certificates

open Sys2Proof.Machine

/-- Settles O51: no meaning, step or run changes cell 0, and no source matches register 0. -/
theorem registerZeroAlwaysReadsZero : Obligations.RegisterZeroAlwaysReadsZero :=
  ⟨fun _ _ _ h0 h => (exec_cell_zero h).trans h0, fun _ _ _ h0 h => (runSteps_cell_zero h).trans h0,
    fun _ _ _ _ h => runSteps_cell_zero h, fun s w => ⟨fwdEx_zero s _, fwdId_zero s w, regRead_zero s⟩⟩

end Sys2Proof.Certificates

/-! ## Alignment of the pc -/

namespace Sys2Proof.Machine

/-- A multiple of 4, as the address of every word is in a program whose transfers are multiples of 4 (R24, R146). -/
def Aligned (a : Word) : Prop := a.toNat % 4 = 0

theorem Aligned.add {a b : Word} (ha : Aligned a) (hb : Aligned b) : Aligned (a + b) := by
  simp only [Aligned, BitVec.toNat_add] at *
  omega

theorem Aligned.nextPc {a : Word} (ha : Aligned a) : Aligned (nextPc a) := ha.add rfl

/-- IF moves between aligned addresses when the target of a redirect is aligned. -/
theorem ifStage_aligned {s : State} {o : IdOut} (hpc : Aligned s.pc) (hid : s.ifid.nop = false → Aligned s.ifid.pc)
    (ht : ∀ target, o.redirect = some target → Aligned target) :
    Aligned (ifStage s o).pc ∧ ((ifStage s o).ifid.nop = false → Aligned (ifStage s o).ifid.pc) := by
  cases hst : o.stall with
  | true =>
    rw [ifStage_stall hst]
    exact ⟨hpc, hid⟩
  | false =>
    cases hr : o.redirect with
    | some target =>
      rw [ifStage_redirect hst hr]
      exact ⟨ht target hr, nofun⟩
    | none =>
      rw [ifStage_fetch hst hr]
      rcases ifFetch_cases s with ⟨-, h⟩ | ⟨-, w, -, -, h⟩ <;> rw [h]
      · exact ⟨hpc, nofun⟩
      · exact ⟨hpc.nextPc, fun _ => hpc⟩

theorem idIssue_redirect {s : State} {d : Decoded} {r : Option Word} {target : Word}
    (h : (idIssue s d r).redirect = some target) : r = some target := by
  cases hl : loadUse s d with
  | true => rw [idIssue_held hl] at h; cases h
  | false => rwa [idIssue_sent hl] at h

/-- Only a branch or a JAL redirects, and its target is its own address plus its immediate (R140, R221, R223). -/
theorem driven_redirect {i : Instr} {s : State} {w : Wires} {target : Word} (h : (driven i s w).redirect = some target) :
    (i.decoded.cls = .branch ∨ i.decoded.cls = .jal) ∧ target = s.ifid.pc + i.decoded.imm := by
  cases i with
  | beq rs1 rs2 off | bne rs1 rs2 off =>
    have htaken := idIssue_redirect h
    split at htaken
    · exact ⟨.inl rfl, (Option.some.inj htaken).symm⟩
    · cases htaken
  | jal rd off => exact ⟨.inr rfl, (Option.some.inj (idIssue_redirect h)).symm⟩
  | halt _ => cases h
  | _ => cases idIssue_redirect h

end Sys2Proof.Machine

namespace Sys2Proof.Certificates

open Sys2Proof.Machine

/-- Settles O52: a step that is no commit keeps the pc and IF/ID; in a commit IF fetches on or takes the target of the branch
or JAL in ID. -/
theorem alignedTransfersKeepThePcAligned : Obligations.AlignedTransfersKeepThePcAligned := by
  intro s t hpc hid h
  have hidpc : s.ifid.nop = false → Aligned s.ifid.pc := fun hn => (hid hn).1
  obtain ⟨-, ⟨-, rfl⟩ | ⟨-, f, rfl⟩ | ⟨-, m, -, ⟨-, rfl⟩ | ⟨hn, i, hd, rfl⟩⟩⟩ := step_next h
  · exact ⟨hpc, hidpc⟩
  · exact ⟨hpc, hidpc⟩
  · exact ifStage_aligned hpc hidpc nofun
  · refine ifStage_aligned hpc hidpc fun target hr => ?_
    obtain ⟨hcls, rfl⟩ := driven_redirect hr
    exact (hidpc hn).add ((hid hn).2 _ (decodeRecord_eq_ok.mpr ⟨i, hd, rfl⟩) hcls)

end Sys2Proof.Certificates

/-! ## The payload of a bubble -/

namespace Sys2Proof.Machine

section
variable (s : State)

@[simp] theorem clearBubbles_x : (clearBubbles s).x = s.x := rfl
@[simp] theorem clearBubbles_pc : (clearBubbles s).pc = s.pc := rfl
@[simp] theorem clearBubbles_imem : (clearBubbles s).imem = s.imem := rfl
@[simp] theorem clearBubbles_dmem : (clearBubbles s).dmem = s.dmem := rfl
@[simp] theorem clearBubbles_ifNop : (clearBubbles s).ifNop = s.ifNop := rfl
@[simp] theorem clearBubbles_cycle : (clearBubbles s).cycle = s.cycle := rfl
@[simp] theorem clearBubbles_retired : (clearBubbles s).retired = s.retired := rfl
@[simp] theorem clearBubbles_halted : (clearBubbles s).halted = s.halted := rfl
@[simp] theorem clearBubbles_fault : (clearBubbles s).fault = s.fault := rfl

@[simp] theorem clearBubbles_ifid_nop : (clearBubbles s).ifid.nop = s.ifid.nop := by
  cases h : s.ifid.nop <;> simp [clearBubbles, h]

@[simp] theorem clearBubbles_idex_nop : (clearBubbles s).idex.nop = s.idex.nop := by
  cases h : s.idex.nop <;> simp [clearBubbles, h]

@[simp] theorem clearBubbles_exmem_nop : (clearBubbles s).exmem.nop = s.exmem.nop := by
  cases h : s.exmem.nop <;> simp [clearBubbles, h]

@[simp] theorem clearBubbles_memwb_nop : (clearBubbles s).memwb.nop = s.memwb.nop := by
  cases h : s.memwb.nop <;> simp [clearBubbles, h]

variable {s}

theorem clearBubbles_ifid (h : s.ifid.nop = false) : (clearBubbles s).ifid = s.ifid := by simp [clearBubbles, h]

theorem clearBubbles_idex (h : s.idex.nop = false) : (clearBubbles s).idex = s.idex := by simp [clearBubbles, h]

theorem clearBubbles_exmem (h : s.exmem.nop = false) : (clearBubbles s).exmem = s.exmem := by simp [clearBubbles, h]

theorem clearBubbles_memwb (h : s.memwb.nop = false) : (clearBubbles s).memwb = s.memwb := by simp [clearBubbles, h]

end

section
variable (s : State)

@[simp] theorem clearBubbles_clearBubbles : clearBubbles (clearBubbles s) = clearBubbles s := by
  grind [clearBubbles]

@[simp] theorem clearBubbles_raiseFault (f : Fault) : clearBubbles (raiseFault s f) = raiseFault (clearBubbles s) f := rfl

/-! The match predicate and the networks (R191). -/

@[simp] theorem idex_supplies_clearBubbles (r : RegIdx) : (clearBubbles s).idex.supplies r = s.idex.supplies r := by
  cases h : s.idex.nop with
  | true => rw [IdEx.supplies_of_nop h, IdEx.supplies_of_nop (by simpa using h)]
  | false => rw [clearBubbles_idex h]

@[simp] theorem exmem_supplies_clearBubbles (r : RegIdx) : (clearBubbles s).exmem.supplies r = s.exmem.supplies r := by
  cases h : s.exmem.nop with
  | true => rw [ExMem.supplies_of_nop h, ExMem.supplies_of_nop (by simpa using h)]
  | false => rw [clearBubbles_exmem h]

@[simp] theorem memwb_supplies_clearBubbles (r : RegIdx) : (clearBubbles s).memwb.supplies r = s.memwb.supplies r := by
  cases h : s.memwb.nop with
  | true => rw [MemWb.supplies_of_nop h, MemWb.supplies_of_nop (by simpa using h)]
  | false => rw [clearBubbles_memwb h]

/-- The last tier of every network: MEM/WB, or the value behind it (R193, R197, R201). -/
theorem memwb_tier_clearBubbles (r : RegIdx) (v : Word) :
    (if (clearBubbles s).memwb.supplies r then (clearBubbles s).memwb.wrtData else v) =
      if s.memwb.supplies r then s.memwb.wrtData else v := by
  rw [memwb_supplies_clearBubbles]
  cases h : s.memwb.supplies r with
  | true => rw [clearBubbles_memwb (MemWb.supplies_iff.mp h).1]
  | false => rfl

@[simp] theorem regRead_clearBubbles (r : RegIdx) : regRead (clearBubbles s) r = regRead s r :=
  memwb_tier_clearBubbles s r _

@[simp] theorem fwdEx_clearBubbles (r : RegIdx) (v : Word) : fwdEx (clearBubbles s) r v = fwdEx s r v := by
  rw [fwdEx, fwdEx, memwb_tier_clearBubbles, exmem_supplies_clearBubbles]
  cases h : s.exmem.supplies r with
  | true => rw [clearBubbles_exmem (ExMem.supplies_iff.mp h).1]
  | false => rfl

/-- The ID network reads the wires of EX and MEM only where an instruction supplies them. -/
theorem fwdId_clearBubbles {w w' : Wires} (hex : s.idex.nop = false → w'.exResult = w.exResult)
    (hmem : w'.memResult = w.memResult) (r : RegIdx) : fwdId (clearBubbles s) w' r = fwdId s w r := by
  rw [fwdId, fwdId, memwb_tier_clearBubbles, hmem, exmem_supplies_clearBubbles, idex_supplies_clearBubbles,
    clearBubbles_x]
  cases h : s.idex.supplies r with
  | true => rw [clearBubbles_idex (IdEx.supplies_iff.mp h).1, hex (IdEx.supplies_iff.mp h).1]
  | false => rfl

@[simp] theorem loadUse_clearBubbles (d : Decoded) : loadUse (clearBubbles s) d = loadUse s d := by
  cases h : s.idex.nop with
  | true => rw [loadUse_of_nop h, loadUse_of_nop (by simpa using h)]
  | false => rw [loadUse, loadUse, clearBubbles_idex h]

/-! The stages (R179). -/

@[simp] theorem wbRegs_clearBubbles : wbRegs (clearBubbles s) = wbRegs s := by
  cases h : s.memwb.nop with
  | true => rw [wbRegs_of_nop h, wbRegs_of_nop (by simpa using h), clearBubbles_x]
  | false => rw [wbRegs, wbRegs, clearBubbles_memwb h, clearBubbles_x]

@[simp] theorem wbRetired_clearBubbles : wbRetired (clearBubbles s) = wbRetired s := by simp [wbRetired]

@[simp] theorem memStage_clearBubbles : memStage (clearBubbles s) = memStage s := by
  cases h : s.exmem.nop with
  | true => rw [memStage_of_nop h, memStage_of_nop (by simpa using h), clearBubbles_dmem]
  | false => rw [memStage, memStage, clearBubbles_exmem h, clearBubbles_dmem]

@[simp] theorem memLatch_clearBubbles (v : Word) : memLatch (clearBubbles s) v = memLatch s v := by
  cases h : s.exmem.nop with
  | true => rw [memLatch_of_nop h, memLatch_of_nop (by simpa using h)]
  | false => rw [memLatch, memLatch, clearBubbles_exmem h]

theorem exResult_clearBubbles {s : State} (h : s.idex.nop = false) : exResult (clearBubbles s) = exResult s := by
  simp only [exResult, exOperandA, exOperandB, clearBubbles_idex h, fwdEx_clearBubbles]

theorem exStoreData_clearBubbles {s : State} (h : s.idex.nop = false) : exStoreData (clearBubbles s) = exStoreData s := by
  simp only [exStoreData, exOperandB, clearBubbles_idex h, fwdEx_clearBubbles]

@[simp] theorem exLatch_clearBubbles : exLatch (clearBubbles s) = exLatch s := by
  cases h : s.idex.nop with
  | true => rw [exLatch_of_nop h, exLatch_of_nop (by simpa using h)]
  | false => rw [exLatch, exLatch, exResult_clearBubbles h, exStoreData_clearBubbles h, clearBubbles_idex h]

@[simp] theorem runDone_clearBubbles : runDone (clearBubbles s) = runDone s := by simp [runDone]

theorem ifStage_clearBubbles {s : State} (h : s.ifid.nop = false) (o : IdOut) :
    ifStage (clearBubbles s) o = ifStage s o := by
  rw [ifStage, ifStage, clearBubbles_ifid h]
  rfl

/-- All of a commit but IF reads no bubble's payload. -/
theorem commit_clearBubbles {s : State} {o : IdOut} (h : ifStage (clearBubbles s) o = ifStage s o) (m : MemOut) :
    commit (clearBubbles s) m o = commit s m o := by
  simp [commit, h]

theorem idLatch_clearBubbles {s : State} (h : s.ifid.nop = false) (d : Decoded) :
    idLatch (clearBubbles s) d = idLatch s d := by
  simp [idLatch, clearBubbles_ifid h]

theorem idIssue_clearBubbles {s : State} (h : s.ifid.nop = false) (d : Decoded) (r : Option Word) :
    idIssue (clearBubbles s) d r = idIssue s d r := by
  rw [idIssue, idIssue, loadUse_clearBubbles, idLatch_clearBubbles h]

theorem driven_clearBubbles {s : State} (h : s.ifid.nop = false) (i : Instr) {w w' : Wires}
    (hex : s.idex.nop = false → w'.exResult = w.exResult) (hmem : w'.memResult = w.memResult) :
    driven i (clearBubbles s) w' = driven i s w := by
  have hfwd := fwdId_clearBubbles s hex hmem
  cases i with
  | beq _ _ _ | bne _ _ _ => simp only [driven, idIssue_clearBubbles h, hfwd, clearBubbles_ifid h]
  | jal _ _ => simp only [driven, idIssue_clearBubbles h, clearBubbles_ifid h]
  | halt _ => rfl
  | _ => exact idIssue_clearBubbles h _ _

end

/-! ### The tick and the step -/

section
variable {s : State}

theorem memoryOutOfBoundsFault_clearBubbles (h : s.exmem.nop = false) :
    memoryOutOfBoundsFault (clearBubbles s) = memoryOutOfBoundsFault s := by
  rw [memoryOutOfBoundsFault, clearBubbles_exmem h]
  rfl

theorem invalidOpcodeFault_clearBubbles (h : s.ifid.nop = false) :
    invalidOpcodeFault (clearBubbles s) = invalidOpcodeFault s := by
  rw [invalidOpcodeFault, clearBubbles_ifid h]
  rfl

/-- An error's record names no bubble's payload either. -/
theorem clearBubblesOf_raise {f f' : Fault} (h : f' = f) :
    clearBubblesOf (.next (raiseFault s f)) = clearBubblesOf (.next (raiseFault (clearBubbles s) f')) := by
  simp [clearBubblesOf, h]

theorem clearBubblesOf_tick {id id' : Wires → IdOut}
    (h : ∀ m, commit (clearBubbles s) m (id' { exResult := exResult (clearBubbles s), memResult := m.result }) =
      commit s m (id { exResult := exResult s, memResult := m.result })) :
    clearBubblesOf (tick s id) = clearBubblesOf (tick (clearBubbles s) id') := by
  cases hm : memStage s with
  | none =>
    rw [tick_of_none hm, tick_of_none (by simpa using hm)]
    exact clearBubblesOf_raise (memoryOutOfBoundsFault_clearBubbles (memStage_eq_none.mp hm).1)
  | some m => rw [tick_of_some hm, tick_of_some (by simpa using hm), h m]

theorem clearBubblesOf_tickBubble : clearBubblesOf (tickBubble s) = clearBubblesOf (tickBubble (clearBubbles s)) :=
  clearBubblesOf_tick fun m => commit_clearBubbles rfl m

theorem clearBubblesOf_exec (h : s.ifid.nop = false) (i : Instr) :
    clearBubblesOf (exec i s) = clearBubblesOf (exec i (clearBubbles s)) := by
  rw [exec_eq_tick, exec_eq_tick]
  refine clearBubblesOf_tick fun m => ?_
  have hd : driven i (clearBubbles s) { exResult := exResult (clearBubbles s), memResult := m.result } =
      driven i s { exResult := exResult s, memResult := m.result } := driven_clearBubbles h i exResult_clearBubbles rfl
  rw [hd]
  exact commit_clearBubbles (ifStage_clearBubbles h _) m

theorem clearBubblesOf_tickInvalid (h : s.ifid.nop = false) :
    clearBubblesOf (tickInvalid s) = clearBubblesOf (tickInvalid (clearBubbles s)) := by
  unfold tickInvalid
  rw [memStage_clearBubbles]
  cases hm : memStage s with
  | none => exact clearBubblesOf_raise (memoryOutOfBoundsFault_clearBubbles (memStage_eq_none.mp hm).1)
  | some m => exact clearBubblesOf_raise (invalidOpcodeFault_clearBubbles h)

theorem clearBubblesOf_tickById : clearBubblesOf (tickById s) = clearBubblesOf (tickById (clearBubbles s)) := by
  cases hn : s.ifid.nop with
  | true =>
    rw [tickById_of_bubble hn, tickById_of_bubble (by simpa using hn)]
    exact clearBubblesOf_tickBubble
  | false =>
    have hn' : (clearBubbles s).ifid.nop = false := by simpa using hn
    have hinstr : (clearBubbles s).ifid.instr = s.ifid.instr := by rw [clearBubbles_ifid hn]
    cases hd : decodeWord s.ifid.instr with
    | ok i =>
      rw [tickById_of_decoded hn hd, tickById_of_decoded hn' (hinstr ▸ hd)]
      exact clearBubblesOf_exec hn i
    | error e =>
      rw [tickById_of_invalid hn hd, tickById_of_invalid hn' (hinstr ▸ hd)]
      exact clearBubblesOf_tickInvalid hn

end

end Sys2Proof.Machine

namespace Sys2Proof.Certificates

open Sys2Proof.Machine

/-- Settles O53: the run control reads no latch, and every stage reads a latch's payload behind its `nop` only. -/
theorem bubblePayloadIsNeverRead : Obligations.BubblePayloadIsNeverRead := by
  intro s
  cases hf : s.fault with
  | some f => rw [step_of_fault hf, step_of_fault (s := clearBubbles s) hf]
  | none =>
    cases hh : s.halted with
    | true =>
      rw [step_of_halted hf hh, step_of_halted (s := clearBubbles s) hf hh]
      simp [clearBubblesOf]
    | false =>
      by_cases hc : s.cycle = Config.maxCycles
      · rw [step_of_limit hf hh hc, step_of_limit (s := clearBubbles s) hf hh hc]
        exact clearBubblesOf_raise rfl
      · rw [step_of_running ⟨hf, hh, hc⟩, step_of_running (s := clearBubbles s) ⟨hf, hh, hc⟩]
        exact clearBubblesOf_tickById

end Sys2Proof.Certificates

/-! ## Words of a memory -/

namespace Sys2Proof.Machine

theorem Memory.readWord_eq_ite (m : Memory) (a : Word) :
    m.readWord a = if a.toNat + 3 < m.size then some (m.wordAt a.toNat) else none := by
  simp [Memory.readWord, Memory.inBounds]

theorem Memory.isSome_readWord {m : Memory} {a : Word} : (m.readWord a).isSome = true ↔ a.toNat + 3 < m.size := by
  simp [Memory.readWord_eq_ite]

theorem Memory.isSome_writeWord {m : Memory} {a v : Word} : (m.writeWord a v).isSome = true ↔ a.toNat + 3 < m.size := by
  simp [Memory.writeWord, Memory.inBounds]

/-- No memory reaches the upper half of the address space (R6). -/
theorem Memory.readWord_of_msb {m : Memory} {a : Word} (h : m.wf) (ha : a.msb = true) : m.readWord a = none := by
  have hhigh : 2 ^ 31 ≤ a.toNat := BitVec.toNat_ge_of_msb_true ha
  have hsize : m.size ≤ 2 ^ 31 := h.2.2
  rw [Memory.readWord_eq_ite, if_neg (by omega)]

/-! What a word write leaves, byte by byte and word by word (R53, R62). -/

theorem Memory.byteAt_setWordAt_inside {m : Memory} (h : m.wf) (a v : Word) {k : Nat} (hk : k < 4) :
    (m.setWordAt a.toNat v).byteAt (a.toNat + k) = byteOfWord v k :=
  (Memory.byteAt_setWordAt_eq h a v _).trans (byteAfterWrite_inside m a v hk)

theorem Memory.byteAt_setWordAt_outside {m : Memory} (h : m.wf) (a v : Word) {j : Nat}
    (hj : j < a.toNat ∨ a.toNat + 4 ≤ j) :
    (m.setWordAt a.toNat v).byteAt j = m.byteAt j :=
  (Memory.byteAt_setWordAt_eq h a v _).trans (byteAfterWrite_outside m a v hj)

/-- The size bound is no part of this: the memory may be one grown by `Memory.holding`. -/
theorem Memory.wordAt_setWordAt_same {m : Memory} (h : Canonical m.cells) (a : Nat) (v : Word) :
    (m.setWordAt a v).wordAt a = v := by
  simp [Memory.wordAt, Memory.byteAt_setWordAt h]

theorem Memory.wordAt_setWordAt_disjoint {m : Memory} (h : m.wf) (a v : Word) {b : Nat}
    (hb : b + 3 < a.toNat ∨ a.toNat + 3 < b) : (m.setWordAt a.toNat v).wordAt b = m.wordAt b := by
  simp (disch := omega) only [Memory.wordAt, Memory.byteAt_setWordAt_outside h]

end Sys2Proof.Machine

namespace Sys2Proof.Certificates

open Sys2Proof.Machine

/-- Settles O44: the test is the definition's, and no size reaches the upper half of the addresses. -/
theorem boundsAreUnsignedAndUnaligned : Obligations.BoundsAreUnsignedAndUnaligned := fun _ _ _ =>
  ⟨Memory.isSome_readWord, Memory.isSome_writeWord, Memory.readWord_of_msb⟩

/-- Settles O43: the bytes after the write decide every word read after it. -/
theorem wordReadAfterWordWrite : Obligations.WordReadAfterWordWrite := by
  intro m m' a v hwf hw
  have hwf' := Memory.writeWord_wf hwf hw
  obtain ⟨hin, rfl⟩ := Memory.writeWord_eq_some.mp hw
  refine ⟨hwf', rfl, fun _ => Memory.byteAt_setWordAt_inside hwf a v, fun _ => Memory.byteAt_setWordAt_outside hwf a v, ?_,
    fun b hb => ?_, fun b => ?_⟩
  · exact Memory.readWord_eq_some.mpr ⟨hin, (Memory.wordAt_setWordAt_same (Memory.canonical_of_wf hwf) _ v).symm⟩
  · rw [Memory.readWord_eq_ite, Memory.readWord_eq_ite, memory_setWordAt_size, Memory.wordAt_setWordAt_disjoint hwf a v hb]
  · rw [Memory.readWord_eq_ite, memory_setWordAt_size]
    simp only [Memory.wordAt, Memory.byteAt_setWordAt_eq hwf]
    rfl

end Sys2Proof.Certificates

/-! ## The word placed at the pc -/

namespace Sys2Proof.Machine

/-- The run control lets the placed word run (log 5). -/
theorem running_placeInstruction (s : State) (w : Word) : Running (placeInstruction s w) := by
  refine ⟨rfl, rfl, ?_⟩
  show (if s.cycle = Config.maxCycles then 0 else s.cycle) ≠ Config.maxCycles
  split
  · decide
  · assumption

/-- Instruction memory, grown where it must be, holds the placed word at the pc. -/
theorem readWord_placeInstruction {s : State} (h : s.imem.wf) (w : Word) :
    (placeInstruction s w).imem.readWord s.pc = some w := by
  have hcanon : Canonical s.imem.cells := Memory.canonical_of_wf h
  have hin : s.pc.toNat + 3 < max s.imem.size (s.pc.toNat + 4) := by omega
  rw [placeInstruction_imem, Memory.readWord_eq_ite, memory_setWordAt_size, holding_size, if_pos hin,
    Memory.wordAt_setWordAt_same (m := s.imem.holding s.pc) hcanon]

end Sys2Proof.Machine

namespace Sys2Proof.Certificates

open Sys2Proof.Machine

/-- Settles O10: the placed state runs a tick, and the word stands in IF/ID. -/
theorem placedWordRunsInTheNextStep : Obligations.PlacedWordRunsInTheNextStep := by
  intro s w i hwf hd
  rw [withFetchWord_eq, tableWord_toNat]
  exact ⟨(step_of_running (running_placeInstruction s w)).trans (tickById_of_decoded rfl hd),
    readWord_placeInstruction hwf.1 w, rfl, rfl, rfl⟩

end Sys2Proof.Certificates

/-! ## What MEM does, by what is in EX/MEM -/

namespace Sys2Proof.Machine

section
variable {s : State} {m : MemOut}

theorem memStage_eq_of_nop (hm : memStage s = some m) (hn : s.exmem.nop = true) : m = { result := 0#32, dmem := s.dmem } :=
  Option.some.inj (hm.symm.trans (memStage_of_nop hn))

theorem memStage_eq_of_load (hm : memStage s = some m) (hn : s.exmem.nop = false) (hl : s.exmem.isLoad = true) :
    m = { result := s.dmem.wordAt s.exmem.aluResult.toNat, dmem := s.dmem } := by
  rcases memStage_eq_some hm with ⟨h, _⟩ | ⟨_, _, _, h⟩ | ⟨_, h, _⟩ | ⟨_, h, _⟩
  · simp [hn] at h
  · exact h
  · simp [hl] at h
  · simp [hl] at h

theorem memStage_eq_of_store (hm : memStage s = some m) (hn : s.exmem.nop = false) (hl : s.exmem.isLoad = false)
    (hs : s.exmem.isStore = true) :
    m = { result := s.exmem.aluResult, dmem := s.dmem.setWordAt s.exmem.aluResult.toNat s.exmem.storeData } := by
  rcases memStage_eq_some hm with ⟨h, _⟩ | ⟨_, h, _⟩ | ⟨_, _, _, _, h⟩ | ⟨_, _, h, _⟩
  · simp [hn] at h
  · simp [hl] at h
  · exact h
  · simp [hs] at h

theorem memStage_eq_of_no_access (hm : memStage s = some m) (hn : s.exmem.nop = false) (hl : s.exmem.isLoad = false)
    (hs : s.exmem.isStore = false) : m = { result := s.exmem.aluResult, dmem := s.dmem } := by
  rcases memStage_eq_some hm with ⟨h, _⟩ | ⟨_, h, _⟩ | ⟨_, _, h, _⟩ | ⟨_, _, _, h⟩
  · simp [hn] at h
  · simp [hl] at h
  · simp [hs] at h
  · exact h

end

/-- A committing step leads to a commit of some ID output, and nowhere else. -/
theorem step_next_of_commits {s t : State} (hc : Commits s) (h : step s = .next t) :
    ∃ m o, memStage s = some m ∧ t = commit s m o := by
  obtain ⟨m, o, hm, hs⟩ := step_of_commits' hc
  exact ⟨m, o, hm, Host.Outcome.next.inj (h.symm.trans hs)⟩

end Sys2Proof.Machine

namespace Sys2Proof.Certificates

open Sys2Proof.Machine

/-- Settles O16: by what is in EX/MEM. -/
theorem memoryStageOfACommittedTick : Obligations.MemoryStageOfACommittedTick := by
  intro s hc hwf
  obtain ⟨m, o, hm, hs⟩ := step_of_commits' hc
  refine ⟨commit s m o, hs, memStage_size hm, fun hn => ?_, fun hn => ?_, fun hn hl => ?_, fun hn hl hst => ?_,
    fun hn hl hst => ?_⟩ <;> rw [commit_memwb]
  · obtain rfl := memStage_eq_of_nop hm hn
    exact ⟨memLatch_of_nop hn _, rfl⟩
  · rw [memLatch_of_busy hn]
    exact ⟨rfl, rfl, rfl⟩
  · obtain rfl := memStage_eq_of_load hm hn hl
    rw [memLatch_of_busy hn]
    exact ⟨rfl, rfl⟩
  · obtain rfl := memStage_eq_of_store hm hn hl hst
    rw [memLatch_of_busy hn]
    have hbyte (k : Nat) (hk : k < 4) :=
      Memory.byteAt_setWordAt_inside hwf s.exmem.aluResult s.exmem.storeData hk
    exact ⟨rfl, hbyte 0 (by decide), hbyte 1 (by decide), hbyte 2 (by decide), hbyte 3 (by decide),
      fun _ => Memory.byteAt_setWordAt_outside hwf _ _⟩
  · obtain rfl := memStage_eq_of_no_access hm hn hl hst
    rw [memLatch_of_busy hn]
    exact ⟨rfl, rfl⟩

/-- Settles O45: the store's tick leaves its word in data memory, where the load's tick finds it. -/
theorem loadSeesTheStoreAhead : Obligations.LoadSeesTheStoreAhead := by
  intro s t u hcs hwf hn hl hst hxn _ hxl haddr hs hct ht
  obtain ⟨m, o, hm, rfl⟩ := step_next_of_commits hcs hs
  obtain ⟨m', o', hm', rfl⟩ := step_next_of_commits hct ht
  have hdmem := memStage_eq_of_store hm hn hl hst
  have hEx : (commit s m o).exmem.nop = false ∧ (commit s m o).exmem.isLoad = true ∧
      (commit s m o).exmem.aluResult = s.exmem.aluResult := by
    rw [commit_exmem, exLatch_of_busy hxn]
    exact ⟨rfl, hxl, haddr⟩
  obtain ⟨hn', hl', ha'⟩ := hEx
  have hload := memStage_eq_of_load hm' hn' hl'
  rw [commit_memwb, memLatch_of_busy hn', hload, ha', commit_dmem, hdmem]
  exact Memory.wordAt_setWordAt_same (Memory.canonical_of_wf hwf) _ _

end Sys2Proof.Certificates

/-! ## An access out of bounds -/

namespace Sys2Proof.Machine

/-- The step behind a bubble in ID, when MEM raises: the record and nothing else (R180, R253). -/
theorem step_of_bubble_raises {s : State} (hr : Running s) (hn : s.ifid.nop = true) (hm : MemRaises s) :
    step s = .next (raiseFault s (memoryOutOfBoundsFault s)) := by
  rw [step_of_running hr, tickById_of_bubble hn, tickBubble, tick_of_none (memRaises_iff.mp hm)]

/-- An instruction alone in the pipe that transfers no control, two ticks on: it stands in EX/MEM with what EX computed from
the registers, ID behind it is empty, and registers and data memory are as they were. -/
theorem exec_alone_reaches_mem {i : Instr} {s : State} (h : AloneInId s) (hstop : fetchStopsAt s.imem s.pc = true)
    (hd : ∀ w, driven i s w = idIssue s i.decoded none) :
    ∃ t u, exec i s = .next t ∧ step t = .next u ∧ InExWith i s t (archOfAlone s) ∧ Running u ∧ u.ifid.nop = true ∧
      u.x = s.x ∧ u.dmem = s.dmem ∧ u.cycle = s.cycle + 2 ∧ u.exmem = exLatch t := by
  obtain ⟨hf, hh, hc, hn, -, h2, h3, h4⟩ := h
  have hl : loadUse s i.decoded = false := loadUse_of_nop h2 _
  have hexec := exec_eq_tick i s
  rw [tick_of_some (memStage_of_nop h3), hd, idIssue_sent hl] at hexec
  set o : IdOut := { latch := idLatch s i.decoded, stall := false, redirect := none }
  set t := commit s { result := 0#32, dmem := s.dmem } o with ht
  have hIf : ifStage s o = ifStop s := (ifStage_fetch rfl rfl).trans (ifFetch_of_stops hstop)
  have htNop : t.exmem.nop = true := (exLatch_nop s).trans h2
  have htMem := memStage_of_nop htNop
  have htx : wbRegs t = s.x :=
    (wbRegs_of_nop ((memLatch_nop s _).trans h3)).trans (wbRegs_of_nop h4)
  have htRun : Running t := ⟨hf, by simp [ht, runDone, hn], by simp only [ht, commit_cycle]; omega⟩
  have htIf : ifFetch t = ifStop t := ifFetch_of_stopped (by rw [ht, commit_ifNop, hIf]; rfl)
  have hEx : InExWith i s t (archOfAlone s) :=
    inExWith_of_sent rfl hl htMem rfl (by rw [← ht, htx, memLatch_of_nop htNop]; rfl)
  refine ⟨t, _, hexec, step_of_bubble htRun (by rw [ht, commit_ifid, hIf]; rfl) htMem, hEx,
    ⟨hf, ?_, ?_⟩, ?_, htx, rfl, rfl, rfl⟩
  · rw [commit_halted, runDone, show t.idex.nop = false from rfl]
    simp
  · simp only [ht, commit_cycle]
    omega
  · rw [commit_ifid, ifStage_idNothing, htIf]
    rfl

/-- A load or store alone in the pipe whose effective address is out of bounds: the third tick raises, and changes the record
only (R254, R257). -/
theorem exec_alone_raises {i : Instr} {s : State} (h : AloneInId s) (hstop : fetchStopsAt s.imem s.pc = true)
    (hd : ∀ w, driven i s w = idIssue s i.decoded none) (hi : i.decoded.cls = .load ∨ i.decoded.cls = .store)
    (hout : ¬ (readReg s.x i.decoded.rs1 + i.decoded.imm).toNat + 3 < s.dmem.size) :
    ∃ t u, exec i s = .next t ∧ runSteps 2 t = .next u ∧ u.x = s.x ∧ u.dmem = s.dmem ∧
      u.fault = some (.memoryOutOfBounds (s.cycle + 3) (readReg s.x i.decoded.rs1 + i.decoded.imm)) ∧
      step u = .fault (.memoryOutOfBounds (s.cycle + 3) (readReg s.x i.decoded.rs1 + i.decoded.imm)) := by
  obtain ⟨t, u, hexec, hstep, hEx, hrun, hnop, hx, hdmem, hcycle, hexmem⟩ := exec_alone_reaches_mem h hstop hd
  rw [hEx.exLatch_eq, hEx.exResult_access hi] at hexmem
  have hraises : MemRaises u := by
    rw [MemRaises, hexmem, hdmem]
    exact ⟨rfl, by rcases hi with hi | hi <;> simp [hi, OpClass.isLoad, OpClass.isStore], hout⟩
  have hfault : memoryOutOfBoundsFault u =
      .memoryOutOfBounds (s.cycle + 3) (readReg s.x i.decoded.rs1 + i.decoded.imm) := by
    rw [memoryOutOfBoundsFault, hcycle, hexmem]
    rfl
  refine ⟨t, raiseFault u (memoryOutOfBoundsFault u), hexec, ?_, hx, hdmem, congrArg some hfault,
    step_of_fault (congrArg some hfault)⟩
  rw [runSteps_of_next hstep, runSteps_of_next (step_of_bubble_raises hrun hnop hraises), runSteps_zero]

end Sys2Proof.Machine

namespace Sys2Proof.Certificates

open Sys2Proof.Machine

/-- Settles O39: LW and SW transfer no control, and their address is EX's result. -/
theorem outOfBoundsAccessRaises : Obligations.OutOfBoundsAccessRaises := by
  intro r rs1 imm s h hstop hout
  have hlw := exec_alone_raises (i := .lw r rs1 imm) h hstop (fun _ => rfl) (.inl rfl)
  have hsw := exec_alone_raises (i := .sw r rs1 imm) h hstop (fun _ => rfl) (.inr rfl)
  rw [decoded_lw_rs1] at hlw
  rw [decoded_sw_rs1] at hsw
  exact ⟨hlw hout, hsw hout⟩

end Sys2Proof.Certificates

/-! ## The host's load -/

namespace Sys2Proof.Machine

/-! The cells of a byte array give its bytes back. -/

theorem lookupCell_cellsFrom (bs : List Byte) (a k : Nat) (hk : k < bs.length) :
    lookupCell (cellsFrom a bs) (a + k) = bs[k] := by
  induction bs generalizing a k with
  | nil => simp at hk
  | cons b rest ih =>
    have hbelow : lookupCell (cellsFrom (a + 1) rest) a = Config.unlistedByte :=
      lookupCell_eq_unlisted _ a fun c hc => by
        have := (mem_cellsFrom rest (a + 1) c hc).1
        omega
    have hhead : lookupCell (cellsFrom a (b :: rest)) a = b := by
      by_cases hb : b = Config.unlistedByte <;> simp [cellsFrom, hb, hbelow, lookupCell]
    cases k with
    | zero => exact hhead
    | succ k =>
      have htail : lookupCell (cellsFrom a (b :: rest)) (a + (k + 1)) = lookupCell (cellsFrom (a + 1) rest) (a + 1 + k) := by
        rw [Nat.add_right_comm a 1 k]
        by_cases hb : b = Config.unlistedByte <;> simp [cellsFrom, hb, lookupCell, Nat.add_assoc]
      rw [htail]
      exact ih (a + 1) k (by simpa using hk)

theorem Memory.byteAt_ofBytes (bs : List Byte) (k : Nat) (hk : k < bs.length) : (Memory.ofBytes bs).byteAt k = bs[k] := by
  simpa [Memory.byteAt, Memory.ofBytes] using lookupCell_cellsFrom bs 0 k hk

/-- A loaded memory in the file's form is its bytes, line by line (R67, R68). -/
theorem memoryLines_ofBytes (bs : List Byte) : memoryLines (Memory.ofBytes bs) = bs.map lineOfByte := by
  apply List.ext_getElem
  · simp [memoryLines, Memory.ofBytes]
  · intro k _ hk
    simp [memoryLines, Memory.byteAt_ofBytes bs k (by simpa using hk)]

/-! A line is read back from the byte it was written for. -/

/-- The character of a bit (R67). -/
def bitChar (b : Bool) : Char := if b then '1' else '0'

theorem lineOfByte_eq_bitChars (b : Byte) : lineOfByte b = (List.range 8).map fun k => bitChar (b.getLsbD (7 - k)) := rfl

theorem lineValue_cons (c : Char) (rest : FileLine) (acc : Nat) :
    lineValue (c :: rest) acc =
      if c = '0' then lineValue rest (2 * acc) else if c = '1' then lineValue rest (2 * acc + 1) else none := by
  by_cases h0 : c = '0'
  · simp [h0, lineValue]
  · by_cases h1 : c = '1' <;> simp [h0, h1, lineValue]

/-- One more bit at the low end. -/
theorem lineValue_append_bitChar (l : FileLine) (b : Bool) (acc : Nat) :
    lineValue (l ++ [bitChar b]) acc = (lineValue l acc).map fun n => 2 * n + b.toNat := by
  induction l generalizing acc with
  | nil => cases b <;> rfl
  | cons c rest ih =>
    rw [List.cons_append, lineValue_cons, lineValue_cons]
    split_ifs
    · exact ih _
    · exact ih _
    · rfl

/-- The first `k` characters of a byte's line are its `k` high bits. -/
theorem lineValue_high_bits (b : Byte) {k : Nat} (hk : k ≤ 8) :
    lineValue ((List.range k).map fun j => bitChar (b.getLsbD (7 - j))) 0 = some (b.toNat / 2 ^ (8 - k)) := by
  induction k with
  | zero => exact congrArg some (Nat.div_eq_of_lt b.isLt).symm
  | succ k ih =>
    have hpow : 2 ^ (8 - k) = 2 ^ (7 - k) * 2 := by rw [← pow_succ, show 7 - k + 1 = 8 - k by omega]
    have hbit : (b.getLsbD (7 - k)).toNat = b.toNat / 2 ^ (7 - k) % 2 := Nat.toNat_testBit ..
    rw [List.range_succ, List.map_append, List.map_singleton, lineValue_append_bitChar, ih (by omega), Option.map_some,
      hbit, hpow, ← Nat.div_div_eq_div_mul, Nat.div_add_mod, show 8 - (k + 1) = 7 - k by omega]

theorem byteOfLine_lineOfByte (b : Byte) : byteOfLine (lineOfByte b) = some b := by
  have hlength : (lineOfByte b).length = 8 := by simp [lineOfByte]
  have hvalue : lineValue (lineOfByte b) 0 = some b.toNat := by
    simpa [lineOfByte_eq_bitChars] using lineValue_high_bits b (Nat.le_refl 8)
  rw [byteOfLine, if_pos hlength, hvalue, Option.map_some, BitVec.ofNat_toNat, BitVec.setWidth_eq]

theorem bytesOfLines_map_lineOfByte (bs : List Byte) : bytesOfLines (bs.map lineOfByte) = some bs := by
  induction bs with
  | nil => rfl
  | cons b rest ih => simp [bytesOfLines, byteOfLine_lineOfByte, ih]

/-! Which files are malformed (R258). -/

/-- Not a line of R67: other than eight characters, or one of them no binary digit. -/
abbrev MalformedLine (l : FileLine) : Prop := l.length ≠ 8 ∨ ∃ c ∈ l, c ≠ '0' ∧ c ≠ '1'

theorem lineValue_eq_none {l : FileLine} {acc : Nat} : lineValue l acc = none ↔ ∃ c ∈ l, c ≠ '0' ∧ c ≠ '1' := by
  induction l generalizing acc with
  | nil => simp [lineValue]
  | cons c rest ih =>
    rw [lineValue_cons, List.exists_mem_cons_iff]
    split_ifs with h0 h1
    · simp [ih, h0]
    · simp [ih, h1]
    · simp [h0, h1]

theorem byteOfLine_eq_none {l : FileLine} : byteOfLine l = none ↔ MalformedLine l := by
  unfold byteOfLine MalformedLine
  by_cases h : l.length = 8
  · rw [if_pos h, Option.map_eq_none_iff, lineValue_eq_none]
    simp [h]
  · simp [h]

theorem bytesOfLines_eq_none {ls : List FileLine} : bytesOfLines ls = none ↔ ∃ l ∈ ls, MalformedLine l := by
  induction ls with
  | nil => simp [bytesOfLines]
  | cons l rest ih =>
    rw [List.exists_mem_cons_iff, ← byteOfLine_eq_none, ← ih, bytesOfLines]
    cases byteOfLine l <;> cases bytesOfLines rest <;> simp

theorem hostLoad_of_malformed {f g : List FileLine} (h : bytesOfLines f = none ∨ bytesOfLines g = none) :
    hostLoad (some (f, g)) = .fault .malformedMemoryFile := by
  rcases h with h | h
  · simp [hostLoad, h]
  · cases hf : bytesOfLines f <;> simp [hostLoad, hf, h]

end Sys2Proof.Machine

namespace Sys2Proof.Certificates

open Sys2Proof.Machine

/-- Settles O46: the cells hold the file's bytes, and each byte's line gives the byte back. -/
theorem loadedMemoryHoldsTheFile : Obligations.LoadedMemoryHoldsTheFile := fun bs hsize =>
  ⟨Memory.ofBytes_wf bs hsize, rfl, Memory.byteAt_ofBytes bs,
    (congrArg bytesOfLines (memoryLines_ofBytes bs)).trans (bytesOfLines_map_lineOfByte bs)⟩

/-- Settles O47: a malformed line leaves its file without bytes; well-formed lines are the lines of bytes. -/
theorem hostSetup : Obligations.HostSetup := by
  refine ⟨rfl, fun f g h => ?_, fun im dm hi hd => ?_⟩
  · exact hostLoad_of_malformed (h.imp bytesOfLines_eq_none.mpr bytesOfLines_eq_none.mpr)
  · simp only [hostLoad, bytesOfLines_map_lineOfByte]
    exact if_pos ⟨hi, hd⟩

end Sys2Proof.Certificates

/-! ## The decoder, row by row of the opcode table -/

namespace Sys2Proof

/-! One description of the decoder for all that follows: which words are of a mnemonic's row, and what such a word decodes to. -/

/-- The fields that place a word in the row of a mnemonic (R88 to R94). -/
def Selects (w : Word) : Mnemonic → Prop
  | .ADD => fieldOpcode w = opRArith ∧ fieldFunct3 w = 0x0#3 ∧ fieldFunct7 w = 0x00#7
  | .SUB => fieldOpcode w = opRArith ∧ fieldFunct3 w = 0x0#3 ∧ fieldFunct7 w = 0x20#7
  | .XOR => fieldOpcode w = opRArith ∧ fieldFunct3 w = 0x4#3 ∧ fieldFunct7 w = 0x00#7
  | .OR => fieldOpcode w = opRArith ∧ fieldFunct3 w = 0x6#3 ∧ fieldFunct7 w = 0x00#7
  | .AND => fieldOpcode w = opRArith ∧ fieldFunct3 w = 0x7#3 ∧ fieldFunct7 w = 0x00#7
  | .ADDI => fieldOpcode w = opIArith ∧ fieldFunct3 w = 0x0#3
  | .XORI => fieldOpcode w = opIArith ∧ fieldFunct3 w = 0x4#3
  | .ORI => fieldOpcode w = opIArith ∧ fieldFunct3 w = 0x6#3
  | .ANDI => fieldOpcode w = opIArith ∧ fieldFunct3 w = 0x7#3
  | .LW => fieldOpcode w = opLoad ∧ fieldFunct3 w = 0x2#3
  | .SW => fieldOpcode w = opStore ∧ fieldFunct3 w = 0x2#3
  | .BEQ => fieldOpcode w = opBranch ∧ fieldFunct3 w = 0x0#3
  | .BNE => fieldOpcode w = opBranch ∧ fieldFunct3 w = 0x1#3
  | .JAL => fieldOpcode w = opJal
  | .HALT => fieldOpcode w = opHalt

/-- The instruction of a mnemonic with the operands a word's fields hold (R81, R83 to R86). -/
def instrOf (w : Word) : Mnemonic → Instr
  | .ADD => .add (fieldRd w) (fieldRs1 w) (fieldRs2 w)
  | .SUB => .sub (fieldRd w) (fieldRs1 w) (fieldRs2 w)
  | .XOR => .xor (fieldRd w) (fieldRs1 w) (fieldRs2 w)
  | .OR => .or (fieldRd w) (fieldRs1 w) (fieldRs2 w)
  | .AND => .and (fieldRd w) (fieldRs1 w) (fieldRs2 w)
  | .ADDI => .addi (fieldRd w) (fieldRs1 w) (immI w)
  | .XORI => .xori (fieldRd w) (fieldRs1 w) (immI w)
  | .ORI => .ori (fieldRd w) (fieldRs1 w) (immI w)
  | .ANDI => .andi (fieldRd w) (fieldRs1 w) (immI w)
  | .LW => .lw (fieldRd w) (fieldRs1 w) (immI w)
  | .SW => .sw (fieldRs2 w) (fieldRs1 w) (immS w)
  | .BEQ => .beq (fieldRs1 w) (fieldRs2 w) (immB w)
  | .BNE => .bne (fieldRs1 w) (fieldRs2 w) (immB w)
  | .JAL => .jal (fieldRd w) (immJ w)
  | .HALT => .halt (w.extractLsb' 7 25)

section
variable {w : Word} {m : Mnemonic} {i : Instr} {d : Decoded}

theorem decodeWord_of_selects (h : Selects w m) : decodeWord w = .ok (instrOf w m) := by
  cases m with
  | ADD | SUB | XOR | OR | AND =>
    obtain ⟨hop, h3, h7⟩ := h
    simp [decodeWord, decodeRArith, instrOf, hop, h3, h7]
  | ADDI | XORI | ORI | ANDI =>
    obtain ⟨hop, h3⟩ := h
    simp [decodeWord, decodeIArith, instrOf, hop, h3, opRArith, opIArith]
  | LW =>
    obtain ⟨hop, h3⟩ := h
    simp [decodeWord, decodeLoad, instrOf, hop, h3, opRArith, opIArith, opLoad]
  | SW =>
    obtain ⟨hop, h3⟩ := h
    simp [decodeWord, decodeStore, instrOf, hop, h3, opRArith, opIArith, opLoad, opStore]
  | BEQ | BNE =>
    obtain ⟨hop, h3⟩ := h
    simp [decodeWord, decodeBranch, instrOf, hop, h3, opRArith, opIArith, opLoad, opStore, opBranch]
  | JAL =>
    have hop : fieldOpcode w = opJal := h
    simp [decodeWord, instrOf, hop, opRArith, opIArith, opLoad, opStore, opBranch, opJal]
  | HALT => exact decodeWord_of_isHaltWord (beq_iff_eq.mpr h)

theorem selects_of_decodeWord (h : decodeWord w = .ok i) : ∃ m, Selects w m ∧ instrOf w m = i := by
  unfold decodeWord decodeRArith decodeIArith decodeLoad decodeStore decodeBranch at h
  split_ifs at h <;> cases h
  exacts [⟨.ADD, ⟨‹_›, ‹_›⟩, rfl⟩, ⟨.SUB, ⟨‹_›, ‹_›⟩, rfl⟩, ⟨.XOR, ⟨‹_›, ‹_›⟩, rfl⟩, ⟨.OR, ⟨‹_›, ‹_›⟩, rfl⟩,
    ⟨.AND, ⟨‹_›, ‹_›⟩, rfl⟩, ⟨.ADDI, ⟨‹_›, ‹_›⟩, rfl⟩, ⟨.XORI, ⟨‹_›, ‹_›⟩, rfl⟩, ⟨.ORI, ⟨‹_›, ‹_›⟩, rfl⟩,
    ⟨.ANDI, ⟨‹_›, ‹_›⟩, rfl⟩, ⟨.LW, ⟨‹_›, ‹_›⟩, rfl⟩, ⟨.SW, ⟨‹_›, ‹_›⟩, rfl⟩, ⟨.BEQ, ⟨‹_›, ‹_›⟩, rfl⟩,
    ⟨.BNE, ⟨‹_›, ‹_›⟩, rfl⟩, ⟨.JAL, ‹_›, rfl⟩, ⟨.HALT, ‹_›, rfl⟩]

/-- Everything the decoder accepts: the words of the fifteen rows, each with the operands in its fields. -/
theorem decodeWord_eq_ok : decodeWord w = .ok i ↔ ∃ m, Selects w m ∧ instrOf w m = i := by
  refine ⟨selects_of_decodeWord, ?_⟩
  rintro ⟨m, hm, rfl⟩
  exact decodeWord_of_selects hm

/-! ### From a word to its instruction and back -/

theorem evenB_immB (w : Word) : evenB (immB w) = true := by
  simp [evenB, immB_bit w 0 (by decide), -BitVec.getLsbD_eq_getElem]

theorem evenJ_immJ (w : Word) : evenJ (immJ w) = true := by
  simp [evenJ, immJ_bit w 0 (by decide), -BitVec.getLsbD_eq_getElem]

theorem wf_instrOf (w : Word) (m : Mnemonic) : (instrOf w m).wf = true := by
  cases m with
  | BEQ | BNE => exact evenB_immB w
  | JAL => exact evenJ_immJ w
  | _ => rfl

/-- The fields outside the operands are those of the row, so the encoding of the instruction is the whole word. -/
theorem encode_instrOf (h : Selects w m) : encode (instrOf w m) = w := by
  cases m with
  | ADD | SUB | XOR | OR | AND =>
    obtain ⟨hop, h3, h7⟩ := h
    simpa only [encode, instrOf, hop, h3, h7] using encodeR_fields w
  | ADDI | XORI | ORI | ANDI | LW =>
    obtain ⟨hop, h3⟩ := h
    simpa only [encode, instrOf, hop, h3] using encodeI_fields w
  | SW =>
    obtain ⟨hop, h3⟩ := h
    simpa only [encode, instrOf, hop, h3] using encodeS_fields w
  | BEQ | BNE =>
    obtain ⟨hop, h3⟩ := h
    simpa only [encode, instrOf, hop, h3] using encodeB_fields w
  | JAL =>
    have hop : fieldOpcode w = opJal := h
    simpa only [encode, instrOf, hop] using encodeJ_fields w
  | HALT =>
    have hop : fieldOpcode w = opHalt := h
    simpa only [encode, instrOf, hop] using encodeH_fields w

theorem selects_encode (i : Instr) : Selects (encode i) i.decoded.mnemonic := by
  cases i with
  | add | sub | xor | or | and => exact ⟨fieldOpcode_encodeR .., fieldFunct3_encodeR .., fieldFunct7_encodeR ..⟩
  | addi | xori | ori | andi | lw => exact ⟨fieldOpcode_encodeI .., fieldFunct3_encodeI ..⟩
  | sw => exact ⟨fieldOpcode_encodeS .., fieldFunct3_encodeS ..⟩
  | beq | bne => exact ⟨fieldOpcode_encodeB .., fieldFunct3_encodeB ..⟩
  | jal => exact fieldOpcode_encodeJ ..
  | halt => exact fieldOpcode_encodeH ..

theorem instrOf_encode (h : i.wf = true) : instrOf (encode i) i.decoded.mnemonic = i := by
  cases i with
  | beq | bne => simp [encode, instrOf, Instr.decoded, recordOf, immB_encodeB _ _ _ _ _ h]
  | jal => simp [encode, instrOf, Instr.decoded, recordOf, immJ_encodeJ _ _ _ h]
  | _ => simp [encode, instrOf, Instr.decoded, recordOf]

theorem decodeWord_encode (h : i.wf = true) : decodeWord (encode i) = .ok i :=
  decodeWord_eq_ok.mpr ⟨_, selects_encode i, instrOf_encode h⟩

theorem decodeBytes_bytesOfWord (h : decodeWord w = .ok i) : decodeBytes (bytesOfWord w) = .ok (i, []) := by
  simp [bytesOfWord, decodeBytes, h]

theorem decodeTableWord_toNat (h : decodeWord w = .ok i) : decodeTableWord 32 w.toNat = some i := by
  simp [decodeTableWord, decodeBytes_bytesOfWord h]

/-! ### The record of a word -/

/-- The class of a mnemonic (R87). -/
def Mnemonic.cls : Mnemonic → OpClass
  | .ADD | .SUB | .XOR | .OR | .AND => .rArith
  | .ADDI | .XORI | .ORI | .ANDI => .iArith
  | .LW => .load
  | .SW => .store
  | .BEQ | .BNE => .branch
  | .JAL => .jal
  | .HALT => .halt

/-- The operation of a mnemonic (R95, R173). -/
def Mnemonic.aluOp : Mnemonic → AluOp
  | .SUB => .sub
  | .XOR | .XORI => .xor
  | .OR | .ORI => .or
  | .AND | .ANDI => .and
  | .ADD | .ADDI | .LW | .SW | .BEQ | .BNE | .JAL | .HALT => .add

/-- The immediate a word holds for a class (R83 to R86); 0 where the class has none. -/
def immOf (w : Word) : OpClass → Word
  | .iArith | .load => sext (immI w)
  | .store => sext (immS w)
  | .branch => sext (immB w)
  | .jal => sext (immJ w)
  | .rArith | .halt => 0#32

/-- The word and the mnemonic of its row determine the record. -/
theorem decoded_instrOf (h : Selects w m) : (instrOf w m).decoded = recordOf w m.cls m m.aluOp (immOf w m.cls) := by
  have hrecord : (instrOf w m).decoded = recordOf (encode (instrOf w m)) m.cls m m.aluOp (immOf w m.cls) := by
    cases m <;> rfl
  rw [hrecord, encode_instrOf h]

theorem decodeRecord_eq_recordOf :
    decodeRecord w = .ok d ↔ ∃ m, Selects w m ∧ d = recordOf w m.cls m m.aluOp (immOf w m.cls) := by
  rw [decodeRecord_eq_ok]
  constructor
  · rintro ⟨i, hi, rfl⟩
    obtain ⟨m, hm, rfl⟩ := decodeWord_eq_ok.mp hi
    exact ⟨m, hm, decoded_instrOf hm⟩
  · rintro ⟨m, hm, rfl⟩
    exact ⟨_, decodeWord_of_selects hm, decoded_instrOf hm⟩

/-- What a branch or a jump carries into the pipe is the ADD the spec puts there (R173, D34). -/
theorem aluOp_of_transfer (h : m.cls = .branch ∨ m.cls = .jal) : m.aluOp = .add := by
  cases m with
  | BEQ | BNE | JAL => rfl
  | _ => simp [Mnemonic.cls] at h

end

/-! ### The range of an immediate -/

theorem two_mul_toInt_sext {n : Nat} (hn : n ≤ 32) (v : BitVec n) :
    -2 ^ n ≤ 2 * (sext v).toInt ∧ 2 * (sext v).toInt < 2 ^ n := by
  rw [sext, BitVec.toInt_signExtend_of_le hn]
  exact ⟨BitVec.le_two_mul_toInt, BitVec.two_mul_toInt_lt⟩

theorem toInt_sext_even {n : Nat} (hn : n + 1 ≤ 32) {v : BitVec (n + 1)} (h : v.getLsbD 0 = false) :
    (sext v).toInt % 2 = 0 := by
  have heven : v.toNat % 2 = 0 := by simpa [BitVec.getLsbD, Nat.testBit_zero] using h
  rw [sext, BitVec.toInt_signExtend_of_le hn, BitVec.toInt_eq_toNat_cond, pow_succ]
  split <;> push_cast <;> omega

theorem toInt_sext_12 (v : BitVec 12) : -2048 ≤ (sext v).toInt ∧ (sext v).toInt ≤ 2047 := by
  have h := two_mul_toInt_sext (by decide) v
  omega

theorem toInt_sext_immB (w : Word) :
    -4096 ≤ (sext (immB w)).toInt ∧ (sext (immB w)).toInt ≤ 4094 ∧ (sext (immB w)).toInt % 2 = 0 := by
  have heven := toInt_sext_even (by decide) (immB_bit w 0 (by decide))
  have h := two_mul_toInt_sext (by decide) (immB w)
  omega

theorem toInt_sext_immJ (w : Word) :
    -1048576 ≤ (sext (immJ w)).toInt ∧ (sext (immJ w)).toInt ≤ 1048574 ∧ (sext (immJ w)).toInt % 2 = 0 := by
  have heven := toInt_sext_even (by decide) (immJ_bit w 0 (by decide))
  have h := two_mul_toInt_sext (by decide) (immJ w)
  omega

/-! ### The mask of a row keeps the fields that place a word in it -/

theorem and_mask_R (w : Word) :
    w &&& 0xFE00707F#32 = encodeR (fieldFunct7 w) 0#5 0#5 (fieldFunct3 w) 0#5 (fieldOpcode w) := by
  apply BitVec.eq_of_getLsbD_eq
  intro i hi
  rw [encodeR_bit]
  interval_cases i <;> simp [fieldOpcode, fieldFunct3, fieldFunct7, -BitVec.getLsbD_eq_getElem]

theorem and_mask_I (w : Word) : w &&& 0x0000707F#32 = encodeI 0#12 0#5 (fieldFunct3 w) 0#5 (fieldOpcode w) := by
  apply BitVec.eq_of_getLsbD_eq
  intro i hi
  rw [encodeI_bit]
  interval_cases i <;> simp [fieldOpcode, fieldFunct3, -BitVec.getLsbD_eq_getElem]

theorem and_mask_H (w : Word) : w &&& 0x0000007F#32 = encodeH 0#25 (fieldOpcode w) := by
  apply BitVec.eq_of_getLsbD_eq
  intro i hi
  rw [encodeH_bit]
  interval_cases i <;> simp [fieldOpcode, -BitVec.getLsbD_eq_getElem]

/-! So the masked word is the match of a row, which has no bit outside the mask, iff it agrees with it in those fields. -/

section
variable {w v : Word}

theorem and_mask_R_eq_iff (hv : v &&& 0xFE00707F#32 = v) : w &&& 0xFE00707F#32 = v ↔
    fieldOpcode w = fieldOpcode v ∧ fieldFunct3 w = fieldFunct3 v ∧ fieldFunct7 w = fieldFunct7 v := by
  rw [and_mask_R] at hv ⊢
  constructor
  · rintro rfl
    simp
  · rintro ⟨hop, h3, h7⟩
    rw [hop, h3, h7, hv]

theorem and_mask_I_eq_iff (hv : v &&& 0x0000707F#32 = v) : w &&& 0x0000707F#32 = v ↔
    fieldOpcode w = fieldOpcode v ∧ fieldFunct3 w = fieldFunct3 v := by
  rw [and_mask_I] at hv ⊢
  constructor
  · rintro rfl
    simp
  · rintro ⟨hop, h3⟩
    rw [hop, h3, hv]

theorem and_mask_H_eq_iff (hv : v &&& 0x0000007F#32 = v) : w &&& 0x0000007F#32 = v ↔ fieldOpcode w = fieldOpcode v := by
  rw [and_mask_H] at hv ⊢
  constructor
  · rintro rfl
    simp
  · intro hop
    rw [hop, hv]

end

end Sys2Proof

namespace Sys2Proof.Machine

theorem matchesRow_iff_selects (w : Word) (m : Mnemonic) : matchesRow w m ↔ Selects w m := by
  cases m with
  | ADD | SUB | XOR | OR | AND => exact and_mask_R_eq_iff rfl
  | ADDI | XORI | ORI | ANDI | LW | SW | BEQ | BNE => exact and_mask_I_eq_iff rfl
  | JAL | HALT => exact and_mask_H_eq_iff rfl

end Sys2Proof.Machine

namespace Sys2Proof

/-! ### The refused words: within an opcode, those of the funct values its row list leaves out -/

section
variable (w : Word)

theorem decodeRArith_eq_error : decodeRArith w = .error (.invalidOpcode w) ↔
    (fieldFunct3 w, fieldFunct7 w) ∉ [(0x0#3, 0x00#7), (0x0#3, 0x20#7), (0x4#3, 0x00#7), (0x6#3, 0x00#7), (0x7#3, 0x00#7)] := by
  unfold decodeRArith
  split_ifs <;> simp_all

theorem decodeIArith_eq_error :
    decodeIArith w = .error (.invalidOpcode w) ↔ fieldFunct3 w ∉ [0x0#3, 0x4#3, 0x6#3, 0x7#3] := by
  unfold decodeIArith
  split_ifs <;> simp_all

theorem decodeLoad_eq_error : decodeLoad w = .error (.invalidOpcode w) ↔ fieldFunct3 w ≠ 0x2#3 := by
  simp [decodeLoad]

theorem decodeStore_eq_error : decodeStore w = .error (.invalidOpcode w) ↔ fieldFunct3 w ≠ 0x2#3 := by
  simp [decodeStore]

theorem decodeBranch_eq_error : decodeBranch w = .error (.invalidOpcode w) ↔ fieldFunct3 w ∉ [0x0#3, 0x1#3] := by
  unfold decodeBranch
  split_ifs <;> simp_all

end

end Sys2Proof

/-! ## The latch of an instruction sent on -/

namespace Sys2Proof.Machine

/-- The flags of a latch, each as the classes that set it (R102). -/
theorem idLatch_eq (s : State) (d : Decoded) : idLatch s d =
    { nop := false, pc := s.ifid.pc, cls := d.cls, aluOp := d.aluOp, rs1 := d.rs1, rs2 := d.rs2, rd := d.rd,
      rs1Val := regRead s d.rs1, rs2Val := regRead s d.rs2, imm := d.imm,
      isLoad := decide (d.cls = .load), isStore := decide (d.cls = .store),
      writesReg := decide (d.cls = .rArith ∨ d.cls = .iArith ∨ d.cls = .load ∨ d.cls = .jal),
      isJump := decide (d.cls = .jal) } := by
  unfold idLatch
  cases d.cls <;> rfl

/-- A committing step latches the instruction that ID decodes, when it is no HALT and nothing holds it (R173). -/
theorem step_latches_of_no_hazard {s : State} {d : Decoded} (hc : Commits s) (hn : s.ifid.nop = false)
    (hd : decodeRecord s.ifid.instr = .ok d) (hi : d.cls ≠ .halt) (hl : ¬ LoadUseHazard s d) :
    ∃ t, step s = .next t ∧ t.idex = idLatch s d := by
  obtain ⟨i, hi', rfl⟩ := decodeRecord_eq_ok.mp hd
  obtain ⟨m, -, ⟨hn', -⟩ | ⟨-, j, hj, -, hs⟩⟩ := step_of_commits hc
  · simp [hn] at hn'
  · obtain rfl : i = j := Except.ok.inj (hi'.symm.trans hj)
    obtain ⟨r, hr⟩ := driven_of_not_halt hi s { exResult := exResult s, memResult := m.result }
    exact ⟨_, hs, by rw [commit_idex, hr, idIssue_sent (loadUse_of_not_hazard hl)]⟩

end Sys2Proof.Machine

/-! ## The obligations of the encoding -/

namespace Sys2Proof.Certificates

open Sys2Proof.Machine

/-- Settles O1: the word selects its instruction's row and its fields hold the operands; bytes and table number name the word. -/
theorem encodedInstructionDecodesToItself : Obligations.EncodedInstructionDecodesToItself := fun _ hwf =>
  have h := decodeWord_encode hwf
  ⟨h, decodeBytes_bytesOfWord h, decodeTableWord_toNat h⟩

/-- Settles O2: the row fixes the fields that hold no operand, so the word is put together again from its fields. -/
theorem decodedInstructionEncodesToItsWord : Obligations.DecodedInstructionEncodesToItsWord := by
  intro w i h
  obtain ⟨m, hm, rfl⟩ := selects_of_decodeWord h
  exact ⟨wf_instrOf w m, encode_instrOf hm⟩

/-- Settles O3: a masked word is the match iff the fields the mask keeps are the row's. -/
theorem opcodeTableRowsAreTheDecoder : Obligations.OpcodeTableRowsAreTheDecoder := by
  intro w m
  rw [matchesRow_iff_selects]
  constructor
  · intro hm
    exact ⟨_, decodeRecord_eq_recordOf.mpr ⟨m, hm, rfl⟩, rfl⟩
  · rintro ⟨d, hd, rfl⟩
    obtain ⟨m, hm, rfl⟩ := decodeRecord_eq_recordOf.mp hd
    exact hm

/-- Settles O4, opcode by opcode. -/
theorem illegalWordsAreExactlyTheUnlisted : Obligations.IllegalWordsAreExactlyTheUnlisted := by
  intro w
  refine ⟨?_, decodeWord_total w⟩
  unfold decodeWord
  split_ifs with hR hI hL hS hB hJ hH
  · simp [decodeRArith_eq_error, hR, opRArith]
  · simp [decodeIArith_eq_error, hI, opIArith]
  · simp [decodeLoad_eq_error, hL, opLoad]
  · simp [decodeStore_eq_error, hS, opStore]
  · simp [decodeBranch_eq_error, hB, opBranch]
  · simp [hJ, opJal]
  · simp [hH, opHalt]
  · simp_all [opRArith, opIArith, opLoad, opStore, opBranch, opJal, opHalt]

/-- Settles O5: the immediate is its class's field, whose sign extension has the field's own value. -/
theorem immediatesOfEachFormat : Obligations.ImmediatesOfEachFormat := by
  intro w d h
  obtain ⟨m, -, rfl⟩ := decodeRecord_eq_recordOf.mp h
  have himm {c : OpClass} (hc : m.cls = c) : immOf w m.cls = immOf w c := congrArg (immOf w) hc
  refine ⟨?_, fun hc => ?_, fun hc => ?_, fun hc => ?_⟩
  · rintro (hc | hc) <;> exact himm hc ▸ ⟨rfl, toInt_sext_12 (immI w)⟩
  · exact himm hc ▸ ⟨rfl, toInt_sext_12 (immS w)⟩
  · exact himm hc ▸ ⟨rfl, toInt_sext_immB w⟩
  · exact himm hc ▸ ⟨rfl, toInt_sext_immJ w⟩

/-- Settles O6: the record is determined by the word and the mnemonic of its row. -/
theorem recordHoldsTheWordsFields : Obligations.RecordHoldsTheWordsFields := by
  intro w d h
  obtain ⟨m, -, rfl⟩ := decodeRecord_eq_recordOf.mp h
  refine ⟨rfl, rfl, rfl, rfl, rfl, ?_, ?_⟩
  · rintro (hc | hc) <;> exact congrArg (immOf w) hc
  · cases m <;> simp [recordOf, Mnemonic.aluOp]

/-- Settles O23: the latch is ID's own, its flags spelled out class by class. -/
theorem issuedInstructionEntersEx : Obligations.IssuedInstructionEntersEx := by
  intro s d hc hn hd hi hl
  obtain ⟨t, hs, ht⟩ := step_latches_of_no_hazard hc hn hd hi hl
  refine ⟨t, hs, ht.trans (idLatch_eq s d), fun hcls => ?_⟩
  obtain ⟨m, -, rfl⟩ := decodeRecord_eq_recordOf.mp hd
  rw [ht]
  exact aluOp_of_transfer hcls

/-- Settles O7, by running the decoder on each word. -/
theorem sampleWordsDecode : Obligations.SampleWordsDecode :=
  ⟨rfl, rfl, rfl, rfl, rfl, rfl, rfl, rfl, rfl, rfl, rfl⟩

end Sys2Proof.Certificates

/-! ## HALT and the end of the run -/

namespace Sys2Proof.Machine

/-- A tick of an empty pipe whose fetch stops: IF is stopped after it, and it ends the run iff IF was stopped before it (R235). -/
theorem step_of_empty_of_stops {s : State} (hr : Running s) (h1 : s.ifid = IfId.bubble) (h2 : s.idex = IdEx.bubble)
    (h3 : s.exmem = ExMem.bubble) (h4 : s.memwb = MemWb.bubble) (hs : ifFetch s = ifStop s) :
    step s = .next { s with ifNop := true, halted := s.ifNop, cycle := s.cycle + 1 } := by
  have hid : s.ifid.nop = true := h1 ▸ rfl
  have hex : s.idex.nop = true := h2 ▸ rfl
  have hmem : s.exmem.nop = true := h3 ▸ rfl
  have hwb : s.memwb.nop = true := h4 ▸ rfl
  have hdone : runDone s = s.ifNop := by simp [runDone, hid, hex, hmem, hwb]
  rw [step_of_bubble hr hid (memStage_of_nop hmem)]
  simp [commit, hs, ifStop, wbRegs_of_nop hwb, wbRetired_of_nop hwb, exLatch_of_nop hex, memLatch_of_nop hmem, hdone,
    h1, h2, h3, h4]

end Sys2Proof.Machine

namespace Sys2Proof.Certificates

open Sys2Proof.Machine

/-- Settles O33: the first tick of the empty pipe stops IF, the second finds it stopped. -/
theorem haltOrEndOfMemoryEndsTheRun : Obligations.HaltOrEndOfMemoryEndsTheRun := by
  rintro s hf hh hc ⟨hgo, n1, n2, n3, n4⟩ ⟨b1, b2, b3, b4⟩ hstop
  have stops := step_of_empty_of_stops ⟨hf, hh, by omega⟩ (b1 n1) (b2 n2) (b3 n3) (b4 n4) (ifFetch_of_stops hstop)
  have ends := step_of_empty_of_stops (s := { s with ifNop := true, halted := s.ifNop, cycle := s.cycle + 1 })
    ⟨hf, hgo, by simp only; omega⟩ (b1 n1) (b2 n2) (b3 n3) (b4 n4) (ifFetch_of_stopped rfl)
  rw [runSteps_of_next stops, runSteps_of_next ends, runSteps_zero]

/-- Settles O30: ID drives nothing for a HALT, and MEM does not raise. -/
theorem haltInIdIsABubble : Obligations.HaltInIdIsABubble := fun ignored s _ hm =>
  (exec_eq_tick (.halt ignored) s).trans (tick_of_some hm _)

end Sys2Proof.Certificates

/-! ## The stages of a committing step -/

namespace Sys2Proof.Machine

/-! ### EX, by the class in ID/EX (R168 to R170) -/

section
variable {s : State}

theorem exOperandA_of_readsRs1 (h : s.idex.cls.readsRs1 = true) : exOperandA s = fwdEx s s.idex.rs1 s.idex.rs1Val := if_pos h

theorem exOperandB_of_readsRs2 (h : s.idex.cls.readsRs2 = true) : exOperandB s = fwdEx s s.idex.rs2 s.idex.rs2Val := if_pos h

theorem exResult_of_rArith (hc : s.idex.cls = .rArith) : exResult s =
    alu s.idex.aluOp (fwdEx s s.idex.rs1 s.idex.rs1Val) (fwdEx s s.idex.rs2 s.idex.rs2Val) := by
  rw [← exOperandA_of_readsRs1 (hc ▸ rfl), ← exOperandB_of_readsRs2 (hc ▸ rfl), exResult, hc]

theorem exResult_of_iArith (hc : s.idex.cls = .iArith) :
    exResult s = alu s.idex.aluOp (fwdEx s s.idex.rs1 s.idex.rs1Val) s.idex.imm := by
  rw [← exOperandA_of_readsRs1 (hc ▸ rfl), exResult, hc]

theorem exResult_of_access (hc : s.idex.cls = .load ∨ s.idex.cls = .store) :
    exResult s = fwdEx s s.idex.rs1 s.idex.rs1Val + s.idex.imm := by
  rcases hc with hc | hc <;> rw [← exOperandA_of_readsRs1 (hc ▸ rfl), exResult, hc]

theorem exResult_of_jal (hc : s.idex.cls = .jal) : exResult s = s.idex.pc + 4#32 := by rw [exResult, hc, nextPc]

theorem exResult_of_branch (hc : s.idex.cls = .branch) : exResult s = 0#32 := by rw [exResult, hc]

/-- Only a store carries store data: its forwarded `rs2` value (R170, R211). -/
theorem exStoreData_eq_ite (s : State) :
    exStoreData s = if s.idex.cls = .store then fwdEx s s.idex.rs2 s.idex.rs2Val else 0#32 := by
  cases hc : s.idex.cls with
  | store => rw [exStoreData, hc, if_pos rfl, exOperandB_of_readsRs2 (hc ▸ rfl)]
  | _ => rw [exStoreData, hc, if_neg (by decide)]

end

/-! ### WB, with the match predicate written out (R163) -/

theorem readReg_wbRegs_eq_ite (s : State) (r : RegIdx) : readReg (wbRegs s) r =
    if s.memwb.nop = false ∧ s.memwb.writesReg = true ∧ s.memwb.rd ≠ 0#5 ∧ r = s.memwb.rd then s.memwb.wrtData
    else readReg s.x r := by
  have hsupplies : s.memwb.supplies r = true ↔
      s.memwb.nop = false ∧ s.memwb.writesReg = true ∧ s.memwb.rd ≠ 0#5 ∧ r = s.memwb.rd := by
    rw [MemWb.supplies_iff]
    constructor
    · rintro ⟨hn, hw, rfl, hz⟩
      exact ⟨hn, hw, hz, rfl⟩
    · rintro ⟨hn, hw, hz, rfl⟩
      exact ⟨hn, hw, rfl, hz⟩
  rw [readReg_wbRegs, regRead]
  simp only [hsupplies]

/-! ### ID, by what the record of its instruction says -/

/-- A HALT reads no register, so a load-use hazard holds whatever reads the loaded one (R204, R206). -/
theorem driven_of_loadUse {i : Instr} {s : State} (hl : loadUse s i.decoded = true) (w : Wires) : driven i s w = idHeld := by
  have hi : i.decoded.cls ≠ .halt := fun hc => by
    obtain ⟨-, -, -, hr⟩ := loadUse_iff.mp hl
    simp [hc, OpClass.readsRs1, OpClass.readsRs2] at hr
  obtain ⟨r, hr⟩ := driven_of_not_halt hi s w
  rw [hr, idIssue_held hl]

/-- An instruction that nothing holds and that transfers no control leaves IF to fetch (R226). -/
theorem ifStage_driven_of_no_transfer {i : Instr} {s : State} (hl : loadUse s i.decoded = false)
    (hb : i.decoded.cls ≠ .branch) (hj : i.decoded.cls ≠ .jal) (w : Wires) : ifStage s (driven i s w) = ifFetch s := by
  cases i with
  | beq | bne => exact absurd rfl hb
  | jal => exact absurd rfl hj
  | halt => rfl
  | _ => exact ifStage_fetch (by rw [driven, idIssue_sent hl]) (by rw [driven, idIssue_sent hl])

/-- IF fetches the word at the pc and moves on (R176, R177). -/
theorem ifFetch_of_word {s : State} {w : Word} (hgo : s.ifNop = false) (hw : s.imem.readWord s.pc = some w)
    (hh : isHaltWord w = false) :
    ifFetch s = { ifid := { nop := false, pc := s.pc, instr := w }, pc := nextPc s.pc, ifNop := false } := by
  simp [ifFetch, hgo, hw, hh]

/-! ### The step, by what is in ID -/

theorem step_of_decoded {s : State} {i : Instr} (hr : Running s) (hn : s.ifid.nop = false)
    (hd : decodeWord s.ifid.instr = .ok i) : step s = exec i s :=
  (step_of_running hr).trans (tickById_of_decoded hn hd)

/-- A committing step commits what ID drives for the instruction whose record it decodes. -/
theorem step_of_record {s : State} {d : Decoded} (hc : Commits s) (hn : s.ifid.nop = false)
    (hd : decodeRecord s.ifid.instr = .ok d) :
    ∃ m i, i.decoded = d ∧ step s = .next (commit s m (driven i s { exResult := exResult s, memResult := m.result })) := by
  obtain ⟨i, hi, hdi⟩ := decodeRecord_eq_ok.mp hd
  obtain ⟨m, hm⟩ := memStage_of_not_memRaises hc.2.1
  exact ⟨m, i, hdi, by rw [step_of_decoded hc.1 hn hi, exec_eq_tick, tick_of_some hm]⟩

/-- IF fetches in a committing step when ID holds a bubble or an instruction that neither stalls nor transfers control. -/
theorem step_fetches {s : State} (hc : Commits s)
    (hid : s.ifid.nop = true ∨
      ∃ d, decodeRecord s.ifid.instr = .ok d ∧ ¬ LoadUseHazard s d ∧ d.cls ≠ .branch ∧ d.cls ≠ .jal) :
    ∃ m o, step s = .next (commit s m o) ∧ ifStage s o = ifFetch s := by
  cases hn : s.ifid.nop with
  | true =>
    obtain ⟨m, hm⟩ := memStage_of_not_memRaises hc.2.1
    exact ⟨m, idNothing, step_of_bubble hc.1 hn hm, rfl⟩
  | false =>
    obtain ⟨d, hd, hl, hb, hj⟩ := hid.resolve_left (by simp [hn])
    obtain ⟨m, i, rfl, hs⟩ := step_of_record hc hn hd
    exact ⟨m, _, hs, ifStage_driven_of_no_transfer (loadUse_of_not_hazard hl) hb hj _⟩

/-- The run control lets the tick after a committed one happen, unless the pipe was done or the limit is reached (R237, R238). -/
theorem running_commit {s : State} {m : MemOut} {o : IdOut} (hr : Running s) (hdone : runDone s = false)
    (hlim : (commit s m o).cycle ≠ Config.maxCycles) : Running (commit s m o) :=
  ⟨hr.1, hdone, hlim⟩

/-! ### Errors (R180, R237, R252 to R255) -/

theorem limitReached_eq {s : State} (h : s.cycle = Config.maxCycles) :
    limitReached s = raiseFault s (.safetyLimitReached 100000) :=
  congrArg (fun n => raiseFault s (.safetyLimitReached n)) h

theorem tickInvalid_of_none {s : State} (h : memStage s = none) :
    tickInvalid s = .next (raiseFault s (memoryOutOfBoundsFault s)) := by
  simp [tickInvalid, h]

theorem tickInvalid_of_some {s : State} {m : MemOut} (h : memStage s = some m) :
    tickInvalid s = .next (raiseFault s (invalidOpcodeFault s)) := by
  simp [tickInvalid, h]

theorem tickInvalid_next (s : State) : ∃ t, tickInvalid s = .next t := by
  cases h : memStage s with
  | none => exact ⟨_, tickInvalid_of_none h⟩
  | some m => exact ⟨_, tickInvalid_of_some h⟩

theorem tick_next (s : State) (id : Wires → IdOut) : ∃ t, tick s id = .next t := by
  rcases tick_cases s id with ⟨-, e⟩ | ⟨m, -, e⟩ <;> exact ⟨_, e⟩

/-- MEM's error is the one reported, whatever is in ID (R255). -/
theorem tickById_of_memRaises {s : State} (h : MemRaises s) :
    tickById s = .next (raiseFault s (memoryOutOfBoundsFault s)) := by
  have hm := memRaises_iff.mp h
  cases hn : s.ifid.nop with
  | true => rw [tickById_of_bubble hn, tickBubble, tick_of_none hm]
  | false =>
    cases hd : decodeWord s.ifid.instr with
    | ok i => rw [tickById_of_decoded hn hd, exec_eq_tick, tick_of_none hm]
    | error e => rw [tickById_of_invalid hn hd, tickInvalid_of_none hm]

/-- A step from a state that holds no error answers a next state (R251). -/
theorem step_next_of_no_fault {s : State} (hf : s.fault = none) : ∃ t, step s = .next t := by
  rcases step_cases s hf with ⟨_, e⟩ | ⟨_, _, e⟩ | ⟨_, _, e⟩ | ⟨_, _, i, _, e⟩ | ⟨_, _, _, e⟩ <;> rw [e]
  · exact ⟨_, rfl⟩
  · exact ⟨_, rfl⟩
  · exact tick_next s _
  · rw [exec_eq_tick]
    exact tick_next s _
  · exact tickInvalid_next s

end Sys2Proof.Machine

namespace Sys2Proof.Certificates

open Sys2Proof.Machine

/-- Settles O8: the run control's turn is the tick by what is in ID, and a decoded instruction is one of its row. -/
theorem stepRunsDecodedInstruction : Obligations.StepRunsDecodedInstruction := by
  intro s i hr hn hd
  obtain ⟨k, -, rfl⟩ := selects_of_decodeWord hd
  exact ⟨step_of_decoded hr hn hd, wf_instrOf _ k⟩

/-- Settles O9: the first tick fetches the word; IF was not stopped, so the run goes on and the next tick decodes it. -/
theorem bytesAtThePcRunInTheNextStep : Obligations.BytesAtThePcRunInTheNextStep := by
  intro s w i hc hgo hid hw hd hh
  obtain ⟨m, o, hs, hif⟩ := step_fetches hc hid
  rw [ifFetch_of_word hgo hw hh] at hif
  have hifid : (commit s m o).ifid = { nop := false, pc := s.pc, instr := w } := by rw [commit_ifid, hif]
  have hdone : runDone s = false := by simp [runDone, hgo]
  refine ⟨commit s m o, hs, hifid, by rw [commit_pc, hif, nextPc], by rw [commit_ifNop, hif], fun hlim => ?_⟩
  exact step_of_decoded (running_commit hc.1 hdone hlim) (by rw [hifid]) (by rw [hifid]; exact hd)

/-- Settles O11: the limit before the tick, then MEM's error, then ID's, else a commit. -/
theorem errorsAreExactlyTheClosedList : Obligations.ErrorsAreExactlyTheClosedList := by
  intro s hf
  refine ⟨fun hh hlim => ?_, fun hr hm => ?_, fun hr hm hi => ?_, fun hc => ?_⟩
  · rw [step_of_limit hf hh hlim, limitReached_eq hlim]
    rfl
  · rw [step_of_running hr, tickById_of_memRaises hm]
    rfl
  · obtain ⟨m, hms⟩ := memStage_of_not_memRaises hm
    rw [step_of_running hr, tickById_of_invalid hi.1 hi.2, tickInvalid_of_some hms]
    rfl
  · obtain ⟨m, o, -, hs⟩ := step_of_commits' hc
    exact ⟨commit s m o, hs, hf, rfl⟩

/-- Settles O13: every meaning is a tick, which raises or commits; a step is a fault only in a terminal state. -/
theorem everyMeaningAnswersANextState : Obligations.EveryMeaningAnswersANextState := by
  refine ⟨fun i s => ?_, fun s r hs => ?_, fun s f => ⟨fun hs => ?_, step_of_fault⟩⟩
  · rw [exec_eq_tick]
    rcases tick_cases s (driven i s) with ⟨hm, e⟩ | ⟨m, hm, e⟩
    · exact ⟨_, e, fun _ => rfl, fun h => absurd (memRaises_iff.mpr hm) h⟩
    · exact ⟨_, e, fun h => by simp [memRaises_iff.mp h] at hm, fun _ => ⟨rfl, rfl⟩⟩
  · cases hf : s.fault with
    | some f => simp [step_of_fault hf] at hs
    | none =>
      obtain ⟨t, ht⟩ := step_next_of_no_fault hf
      simp [ht] at hs
  · cases hf : s.fault with
    | some g => simpa [step_of_fault hf] using hs
    | none =>
      obtain ⟨t, ht⟩ := step_next_of_no_fault hf
      simp [ht] at hs

/-- Settles O14: the register file of a commit is WB's. -/
theorem writeBackWritesTheDestination : Obligations.WriteBackWritesTheDestination := fun s hc => by
  obtain ⟨m, o, -, hs⟩ := step_of_commits' hc
  exact ⟨commit s m o, hs, readReg_wbRegs_eq_ite s⟩

/-- Settles O17: EX/MEM of a commit is EX's latch, whose result is that of the class in ID/EX. -/
theorem executeStageOfACommittedTick : Obligations.ExecuteStageOfACommittedTick := by
  intro s hc
  obtain ⟨m, o, -, hs⟩ := step_of_commits' hc
  refine ⟨commit s m o, hs, exLatch_of_nop, fun hn => ?_⟩
  rw [commit_exmem, exLatch_of_busy hn]
  exact ⟨rfl, rfl, rfl, rfl, rfl, exStoreData_eq_ite s, exResult_of_rArith, exResult_of_iArith, exResult_of_access,
    exResult_of_jal, exResult_of_branch⟩

/-- Settles O21: ID latches reads with the write-back bypass, which are the reads of the register file after WB. -/
theorem latchedReadSeesTheWriteBack : Obligations.LatchedReadSeesTheWriteBack := by
  intro s d hc hn hd hi hl
  obtain ⟨t, hs, ht⟩ := step_latches_of_no_hazard hc hn hd hi hl
  obtain ⟨m, o, -, rfl⟩ := step_next_of_commits hc hs
  refine ⟨_, hs, ?_⟩
  rw [ht, commit_x, readReg_wbRegs, readReg_wbRegs]
  exact ⟨rfl, rfl⟩

/-- Settles O24: ID drives a stall, and the back half of the tick goes on. -/
theorem loadUseHazardHoldsTheInstruction : Obligations.LoadUseHazardHoldsTheInstruction := by
  intro s d hc hn hd hl
  obtain ⟨m, i, rfl, hs⟩ := step_of_record hc hn hd
  rw [driven_of_loadUse (loadUseHazard_iff.mp hl)] at hs
  obtain ⟨hbusy, hload, -, -⟩ := hl
  refine ⟨commit s m idHeld, hs, rfl, rfl, rfl, rfl, ?_⟩
  rw [commit_exmem, exLatch_of_busy hbusy, commit_memwb]
  exact ⟨rfl, hload, rfl, memLatch_nop s m.result⟩

end Sys2Proof.Certificates

/-! ## Forwarding and hazards -/

namespace Sys2Proof.Machine

/-! ### The EX network, tier by tier (R192 to R195) -/

section
variable {s : State} {r : RegIdx}

theorem fwdEx_of_exmem (h : s.exmem.supplies r = true) (hl : s.exmem.isLoad = false) (v : Word) :
    fwdEx s r v = s.exmem.aluResult := by
  simp [fwdEx, h, hl]

theorem fwdEx_of_memwb (hx : s.exmem.supplies r = true → s.exmem.isLoad = true) (h : s.memwb.supplies r = true) (v : Word) :
    fwdEx s r v = s.memwb.wrtData := by
  rw [fwdEx, if_neg (by simpa using hx), if_pos h]

theorem fwdEx_of_latched (hx : s.exmem.supplies r = true → s.exmem.isLoad = true) (h : s.memwb.supplies r = false) (v : Word) :
    fwdEx s r v = v := by
  rw [fwdEx, if_neg (by simpa using hx), if_neg (ne_true_of_eq_false h)]

/-- EX/MEM is passed over: it supplies nothing, or it is an unfinished load (R192, R196). -/
theorem isLoad_of_exmem_passed_over
    (h : s.exmem.nop = true ∨ s.exmem.writesReg = false ∨ s.exmem.rd ≠ r ∨ s.exmem.isLoad = true)
    (hs : s.exmem.supplies r = true) : s.exmem.isLoad = true := by
  obtain ⟨hn, hw, hrd, -⟩ := ExMem.supplies_iff.mp hs
  simpa [hn, hw, hrd] using h

theorem MemWb.supplies_eq_false {l : MemWb} (h : l.nop = true ∨ l.writesReg = false ∨ l.rd ≠ r) : l.supplies r = false := by
  by_contra hs
  obtain ⟨hn, hw, hrd, -⟩ := MemWb.supplies_iff.mp (eq_true_of_ne_false hs)
  simp [hn, hw, hrd] at h

/-! ### The ID network -/

/-- The registers of the drained state are those of the state after the next tick, written back by the two instructions then in
WB and MEM, which stood in MEM and EX before it (R233). -/
theorem regs_of_drained {m : MemOut} {a : ArchState} (o : IdOut) (hm : memStage s = some m) (ha : drained s = some a) :
    ∃ m', memStage (commit s m o) = some m' ∧
      a.x = writeBack (wbRegs (commit s m o)) (memLatch (commit s m o) m'.result) := by
  rw [drained_before_commit hm o] at ha
  obtain ⟨q, hq, rfl⟩ := Option.map_eq_some_iff.mp ha
  obtain ⟨m', hm', rfl⟩ := Option.map_eq_some_iff.mp hq
  exact ⟨m', hm', rfl⟩

/-- One tick after MEM, with a bubble behind it, an instruction supplies its result from MEM/WB (R193). -/
theorem fwdEx_commit_of_exmem {m : MemOut} {o : IdOut} (hx : s.idex.nop = true) (h : s.exmem.supplies r = true) (v : Word) :
    fwdEx (commit s m o) r v = m.result := by
  have hEx : (commit s m o).exmem.supplies r = false := by rw [commit_exmem, exLatch_supplies, IdEx.supplies_of_nop hx]
  rw [fwdEx_of_memwb (by rw [hEx]; exact nofun) (by rw [commit_memwb, memLatch_supplies, h]), commit_memwb,
    memLatch_wrtData_of_supplies h]

theorem fwdId_of_exmem (hx : s.idex.nop = true) (h : s.exmem.supplies r = true) (w : Wires) : fwdId s w r = w.memResult := by
  simp [fwdId, IdEx.supplies_of_nop hx, h]

end

/-! ### A load-use stall and the tick after it -/

section
variable {s : State} {d : Decoded}

theorem cls_ne_halt_of_hazard (h : LoadUseHazard s d) : d.cls ≠ .halt := by
  intro hc
  obtain ⟨-, -, -, hr⟩ := h
  simp [hc, OpClass.readsRs1, OpClass.readsRs2] at hr

/-- A load-use hazard makes the tick a stall (R206). -/
theorem step_of_hazard (hc : Commits s) (hn : s.ifid.nop = false) (hd : decodeRecord s.ifid.instr = .ok d)
    (hl : LoadUseHazard s d) : ∃ m, step s = .next (commit s m idHeld) := by
  obtain ⟨m, i, rfl, hs⟩ := step_of_record hc hn hd
  exact ⟨m, by rw [hs, driven_of_loadUse (loadUseHazard_iff.mp hl)]⟩

theorem not_hazard_of_nop (h : s.idex.nop = true) : ¬ LoadUseHazard s d := by
  rintro ⟨hn, -⟩
  simp [h] at hn

/-- After a stall there is a bubble in EX, so the tick that follows latches the instruction that was held (R207). -/
theorem step_latches_after_stall {m : MemOut} (hl : LoadUseHazard s d) (hn : s.ifid.nop = false)
    (hd : decodeRecord s.ifid.instr = .ok d) (hc : Commits (commit s m idHeld)) :
    ∃ u, step (commit s m idHeld) = .next u ∧ u.idex = idLatch (commit s m idHeld) d :=
  step_latches_of_no_hazard hc hn hd (cls_ne_halt_of_hazard hl) (not_hazard_of_nop rfl)

/-- The wire of MEM for a load in bounds is the loaded word (R166). -/
theorem memStage_of_load {v : Word} (hn : s.exmem.nop = false) (hl : s.exmem.isLoad = true)
    (hv : s.dmem.readWord s.exmem.aluResult = some v) : memStage s = some { result := v, dmem := s.dmem } := by
  simp [memStage, hn, hl, hv]

end

/-! ### A conditional branch -/

theorem driven_beq (rs1 rs2 : RegIdx) (off : BitVec 13) (s : State) (w : Wires) :
    driven (.beq rs1 rs2 off) s w = idIssue s (Instr.beq rs1 rs2 off).decoded
      (if fwdId s w rs1 = fwdId s w rs2 then some (s.ifid.pc + off.signExtend 32) else none) := by
  simp [driven, sext]

theorem driven_bne (rs1 rs2 : RegIdx) (off : BitVec 13) (s : State) (w : Wires) :
    driven (.bne rs1 rs2 off) s w = idIssue s (Instr.bne rs1 rs2 off).decoded
      (if fwdId s w rs1 ≠ fwdId s w rs2 then some (s.ifid.pc + off.signExtend 32) else none) := by
  simp [driven, sext]

/-- A branch that nothing holds goes on to EX, and redirects IF to its target iff its condition `taken` holds (R221, R222). -/
theorem exec_resolves_branch {i : Instr} {s : State} {m : MemOut} {taken : Prop} [Decidable taken] {target : Word}
    (hm : memStage s = some m) (hi : i.decoded.cls = .branch) (hl : ¬ LoadUseHazard s i.decoded)
    (hdriven : driven i s { exResult := exResult s, memResult := m.result } =
      idIssue s i.decoded (if taken then some target else none)) :
    ∃ t, exec i s = .next t ∧ t.idex.nop = false ∧ t.idex.cls = .branch ∧ t.idex.writesReg = false ∧
      (if taken then t.ifid = IfId.bubble ∧ t.pc = target ∧ t.ifNop = false
       else t.ifid = (ifFetch s).ifid ∧ t.pc = (ifFetch s).pc ∧ t.ifNop = (ifFetch s).ifNop) := by
  rw [idIssue_sent (loadUse_of_not_hazard hl)] at hdriven
  refine ⟨_, by rw [exec_eq_tick, tick_of_some hm, hdriven], rfl, hi, congrArg OpClass.writesReg hi, ?_⟩
  split_ifs
  · exact ⟨rfl, rfl, rfl⟩
  · exact ⟨rfl, rfl, rfl⟩

end Sys2Proof.Machine

namespace Sys2Proof.Certificates

open Sys2Proof.Machine

/-- Settles O20, tier by tier. -/
theorem exForwardingPriority : Obligations.ExForwardingPriority := by
  intro s r v
  refine ⟨fun hr hn hw hrd hl => ?_, fun hr hx hn hw hrd => ?_, fun hx hm => ?_, fwdEx_zero s v⟩
  · exact fwdEx_of_exmem (ExMem.supplies_iff.mpr ⟨hn, hw, hrd, hr⟩) hl v
  · exact fwdEx_of_memwb (isLoad_of_exmem_passed_over hx) (MemWb.supplies_iff.mpr ⟨hn, hw, hrd, hr⟩) v
  · exact fwdEx_of_latched (isLoad_of_exmem_passed_over hx) (MemWb.supplies_eq_false hm) v

/-- Settles O22: the network gives what the instructions in EX, MEM and WB write back when they drain. -/
theorem branchOperandsAreSequentialValues : Obligations.BranchOperandsAreSequentialValues := by
  intro s m a r _ hm ha hload
  obtain ⟨m', hm', hx⟩ := regs_of_drained idNothing hm ha
  have hl (hs : s.idex.supplies r = true) : s.idex.isLoad = false := by
    obtain ⟨hn, -, hrd, hr⟩ := IdEx.supplies_iff.mp hs
    by_contra h
    exact hload ⟨hn, eq_true_of_ne_false h, hrd, hr⟩
  rw [fwdId_eq_readReg hm' hl, ArchState.reg, hx]

/-- Settles O25: the stall leaves a bubble in EX and the instruction in ID. -/
theorem heldInstructionIssuesInTheNextTick : Obligations.HeldInstructionIssuesInTheNextTick := by
  intro s d hc hn hd hl
  obtain ⟨m, hs⟩ := step_of_hazard hc hn hd hl
  refine ⟨_, hs, not_hazard_of_nop rfl, fun hct => ?_⟩
  obtain ⟨u, hu, hlatch⟩ := step_latches_after_stall hl hn hd hct
  exact ⟨u, hu, by rw [hlatch]; exact ⟨rfl, rfl, rfl⟩⟩

/-- Settles O26: the load is in MEM when the reader is in ID, and in WB when the reader is in EX, a bubble between them. -/
theorem heldReaderGetsTheLoadedWord : Obligations.HeldReaderGetsTheLoadedWord := by
  intro s t u d v hc hn hd hl hw hs hv hct ht
  obtain ⟨m, hs'⟩ := step_of_hazard hc hn hd hl
  obtain rfl : t = commit s m idHeld := Host.Outcome.next.inj (hs.symm.trans hs')
  obtain ⟨u', hu, hlatch⟩ := step_latches_after_stall hl hn hd hct
  obtain rfl : u = u' := Host.Outcome.next.inj (ht.symm.trans hu)
  obtain ⟨m', o, hm', rfl⟩ := step_next_of_commits hct ht
  obtain ⟨hbusy, hload, hrd, -⟩ := hl
  have hsupplies : (commit s m idHeld).exmem.supplies s.idex.rd = true := by
    rw [commit_exmem, exLatch_supplies]
    exact IdEx.supplies_iff.mpr ⟨hbusy, hw, rfl, hrd⟩
  have hmem := memStage_of_load (s := commit s m idHeld) ((exLatch_nop s).trans hbusy)
    (by rw [commit_exmem, exLatch_of_busy hbusy, hload]) hv
  have hresult : m'.result = v := congrArg MemOut.result (Option.some.inj (hm'.symm.trans hmem))
  have hfwd {r : RegIdx} (hr : r = s.idex.rd) (latched : Word) : fwdEx (commit (commit s m idHeld) m' o) r latched = v := by
    rw [hr, fwdEx_commit_of_exmem rfl hsupplies, hresult]
  refine ⟨fun h1 hr => ?_, fun h2 hr => ?_, m', hm', hresult, (fwdId_of_exmem rfl hsupplies _).trans hresult⟩
  · rw [exOperandA_of_readsRs1 (by rw [hlatch]; exact h1), hlatch]
    exact hfwd hr _
  · rw [exOperandB_of_readsRs2 (by rw [hlatch]; exact h2), hlatch]
    exact hfwd hr _

/-- Settles O27: each branch's own comparison of the two forwarded values. -/
theorem branchResolvesInId : Obligations.BranchResolvesInId := fun rs1 rs2 off s _ hm =>
  ⟨fun hl => exec_resolves_branch hm rfl hl (driven_beq rs1 rs2 off s _),
    fun hl => exec_resolves_branch hm rfl hl (driven_bne rs1 rs2 off s _)⟩

end Sys2Proof.Certificates

/-! ## Redirect, fetch and drain -/

namespace Sys2Proof.Machine

/-! ### The drain (R232 to R236) -/

/-- IF has stopped and ID is empty, so that ID sends nothing on until the run ends: `a` is the architectural state that the
instructions in flight complete to, and `n` counts them and those retired before. -/
structure Draining (a : ArchState) (n : Nat) (s : State) : Prop where
  noFault : s.fault = none
  stopped : s.ifNop = true
  idEmpty : s.ifid.nop = true
  drained : drained s = some a
  count : issuedCount s = n

section
variable {a : ArchState} {n : Nat} {s : State}

/-- A tick of the drain commits, with a bubble in ID, and is followed by the rest of the same drain. -/
theorem Draining.step (h : Draining a n s) (hh : s.halted = false) (hc : s.cycle ≠ Config.maxCycles) :
    ∃ m, step s = .next (commit s m idNothing) ∧ Draining a n (commit s m idNothing) := by
  have hmem : ¬ MemRaises s := fun hr => absurd (h.drained.symm.trans (drained_of_memRaises hr)) nofun
  obtain ⟨m, hm⟩ := memStage_of_not_memRaises hmem
  have hpc : resumePc (commit s m idNothing) = resumePc s :=
    (resumePc_commit rfl).trans (resumePc_of_bubble h.idEmpty).symm
  refine ⟨m, step_of_bubble ⟨h.noFault, hh, hc⟩ h.idEmpty hm, ?_⟩
  exact
    { noFault := h.noFault
      stopped := by rw [commit_ifNop, ifStage_idNothing, ifFetch_of_stopped h.stopped, ifStop]
      idEmpty := by rw [commit_ifid, ifStage_idNothing, ifFetch_of_stopped h.stopped, ifStop, ifId_bubble_nop]
      drained := (drained_commit_of_bubble hm rfl hpc).trans h.drained
      count := (issuedCount_commit s m idNothing).trans h.count }

/-- When the drain has emptied the pipe, nothing is left to complete or to count. -/
theorem Draining.of_empty (h : Draining a n s) (h2 : s.idex.nop = true) (h3 : s.exmem.nop = true)
    (h4 : s.memwb.nop = true) : s.arch = a ∧ s.retired = n := by
  have ha := h.drained
  rw [drained_of_empty h2 h3 h4, resumePc_of_bubble h.idEmpty] at ha
  have hn := h.count
  simp only [issuedCount, inFlight, h2, h3, h4] at hn
  exact ⟨Option.some.inj ha, hn⟩

/-- A tick that ends the run started with an empty pipe, and leaves it empty. -/
theorem Draining.of_halted {m : MemOut} (h : Draining a n (commit s m idNothing))
    (hh : (commit s m idNothing).halted = true) :
    (commit s m idNothing).arch = a ∧ (commit s m idNothing).retired = n := by
  obtain ⟨-, -, h2, h3, -⟩ := runDone_iff.mp hh
  exact h.of_empty rfl ((exLatch_nop s).trans h2) ((memLatch_nop s m.result).trans h3)

/-- A drain that the limit leaves time for reaches the clean end, with every instruction in flight completed and retired. -/
theorem Draining.reaches_end {j : Nat} (h : Draining a n s) (hh : s.halted = false) (hj : drainTicks s ≤ j)
    (hc : s.cycle + j ≤ Config.maxCycles) :
    ∃ t, runSteps j s = .next t ∧ t.halted = true ∧ t.arch = a ∧ t.retired = n := by
  induction j generalizing s with
  | zero =>
    have := drainTicks_pos s
    omega
  | succ j ih =>
    obtain ⟨m, hs, ht⟩ := h.step hh (by omega)
    rw [runSteps_of_next hs]
    cases hht : (commit s m idNothing).halted with
    | true => exact ⟨_, runSteps_of_halted ht.noFault hht j, hht, ht.of_halted hht⟩
    | false =>
      have hless := (drainTicks_commit (m := m) h.stopped h.idEmpty).resolve_left (ne_true_of_eq_false hht)
      exact ih ht hht (by omega) (by rw [commit_cycle]; omega)

end

/-! ### IF and instruction memory -/

/-- Where IF stops, in bounds and opcode written out (R230, R231). -/
theorem fetchStopsAt_iff {m : Memory} {a : Word} :
    fetchStopsAt m a = true ↔ ¬ a.toNat + 3 < m.size ∨ fieldOpcode (m.wordAt a.toNat) = 0x7F#7 := by
  rw [fetchStopsAt, Memory.readWord_eq_ite]
  by_cases hb : a.toNat + 3 < m.size
  · simp [hb, isHaltWord, opHalt]
  · simp [hb]

section
variable {s : State} {o : IdOut}

/-- IF reads instruction memory only where ID neither stalls nor redirects it, and then it stops or puts a word in IF/ID. -/
theorem ifStage_of_other_imem (im : Memory) (hid : (ifStage s o).ifid.nop = true) (hgo : (ifStage s o).ifNop = false) :
    ifStage { s with imem := im } o = ifStage s o := by
  cases hst : o.stall with
  | true => rw [ifStage_stall hst, ifStage_stall hst]
  | false =>
    cases hr : o.redirect with
    | some target => rw [ifStage_redirect hst hr, ifStage_redirect hst hr]
    | none =>
      rw [ifStage_fetch hst hr] at hid hgo
      rcases ifFetch_cases s with ⟨-, h⟩ | ⟨-, w, -, -, h⟩
      · rw [h, ifStop] at hgo
        cases hgo
      · rw [h] at hid
        cases hid

/-- No other stage reads instruction memory. -/
theorem commit_of_other_imem (im : Memory) (h : ifStage { s with imem := im } o = ifStage s o) (m : MemOut) :
    commit { s with imem := im } m o = { commit s m o with imem := im } := by
  simp only [commit, h]
  rfl

theorem driven_of_other_imem (im : Memory) (i : Instr) (s : State) : driven i { s with imem := im } = driven i s := by
  cases i <;> rfl

/-- A tick after which IF/ID holds a bubble and IF fetches did not depend on instruction memory (R222, R227). -/
theorem exec_of_other_imem {i : Instr} {t : State} (im : Memory) (h : exec i s = .next t) (hid : t.ifid.nop = true)
    (hgo : t.ifNop = false) : exec i { s with imem := im } = .next { t with imem := im } := by
  rw [exec_eq_tick] at h ⊢
  rw [driven_of_other_imem]
  rcases tick_cases s (driven i s) with ⟨hm, e⟩ | ⟨m, hm, e⟩
  · obtain rfl := Host.Outcome.next.inj (h.symm.trans e)
    exact tick_of_none (s := { s with imem := im }) hm _
  · obtain rfl := Host.Outcome.next.inj (h.symm.trans e)
    exact (tick_of_some (s := { s with imem := im }) hm _).trans
      (congrArg Host.Outcome.next (commit_of_other_imem im (ifStage_of_other_imem im hid hgo) m))

end

/-! ### JAL (R223) -/

/-- A JAL reads no register, so no load-use hazard holds it. -/
theorem loadUse_of_jal (rd : RegIdx) (off : BitVec 21) (s : State) : loadUse s (Instr.jal rd off).decoded = false := by
  simp [loadUse, OpClass.readsRs1, OpClass.readsRs2]

theorem driven_jal (rd : RegIdx) (off : BitVec 21) (s : State) (w : Wires) : driven (.jal rd off) s w =
    { latch := idLatch s (Instr.jal rd off).decoded, stall := false, redirect := some (s.ifid.pc + off.signExtend 32) } :=
  idIssue_sent (loadUse_of_jal rd off s) _

theorem exec_jal {s : State} {m : MemOut} (rd : RegIdx) (off : BitVec 21) (hm : memStage s = some m) :
    exec (.jal rd off) s = .next (commit s m
      { latch := idLatch s (Instr.jal rd off).decoded, stall := false,
        redirect := some (s.ifid.pc + off.signExtend 32) }) := by
  rw [exec_eq_tick, tick_of_some hm, driven_jal]

end Sys2Proof.Machine

namespace Sys2Proof.Certificates

open Sys2Proof.Machine

/-- Settles O34: at most four ticks empty the pipe, and the drained state is the same before and after each. -/
theorem drainCompletesAndEndsTheRun : Obligations.DrainCompletesAndEndsTheRun := by
  intro s a hf hh hc hstop hid ha
  have hdrain : Draining a (issuedCount s) s := ⟨hf, hstop, hid, ha, rfl⟩
  obtain ⟨t, hrun, hend, rfl, hret⟩ := hdrain.reaches_end hh (drainTicks_le s) hc
  obtain ⟨hpc, himem⟩ := drained_pc_imem ha
  have hbusy (nop : Bool) : (!nop).toNat = if nop = true then 0 else 1 := by cases nop <;> rfl
  refine ⟨t, hrun, hend, rfl, rfl, himem, hpc.trans (resumePc_of_bubble hid), hret.trans ?_⟩
  simp only [issuedCount, inFlight, hbusy]

/-- Settles O28: nothing holds a JAL, and ID redirects IF for it. -/
theorem jalRedirectsUnconditionally : Obligations.JalRedirectsUnconditionally := by
  intro rd off s hmem
  obtain ⟨m, hm⟩ := memStage_of_not_memRaises hmem
  exact ⟨_, exec_jal rd off hm, rfl, rfl, rfl, rfl, decoded_jal_rd rd off⟩

/-- Settles O29: a JAL is one of the ticks after which IF/ID holds a bubble and IF fetches. -/
theorem wrongPathFetchHasNoEffect : Obligations.WrongPathFetchHasNoEffect := by
  refine ⟨fun rd off s t im h hmem => ?_, fun i s t im h hid hgo => exec_of_other_imem im h hid hgo⟩
  obtain ⟨m, hm⟩ := memStage_of_not_memRaises hmem
  obtain rfl := Host.Outcome.next.inj (h.symm.trans (exec_jal rd off hm))
  exact ⟨rfl, exec_of_other_imem im h rfl rfl⟩

/-- Settles O32: `halted` of a commit is the test on the state before it. -/
theorem runEndsWhenThePipeIsEmptyAndStopped : Obligations.RunEndsWhenThePipeIsEmptyAndStopped := fun s hc => by
  obtain ⟨m, o, -, hs⟩ := step_of_commits' hc
  exact ⟨commit s m o, hs, rfl, runDone_iff⟩

/-- Settles O31, case by case. -/
theorem fetchPriority : Obligations.FetchPriority := by
  intro s m o
  simp only [commit_ifid, commit_pc, commit_ifNop]
  refine ⟨fun hst => ?_, fun target hst hr => ?_, fun hst hr hstop => ?_, fun hst hr hgo hb hw => ?_⟩
  · rw [ifStage_stall hst]
    exact ⟨rfl, rfl, rfl⟩
  · rw [ifStage_redirect hst hr]
    exact ⟨rfl, rfl, rfl⟩
  · have hfetch : ifFetch s = ifStop s := hstop.elim ifFetch_of_stopped fun h => ifFetch_of_stops (fetchStopsAt_iff.mpr h)
    rw [ifStage_fetch hst hr, hfetch]
    exact ⟨rfl, rfl, rfl⟩
  · have hword : s.imem.readWord s.pc = some (s.imem.wordAt s.pc.toNat) := by rw [Memory.readWord_eq_ite, if_pos hb]
    rw [ifStage_fetch hst hr, ifFetch_of_word hgo hword (beq_eq_false_iff_ne.mpr hw)]
    exact ⟨rfl, rfl, rfl⟩

end Sys2Proof.Certificates

/-! ## Instruction memory -/

namespace Sys2Proof.Machine

theorem exec_imem {i : Instr} {s t : State} (h : exec i s = .next t) : t.imem = s.imem := by
  rcases exec_next h with ⟨-, f, rfl⟩ | ⟨m, o, -, rfl⟩
  · exact raiseFault_imem s f
  · exact commit_imem s m o

theorem step_imem {s t : State} (h : step s = .next t) : t.imem = s.imem := by
  obtain ⟨-, ⟨-, rfl⟩ | ⟨-, f, rfl⟩ | ⟨-, m, -, ⟨-, rfl⟩ | ⟨-, i, -, rfl⟩⟩⟩ := step_next h
  · rfl
  · exact raiseFault_imem s f
  · exact commit_imem s m _
  · exact commit_imem s m _

theorem runSteps_imem {k : Nat} {s t : State} (h : runSteps k s = .next t) : t.imem = s.imem := by
  induction k generalizing s with
  | zero => rw [Host.Outcome.next.inj h]
  | succ k ih =>
    obtain ⟨u, hu, hrun⟩ := runSteps_succ_next h
    rw [ih hrun, step_imem hu]

end Sys2Proof.Machine

namespace Sys2Proof.Certificates

open Sys2Proof.Machine

/-- Settles O18: neither an error's record nor a commit changes instruction memory, and there is nothing else a tick can do. -/
theorem instructionMemoryNeverChanges : Obligations.InstructionMemoryNeverChanges :=
  ⟨fun _ _ _ => exec_imem, fun _ _ _ => runSteps_imem⟩

end Sys2Proof.Certificates

/-! ## The cycle count of a clean end -/

namespace Sys2Proof.Machine

/-! ### A run with its tally -/

/-- What holds of a state and its tally, and is kept by a step and its count, is kept by a run. -/
theorem tallyRun_induction {P : State → Tally → Prop}
    (hstep : ∀ {s t c}, P s c → step s = .next t → P t (c.after s t))
    {k : Nat} {s t : State} {c d : Tally} (hs : P s c) (h : tallyRun k s c = some (t, d)) : P t d := by
  induction k generalizing s c with
  | zero =>
    obtain ⟨rfl, rfl⟩ := Prod.mk.inj (Option.some.inj h)
    exact hs
  | succ k ih =>
    cases hu : step s with
    | next u =>
      rw [tallyRun, hu] at h
      exact ih (hstep hs hu) h
    | fault f => simp [tallyRun, hu] at h
    | refused r => simp [tallyRun, hu] at h

/-- Every run has a tally. -/
theorem exists_tallyRun {k : Nat} {s t : State} (h : runSteps k s = .next t) (c : Tally) :
    ∃ d, tallyRun k s c = some (t, d) := by
  induction k generalizing s c with
  | zero => exact ⟨c, by rw [tallyRun, Host.Outcome.next.inj h]⟩
  | succ k ih =>
    obtain ⟨u, hu, hrun⟩ := runSteps_succ_next h
    rw [tallyRun, hu]
    exact ih hrun _

section
variable {s t : State} {c : Tally}

/-- Behind a bubble in ID nothing is counted, for IF does not redirect. -/
theorem after_of_bubble (hn : s.ifid.nop = true) (hr : wasRedirect t = false) : c.after s t = c := by
  simp [Tally.after, wasStall, hn, hr]

theorem after_of_held (hn : s.ifid.nop = false) (ht : t.idex.nop = true) (hr : wasRedirect t = false) :
    c.after s t = { c with stalls := c.stalls + 1 } := by
  simp [Tally.after, wasStall, hn, ht, hr]

theorem after_of_sent (hn : s.ifid.nop = false) (ht : t.idex.nop = false) :
    c.after s t = { stalls := c.stalls
                    redirects := if wasRedirect t then c.redirects + 1 else c.redirects
                    lastRedirected := wasRedirect t } := by
  simp [Tally.after, wasStall, hn, ht]

/-- A step is the state of an ended run kept, an error's record, or a committed tick. -/
theorem step_next_committed (hf : FetchedWord s) (h : step s = .next t) :
    (s.halted = true ∧ t = s) ∨ (s.halted = false ∧ ∃ f, t = raiseFault s f) ∨ ∃ m, Running s ∧ Committed s m t := by
  obtain ⟨-, hkept | hraised | ⟨hr, m, -, hid⟩⟩ := step_next h
  · exact .inl hkept
  · exact .inr (.inl hraised)
  · have hcyc : t.cycle = s.cycle + 1 := by
      rcases hid with ⟨-, rfl⟩ | ⟨-, i, -, rfl⟩ <;> rfl
    rcases step_next_commits h with rfl | ⟨f, rfl⟩ | hc
    · omega
    · rw [raiseFault_cycle] at hcyc
      omega
    · obtain ⟨m, -, ht⟩ := step_committed hf hc h
      exact .inr (.inr ⟨m, hr, ht⟩)

/-! ### The ticks that are left once IF has stopped -/

/-- The ticks from a state with IF stopped to the clean end (R233 to R236). -/
def ticksLeft (s : State) : Nat := if s.halted then 0 else drainTicks s

theorem ticksLeft_of_halted (h : s.halted = true) : ticksLeft s = 0 := if_pos h

theorem ticksLeft_of_not_halted (h : s.halted = false) : ticksLeft s = drainTicks s := if_neg (by simp [h])

theorem drainTicks_of_idex_busy (h : s.idex.nop = false) : drainTicks s = 4 := if_pos h

theorem drainTicks_of_exmem_busy (h2 : s.idex.nop = true) (h3 : s.exmem.nop = false) : drainTicks s = 3 := by
  simp [drainTicks, h2, h3]

/-- In the drain every tick is one tick less to the end (R233, R235). -/
theorem ticksLeft_commit {m : MemOut} (hh : s.halted = false) (hstop : s.ifNop = true) (hn : s.ifid.nop = true) :
    ticksLeft (commit s m idNothing) + 1 = ticksLeft s := by
  simp only [ticksLeft, hh, commit_halted, runDone, hstop, hn, drainTicks, commit_idex, idNothing_latch, commit_exmem,
    exLatch_nop, commit_memwb, memLatch_nop]
  cases h2 : s.idex.nop with
  | false => simp [IdEx.bubble]
  | true =>
    cases h3 : s.exmem.nop with
    | false => simp [IdEx.bubble]
    | true => cases h4 : s.memwb.nop <;> simp [IdEx.bubble]

theorem issuedCount_pos_of_busy (h : s.idex.nop = false) : 0 < issuedCount s := by
  simp only [issuedCount, inFlight, h, Bool.not_false, Bool.toNat_true]
  omega

/-- At a clean end every instruction that has left ID has retired. -/
theorem issuedCount_of_runDone (h : runDone s = true) : issuedCount s = s.retired := by
  obtain ⟨-, -, h2, h3, h4⟩ := runDone_iff.mp h
  simp [issuedCount, inFlight, h2, h3, h4]

/-! ### What the cycle counter holds in each phase of a run -/

/-- The cycle count of R290 for a run in which `n` instructions leave ID, with its tally. -/
def cleanEndCycle (n : Nat) (c : Tally) : Nat := if n = 0 then 2 else n + 5 + c.stalls + c.counted

theorem cleanEndCycle_of_pos {n : Nat} (h : 0 < n) (c : Tally) : cleanEndCycle n c = n + 5 + c.stalls + c.counted :=
  if_neg (by omega)

/-- A run is on pace when its tally accounts for every tick so far: one fetch, and then in ID an instruction sent on, a stall, or
the bubble behind a redirect (R286 to R288); and, once IF has stopped, when what is left of the drain leads to R290's count. -/
inductive OnPace : State → Tally → Prop where
  | reset (im dm : Memory) : OnPace (State.resetWith im dm) Tally.zero
  | fetched {s : State} {c : Tally} (hstop : s.ifNop = false) (hn : s.ifid.nop = false)
      (hcyc : s.cycle = 1 + issuedCount s + c.stalls + c.redirects) : OnPace s c
  /-- The bubble behind a redirect has its tick still to come. -/
  | redirected {s : State} {c : Tally} (hstop : s.ifNop = false) (hn : s.ifid.nop = true) (hbusy : s.idex.nop = false)
      (hlast : c.lastRedirected = true) (hpos : 0 < c.redirects)
      (hcyc : s.cycle = issuedCount s + c.stalls + c.redirects) : OnPace s c
  | stopped {s : State} {c : Tally} (hstop : s.ifNop = true)
      (hcyc : s.cycle + ticksLeft s = cleanEndCycle (issuedCount s) c) : OnPace s c
  | failed {s : State} {c : Tally} (hf : s.fault ≠ none) (hh : s.halted = false) : OnPace s c

/-- A tick without stall or redirect puts a word in IF/ID or stops IF; it is no redirect of the tally's, and IF, which was
fetching, has not ended the run. -/
theorem onPace_commit_of_fetch {m : MemOut} {o : IdOut} (hst : o.stall = false) (hr : o.redirect = none)
    (hgo : s.ifNop = false)
    (hcyc : s.cycle + 1 = 1 + issuedCount (commit s m o) + c.stalls + c.redirects)
    (hend : s.cycle + 1 + drainTicks (commit s m o) = cleanEndCycle (issuedCount (commit s m o)) c) :
    OnPace (commit s m o) c := by
  have hif : ifStage s o = ifFetch s := ifStage_fetch hst hr
  rcases ifFetch_cases s with ⟨-, h⟩ | ⟨-, w, -, -, h⟩
  · have hh : (commit s m o).halted = false := by simp [runDone, hgo]
    exact .stopped (by simp [hif, h, ifStop]) (by rw [ticksLeft_of_not_halted hh]; exact hend)
  · exact .fetched (by simp [hif, h]) (by simp [hif, h]) hcyc

theorem wasRedirect_commit_of_fetch {m : MemOut} {o : IdOut} (hst : o.stall = false) (hr : o.redirect = none) :
    wasRedirect (commit s m o) = false := by
  rw [wasRedirect, commit_ifid, commit_ifNop, ifStage_fetch hst hr]
  rcases ifFetch_cases s with ⟨-, h⟩ | ⟨-, w, -, -, h⟩ <;> simp [h, ifStop]

/-- A tick with a bubble in ID: the first after reset, the one behind a redirect, or one of the drain. -/
theorem OnPace.commit_bubble {m : MemOut} (h : OnPace s c) (hr : Running s) (hn : s.ifid.nop = true) :
    OnPace (commit s m idNothing) (c.after s (commit s m idNothing)) := by
  rw [after_of_bubble hn (wasRedirect_commit_of_fetch rfl rfl)]
  have hcount : issuedCount (commit s m idNothing) = issuedCount s := issuedCount_commit s m idNothing
  cases h with
  | reset im dm => exact onPace_commit_of_fetch rfl rfl rfl rfl rfl
  | fetched _ hn' _ => simp [hn] at hn'
  | redirected hgo _ hbusy hlast hpos hcyc =>
    refine onPace_commit_of_fetch rfl rfl hgo (by omega) ?_
    rw [hcount, cleanEndCycle_of_pos (issuedCount_pos_of_busy hbusy), Tally.counted, if_pos hlast,
      drainTicks_of_exmem_busy rfl ((exLatch_nop s).trans hbusy)]
    omega
  | stopped hstop hcyc =>
    have hleft := ticksLeft_commit (m := m) hr.2.1 hstop hn
    refine .stopped (by simp [ifFetch_of_stopped hstop, ifStop]) ?_
    rw [commit_cycle, hcount]
    omega
  | failed hf _ => exact absurd hr.1 hf

/-- With an instruction in ID the run is neither at its start nor behind a redirect nor draining: IF is fetching. -/
theorem OnPace.of_fetched (h : OnPace s c) (inv : PipeInv s) (hr : Running s) (hn : s.ifid.nop = false) :
    s.ifNop = false ∧ s.cycle = 1 + issuedCount s + c.stalls + c.redirects := by
  cases h with
  | reset im dm => simp at hn
  | fetched hgo _ hcyc => exact ⟨hgo, hcyc⟩
  | redirected _ hn' _ _ _ _ => simp [hn] at hn'
  | stopped hstop _ => simp [inv.stoppedIsEmpty hstop] at hn
  | failed hf _ => exact absurd hr.1 hf

/-- A stall is a tick more and is counted (R287). -/
theorem OnPace.commit_held {m : MemOut} (h : OnPace s c) (inv : PipeInv s) (hr : Running s) (hn : s.ifid.nop = false) :
    OnPace (commit s m idHeld) (c.after s (commit s m idHeld)) := by
  obtain ⟨hgo, hcyc⟩ := h.of_fetched inv hr hn
  have hcount : issuedCount (commit s m idHeld) = issuedCount s := issuedCount_commit s m idHeld
  rw [after_of_held hn rfl (by simp [wasRedirect, hn])]
  refine .fetched hgo hn ?_
  rw [commit_cycle, hcount]
  dsimp only
  omega

/-- An instruction sent on is a tick more; a redirect is counted when it happens, and its bubble takes the tick after (R288),
unless the drain takes it (R293). -/
theorem OnPace.commit_sent {m : MemOut} {o : IdOut} (h : OnPace s c) (inv : PipeInv s) (hr : Running s)
    (hn : s.ifid.nop = false) (hsent : o.latch.nop = false) (hst : o.stall = false) :
    OnPace (commit s m o) (c.after s (commit s m o)) := by
  obtain ⟨hgo, hcyc⟩ := h.of_fetched inv hr hn
  have hcount : issuedCount (commit s m o) = issuedCount s + 1 := by rw [issuedCount_commit, hsent]; rfl
  rw [after_of_sent hn hsent]
  cases hred : o.redirect with
  | some target =>
    have hif := ifStage_redirect (s := s) hst hred
    have hwas : wasRedirect (commit s m o) = true := by simp [wasRedirect, hif]
    refine .redirected (by simp [hif]) (by simp [hif]) hsent hwas ?_ ?_ <;> simp only [hwas, if_true, commit_cycle] <;> omega
  | none =>
    rw [wasRedirect_commit_of_fetch hst hred]
    refine onPace_commit_of_fetch hst hred hgo ?_ ?_
    · simp only [Bool.false_eq_true, if_false]
      omega
    · rw [cleanEndCycle_of_pos (by omega), drainTicks_of_idex_busy hsent, hcount]
      simp only [Tally.counted, Bool.false_eq_true, if_false]
      omega

/-- A run on pace, in a state of the invariant. -/
structure Paced (s : State) (c : Tally) : Prop where
  inv : PipeInv s
  pace : OnPace s c

theorem paced_resetWith {im dm : Memory} (hi : im.wf) (hd : dm.wf) : Paced (State.resetWith im dm) Tally.zero :=
  ⟨pipeInv_resetWith hi hd, .reset im dm⟩

/-- An ended run goes on counting nothing (R238). -/
theorem after_of_halted (inv : PipeInv s) (hh : s.halted = true) : c.after s s = c := by
  obtain ⟨hstop, hn, -⟩ := runDone_iff.mp (inv.haltedIsEmpty hh)
  exact after_of_bubble hn (by simp [wasRedirect, hstop])

/-- Every step keeps the run on pace, by what ID does in it. -/
theorem Paced.step (h : Paced s c) (hs : step s = .next t) : Paced t (c.after s t) := by
  refine ⟨pipeInv_step h.inv hs, ?_⟩
  rcases step_next_committed h.inv.fetchedWord hs with ⟨hh, rfl⟩ | ⟨hh, f, rfl⟩ | ⟨m, hr, ht⟩
  · rw [after_of_halted h.inv hh]
    exact h.pace
  · exact .failed (by simp) hh
  · cases ht with
    | bubble hn => exact h.pace.commit_bubble hr hn
    | held i hn _ _ => exact h.pace.commit_held h.inv hr hn
    | sent i r hn _ _ _ _ => exact h.pace.commit_sent h.inv hr hn rfl rfl

/-- A run on pace that has ended has taken as many ticks as R290 says. -/
theorem Paced.cycle_of_halted (h : Paced s c) (hh : s.halted = true) : s.cycle = cleanEndCycle s.retired c := by
  have hdone := h.inv.haltedIsEmpty hh
  obtain ⟨hstop, hn, -⟩ := runDone_iff.mp hdone
  cases h.pace with
  | reset im dm => simp at hh
  | fetched hgo _ _ => simp [hstop] at hgo
  | redirected hgo _ _ _ _ _ => simp [hstop] at hgo
  | stopped _ hcyc => rwa [ticksLeft_of_halted hh, issuedCount_of_runDone hdone] at hcyc
  | failed _ hh' => simp [hh] at hh'

theorem paced_of_tallyRun {im dm : Memory} {k : Nat} (hi : im.wf) (hd : dm.wf)
    (h : tallyRun k (State.resetWith im dm) Tally.zero = some (t, c)) : Paced t c :=
  tallyRun_induction Paced.step (paced_resetWith hi hd) h

end

end Sys2Proof.Machine

namespace Sys2Proof.Certificates

open Sys2Proof.Machine

/-- Settles O57: reset is on pace, every step keeps a run so, and a run on pace ends with the count of R290. -/
theorem cleanEndCycleFormula : Obligations.CleanEndCycleFormula := by
  intro im dm k t c hi hd hrun hh
  exact (paced_of_tallyRun hi hd hrun).cycle_of_halted hh

/-- Settles O58: the first bound is of the invariant, the second is read off R290's count, whatever the tally. -/
theorem cycleLowerBounds : Obligations.CycleLowerBounds := by
  intro im dm k t hi hd hrun
  obtain ⟨c, hc⟩ := exists_tallyRun hrun Tally.zero
  have hpaced := paced_of_tallyRun hi hd hc
  refine ⟨hpaced.inv.countersBounded.1, fun hh hret => ?_⟩
  rw [hpaced.cycle_of_halted hh, cleanEndCycle_of_pos hret]
  omega

end Sys2Proof.Certificates
